-- ==== Sys2Proof/Word.lean ====
section
/-! DEFINITION. The word and byte types of the core (spec 00_scope.md R8). -/

namespace Sys2Proof

/-- A `Word` of R8: 16 bits. Register sums wrap modulo 2^16 (R8, R24). -/
abbrev Word := BitVec 16

/-- A `Byte` of R8: 8 bits. -/
abbrev Byte := BitVec 8

end Sys2Proof
end

