-- ==== Sys2Proof/Config.lean ====
section
/-! DEFINITION. The parameters a model takes (00_scope.md R6) as plain data, and the free values the spec
leaves open as opaque constants. -/

namespace Sys2Proof

/-- `PROFILE` (R5): the instruction set in force. -/
inductive Profile where
  | doc
  | ext
deriving DecidableEq, Repr

/-- `BIS_MODE` (R178): what BIS and BISB write, and what their flags are taken from. -/
inductive BisMode where
  | xor
  | or
  | orValueXorFlags
deriving DecidableEq, Repr

/-- `DIV_ROUNDING` (R201). -/
inductive DivRounding where
  | trunc
  | floor
deriving DecidableEq, Repr

/-- The parameters of R6. They are fixed for a machine: no step changes them (log 1). -/
structure Config where
  /-- `RAM_SIZE`: RAM is at the physical addresses below it (R61). -/
  ramSize : Nat
  /-- `DEVICE_CLAIMS`: the even physical addresses the external devices claim (R68). -/
  deviceClaims : List Nat
  profile : Profile
  bisMode : BisMode
  divRounding : DivRounding
  /-- `RESET_CLEARS_MMU` (R303). -/
  resetClearsMmu : Bool
  /-- `PSW_MAPPED` (R90): whether physical 0o777776 is the PSW. -/
  pswMapped : Bool
deriving DecidableEq, Repr

/-- `IO_BASE` (R6, R61): the start of the I/O page and the ceiling of the recoverable bus faults (R69). -/
def Config.ioBase : Nat := 0o760000

/-- The last address of the I/O page (R61). -/
def Config.ioEnd : Nat := 0o777777

/-- The parameters `State.reset` carries. PROFILE, BIS_MODE, DIV_ROUNDING and PSW_MAPPED are the defaults of R6.
DESIGN CHOICE, unsafe (log 2): the spec leaves RAM_SIZE, DEVICE_CLAIMS and RESET_CLEARS_MMU open, and these are the
values of its test vectors (95_test_vectors.md, Conventions). -/
def Config.atReset : Config where
  ramSize := 0o100000
  deviceClaims := []
  profile := .doc
  bisMode := .xor
  divRounding := .trunc
  resetClearsMmu := false
  pswMapped := false

/-- The free word of draw `k`: what SR0 bits 15:1 read (R86) and what an external device returns (R68). Nothing
constrains it (log 8). -/
opaque Config.freeWord : Nat → Word

/-- The free bit of draw `k`: N after a DIV overflow (R203). Nothing constrains it (log 8). -/
opaque Config.freeBit : Nat → Bool

end Sys2Proof
end

