-- ==== Sys2Proof/Syntax.lean ====
section
/-! DEFINITION. The instruction set as syntax: one constructor of `Instr` per row of spec/opcode_table.json. The fields
are those of the row's format (30_encoding.md R111). -/

namespace Sys2Proof

/-- A register number of an instruction (R22, R23): R0-R5, SP = R6, PC = R7. -/
inductive Reg where
  | r0
  | r1
  | r2
  | r3
  | r4
  | r5
  | sp
  | pc
deriving DecidableEq, Repr

/-- The eight addressing modes, in the order of their numbers 0-7 (40_step_and_operands.md R145-R152). -/
inductive AddrMode where
  | register
  | deferred
  | autoInc
  | autoIncDeferred
  | autoDec
  | autoDecDeferred
  | index
  | indexDeferred
deriving DecidableEq, Repr

/-- An operand specifier: a mode and a register, 6 bits (R112). Its extension word, if any, is fetched when the
specifier is resolved (R110). -/
structure Operand where
  mode : AddrMode
  reg : Reg
deriving DecidableEq, Repr

/-- The instructions of both profiles (R121, R122). -/
inductive Instr where
  /-- MOV, `0001ssssssdddddd` (R171). -/
  | mov (src : Operand) (dst : Operand)
  /-- CMP, `0010ssssssdddddd` (R173). -/
  | cmp (src : Operand) (dst : Operand)
  /-- BIT, `0011ssssssdddddd` (R175). -/
  | bit (src : Operand) (dst : Operand)
  /-- BIC, `0100ssssssdddddd` (R177). -/
  | bic (src : Operand) (dst : Operand)
  /-- BIS, `0101ssssssdddddd` (R179). -/
  | bis (src : Operand) (dst : Operand)
  /-- ADD, `0110ssssssdddddd` (R182). -/
  | add (src : Operand) (dst : Operand)
  /-- MOVB, `1001ssssssdddddd` (R172). -/
  | movb (src : Operand) (dst : Operand)
  /-- CMPB, `1010ssssssdddddd` (R174). -/
  | cmpb (src : Operand) (dst : Operand)
  /-- BITB, `1011ssssssdddddd` (R176). -/
  | bitb (src : Operand) (dst : Operand)
  /-- BICB, `1100ssssssdddddd` (R180). -/
  | bicb (src : Operand) (dst : Operand)
  /-- BISB, `1101ssssssdddddd` (R181). -/
  | bisb (src : Operand) (dst : Operand)
  /-- SUB, `1110ssssssdddddd` (R183). -/
  | sub (src : Operand) (dst : Operand)
  /-- JSR, `0000100rrrdddddd` (R252). -/
  | jsr (r : Reg) (dst : Operand)
  /-- MUL, `0111000rrrssssss` (R202). -/
  | mul (r : Reg) (src : Operand)
  /-- DIV, `0111001rrrssssss` (R203). -/
  | div (r : Reg) (src : Operand)
  /-- ASH, `0111010rrrssssss` (R204). -/
  | ash (r : Reg) (src : Operand)
  /-- SOB, `0111111rrrnnnnnn` (R232). -/
  | sob (r : Reg) (nn : BitVec 6)
  /-- BR, `00000001oooooooo` (R221). -/
  | br (offset : BitVec 8)
  /-- BNE, `00000010oooooooo` (R222). -/
  | bne (offset : BitVec 8)
  /-- BEQ, `00000011oooooooo` (R223). -/
  | beq (offset : BitVec 8)
  /-- BGE, `00000100oooooooo` (R224). -/
  | bge (offset : BitVec 8)
  /-- BLT, `00000101oooooooo` (R225). -/
  | blt (offset : BitVec 8)
  /-- BGT, `00000110oooooooo` (R226). -/
  | bgt (offset : BitVec 8)
  /-- BPL, `10000000oooooooo` (R227). -/
  | bpl (offset : BitVec 8)
  /-- BHI, `10000010oooooooo` (R228). -/
  | bhi (offset : BitVec 8)
  /-- BLOS, `10000011oooooooo` (R229). -/
  | blos (offset : BitVec 8)
  /-- BCC, `10000110oooooooo` (R230). -/
  | bcc (offset : BitVec 8)
  /-- BCS, `10000111oooooooo` (R231). -/
  | bcs (offset : BitVec 8)
  /-- JMP, `0000000001dddddd` (R251). -/
  | jmp (dst : Operand)
  /-- SWAB, `0000000011dddddd` (R277). -/
  | swab (dst : Operand)
  /-- CLR, `0000101000dddddd` (R271). -/
  | clr (dst : Operand)
  /-- INC, `0000101010dddddd` (R273). -/
  | inc (dst : Operand)
  /-- TST, `0000101111dddddd` (R275). -/
  | tst (dst : Operand)
  /-- ASL, `0000110011dddddd` (R279). -/
  | asl (dst : Operand)
  /-- MFPI, `0000110101ssssss` (R307). -/
  | mfpi (src : Operand)
  /-- MTPI, `0000110110dddddd` (R308). -/
  | mtpi (dst : Operand)
  /-- SXT, `0000110111dddddd` (R278). -/
  | sxt (dst : Operand)
  /-- CLRB, `1000101000dddddd` (R272). -/
  | clrb (dst : Operand)
  /-- INCB, `1000101010dddddd` (R274). -/
  | incb (dst : Operand)
  /-- TSTB, `1000101111dddddd` (R276). -/
  | tstb (dst : Operand)
  /-- RTS, `0000000010000rrr` (R253). -/
  | rts (r : Reg)
  /-- HALT, `0000000000000000` (R300). -/
  | halt
  /-- WAIT, `0000000000000001` (R301). -/
  | wait
  /-- RESET, `0000000000000101` (R302). -/
  | reset
  /-- RTT, `0000000000000110` (R304). -/
  | rtt
  /-- COM, `0000101001dddddd` (R331). -/
  | com (dst : Operand)
  /-- COMB, `1000101001dddddd` (R332). -/
  | comb (dst : Operand)
  /-- NEG, `0000101100dddddd` (R333). -/
  | neg (dst : Operand)
  /-- NEGB, `1000101100dddddd` (R334). -/
  | negb (dst : Operand)
  /-- DEC, `0000101011dddddd` (R335). -/
  | dec (dst : Operand)
  /-- DECB, `1000101011dddddd` (R336). -/
  | decb (dst : Operand)
  /-- ADC, `0000101101dddddd` (R337). -/
  | adc (dst : Operand)
  /-- ADCB, `1000101101dddddd` (R338). -/
  | adcb (dst : Operand)
  /-- SBC, `0000101110dddddd` (R339). -/
  | sbc (dst : Operand)
  /-- SBCB, `1000101110dddddd` (R340). -/
  | sbcb (dst : Operand)
  /-- ROR, `0000110000dddddd` (R341). -/
  | ror (dst : Operand)
  /-- RORB, `1000110000dddddd` (R342). -/
  | rorb (dst : Operand)
  /-- ROL, `0000110001dddddd` (R343). -/
  | rol (dst : Operand)
  /-- ROLB, `1000110001dddddd` (R344). -/
  | rolb (dst : Operand)
  /-- ASR, `0000110010dddddd` (R345). -/
  | asr (dst : Operand)
  /-- ASRB, `1000110010dddddd` (R346). -/
  | asrb (dst : Operand)
  /-- ASLB, `1000110011dddddd` (R347). -/
  | aslb (dst : Operand)
  /-- BLE, `00000111oooooooo` (R348). -/
  | ble (offset : BitVec 8)
  /-- BMI, `10000001oooooooo` (R349). -/
  | bmi (offset : BitVec 8)
  /-- BVC, `10000100oooooooo` (R350). -/
  | bvc (offset : BitVec 8)
  /-- BVS, `10000101oooooooo` (R351). -/
  | bvs (offset : BitVec 8)
  /-- XOR, `0111100rrrdddddd` (R352). -/
  | xor (r : Reg) (dst : Operand)
  /-- ASHC, `0111011rrrssssss` (R353). -/
  | ashc (r : Reg) (src : Operand)
  /-- MARK, `0000110100nnnnnn` (R354). -/
  | mark (nn : BitVec 6)
  /-- SPL, `0000000010011nnn` (R355). -/
  | spl (level : BitVec 3)
  /-- CCC, `000000001010nzvc` (R356). -/
  | ccc (mask : BitVec 4)
  /-- SCC, `000000001011nzvc` (R357). -/
  | scc (mask : BitVec 4)
  /-- MFPD, `1000110101ssssss` (R358). -/
  | mfpd (src : Operand)
  /-- MTPD, `1000110110dddddd` (R359). -/
  | mtpd (dst : Operand)
  /-- EMT, `10001000kkkkkkkk` (R360). -/
  | emt (code : BitVec 8)
  /-- TRAP, `10001001kkkkkkkk` (R361). -/
  | trap (code : BitVec 8)
  /-- BPT, `0000000000000011` (R362). -/
  | bpt
  /-- IOT, `0000000000000100` (R363). -/
  | iot
  /-- RTI, `0000000000000010` (R364). -/
  | rti
deriving DecidableEq, Repr

end Sys2Proof
end

