-- ==== Sys2Proof/WellFormed.lean ====
section
/-! DEFINITION. Which instructions are well formed: the profile in force has the row (R5, R330), and a jump target is
in a legal mode (R125). A field out of its range cannot be written: the types of Syntax exclude it. -/

namespace Sys2Proof

/-- Modes 1, 6 and 7 are the legal targets of JMP and JSR (44_jumps_subroutines.md R250). -/
def AddrMode.isJumpTarget : AddrMode → Bool
  | .deferred | .index | .indexDeferred => true
  | .register | .autoInc | .autoIncDeferred | .autoDec | .autoDecDeferred => false

/-- The profile whose rows introduce an instruction (R121, R122). -/
def Instr.profile : Instr → Profile
  | .mov _ _ | .cmp _ _ | .bit _ _ | .bic _ _ | .bis _ _ | .add _ _ | .movb _ _ | .cmpb _ _ | .bitb _ _
  | .bicb _ _ | .bisb _ _ | .sub _ _ | .jsr _ _ | .mul _ _ | .div _ _ | .ash _ _ | .sob _ _ | .br _ | .bne _
  | .beq _ | .bge _ | .blt _ | .bgt _ | .bpl _ | .bhi _ | .blos _ | .bcc _ | .bcs _ | .jmp _ | .swab _ | .clr _
  | .inc _ | .tst _ | .asl _ | .mfpi _ | .mtpi _ | .sxt _ | .clrb _ | .incb _ | .tstb _ | .rts _ | .halt
  | .wait | .reset | .rtt => .doc
  | .com _ | .comb _ | .neg _ | .negb _ | .dec _ | .decb _ | .adc _ | .adcb _ | .sbc _ | .sbcb _ | .ror _
  | .rorb _ | .rol _ | .rolb _ | .asr _ | .asrb _ | .aslb _ | .ble _ | .bmi _ | .bvc _ | .bvs _ | .xor _ _
  | .ashc _ _ | .mark _ | .spl _ | .ccc _ | .scc _ | .mfpd _ | .mtpd _ | .emt _ | .trap _ | .bpt | .iot | .rti => .ext

/-- Profile `EXT` has the rows of `DOC` as well (R122). -/
def Profile.includes : Profile → Profile → Bool
  | .ext, .doc | .ext, .ext | .doc, .doc => true
  | .doc, .ext => false

/-- The row of the instruction belongs to the profile in force (R5, R330). -/
def Instr.inProfile (p : Profile) (i : Instr) : Bool := p.includes i.profile

/-- The one illegal operand form within a recognised instruction (R125). -/
def Instr.legalOperands : Instr → Bool
  | .jmp dst => dst.mode.isJumpTarget
  | .jsr _ dst => dst.mode.isJumpTarget
  | .mov _ _ | .cmp _ _ | .bit _ _ | .bic _ _ | .bis _ _ | .add _ _ | .movb _ _ | .cmpb _ _ | .bitb _ _
  | .bicb _ _ | .bisb _ _ | .sub _ _ | .mul _ _ | .div _ _ | .ash _ _ | .sob _ _ | .br _ | .bne _ | .beq _
  | .bge _ | .blt _ | .bgt _ | .bpl _ | .bhi _ | .blos _ | .bcc _ | .bcs _ | .swab _ | .clr _ | .inc _ | .tst _
  | .asl _ | .mfpi _ | .mtpi _ | .sxt _ | .clrb _ | .incb _ | .tstb _ | .rts _ | .halt | .wait | .reset | .rtt
  | .com _ | .comb _ | .neg _ | .negb _ | .dec _ | .decb _ | .adc _ | .adcb _ | .sbc _ | .sbcb _ | .ror _
  | .rorb _ | .rol _ | .rolb _ | .asr _ | .asrb _ | .aslb _ | .ble _ | .bmi _ | .bvc _ | .bvs _ | .xor _ _
  | .ashc _ _ | .mark _ | .spl _ | .ccc _ | .scc _ | .mfpd _ | .mtpd _ | .emt _ | .trap _ | .bpt | .iot | .rti => true

/-- An instruction that decodes under the profile and has no illegal operand form. -/
def Instr.wellFormed (p : Profile) (i : Instr) : Bool := i.inProfile p && i.legalOperands

end Sys2Proof
end

