-- ==== Sys2Proof/Decode.lean ====
section
/-! DEFINITION. Decoding (30_encoding.md R117-R124), total on any word and any bytes, and the encoder written from the
same opcode map (R121, R122). Decoding reads the word and the profile only (R117). -/

namespace Sys2Proof

/-- The field of `w` of `len` bits from bit `lo` up (R7). -/
def field (w : Word) (lo len : Nat) : BitVec len := w.extractLsb' lo len

/-- Register number 0-7 (R22, R23). -/
def Reg.ofBits (b : BitVec 3) : Reg :=
  match b.toNat with
  | 0 => .r0
  | 1 => .r1
  | 2 => .r2
  | 3 => .r3
  | 4 => .r4
  | 5 => .r5
  | 6 => .sp
  | _ => .pc

/-- The number of a register (R22, R23). -/
def Reg.toBits : Reg → BitVec 3
  | .r0 => 0
  | .r1 => 1
  | .r2 => 2
  | .r3 => 3
  | .r4 => 4
  | .r5 => 5
  | .sp => 6
  | .pc => 7

/-- Mode number 0-7 (R145-R152). -/
def AddrMode.ofBits (b : BitVec 3) : AddrMode :=
  match b.toNat with
  | 0 => .register
  | 1 => .deferred
  | 2 => .autoInc
  | 3 => .autoIncDeferred
  | 4 => .autoDec
  | 5 => .autoDecDeferred
  | 6 => .index
  | _ => .indexDeferred

/-- The number of a mode (R145-R152). -/
def AddrMode.toBits : AddrMode → BitVec 3
  | .register => 0
  | .deferred => 1
  | .autoInc => 2
  | .autoIncDeferred => 3
  | .autoDec => 4
  | .autoDecDeferred => 5
  | .index => 6
  | .indexDeferred => 7

/-- `mode = spec[5:3]`, `reg = spec[2:0]` (R112). -/
def Operand.ofBits (b : BitVec 6) : Operand :=
  ⟨AddrMode.ofBits (b.extractLsb' 3 3), Reg.ofBits (b.extractLsb' 0 3)⟩

/-- The 6-bit specifier (R112). -/
def Operand.toBits (o : Operand) : BitVec 6 := o.mode.toBits ++ o.reg.toBits

/-- The specifier whose lowest bit is bit `lo` (R111, R112). -/
def operandAt (w : Word) (lo : Nat) : Operand := Operand.ofBits (field w lo 6)

/-- The register number whose lowest bit is bit `lo` (R111). -/
def regAt (w : Word) (lo : Nat) : Reg := Reg.ofBits (field w lo 3)

/-- Tier (a), mask 0o170000: the double-operand rows. (R117) -/
def decodeTierA (w : Word) : Option Instr :=
  match (field w 12 4).toNat with
  | 0o01 => some (.mov (operandAt w 6) (operandAt w 0))
  | 0o02 => some (.cmp (operandAt w 6) (operandAt w 0))
  | 0o03 => some (.bit (operandAt w 6) (operandAt w 0))
  | 0o04 => some (.bic (operandAt w 6) (operandAt w 0))
  | 0o05 => some (.bis (operandAt w 6) (operandAt w 0))
  | 0o06 => some (.add (operandAt w 6) (operandAt w 0))
  | 0o11 => some (.movb (operandAt w 6) (operandAt w 0))
  | 0o12 => some (.cmpb (operandAt w 6) (operandAt w 0))
  | 0o13 => some (.bitb (operandAt w 6) (operandAt w 0))
  | 0o14 => some (.bicb (operandAt w 6) (operandAt w 0))
  | 0o15 => some (.bisb (operandAt w 6) (operandAt w 0))
  | 0o16 => some (.sub (operandAt w 6) (operandAt w 0))
  | _ => none

/-- Tier (b), mask 0o177000: JSR, MUL, DIV, ASH, SOB, XOR, ASHC. (R117) -/
def decodeTierB (w : Word) : Option Instr :=
  match (field w 9 7).toNat with
  | 0o004 => some (.jsr (regAt w 6) (operandAt w 0))
  | 0o070 => some (.mul (regAt w 6) (operandAt w 0))
  | 0o071 => some (.div (regAt w 6) (operandAt w 0))
  | 0o072 => some (.ash (regAt w 6) (operandAt w 0))
  | 0o077 => some (.sob (regAt w 6) (field w 0 6))
  | 0o074 => some (.xor (regAt w 6) (operandAt w 0))
  | 0o073 => some (.ashc (regAt w 6) (operandAt w 0))
  | _ => none

/-- Tier (c), mask 0o177400: the branches, EMT and TRAP. (R117) -/
def decodeTierC (w : Word) : Option Instr :=
  match (field w 8 8).toNat with
  | 0o001 => some (.br (field w 0 8))
  | 0o002 => some (.bne (field w 0 8))
  | 0o003 => some (.beq (field w 0 8))
  | 0o004 => some (.bge (field w 0 8))
  | 0o005 => some (.blt (field w 0 8))
  | 0o006 => some (.bgt (field w 0 8))
  | 0o200 => some (.bpl (field w 0 8))
  | 0o202 => some (.bhi (field w 0 8))
  | 0o203 => some (.blos (field w 0 8))
  | 0o206 => some (.bcc (field w 0 8))
  | 0o207 => some (.bcs (field w 0 8))
  | 0o007 => some (.ble (field w 0 8))
  | 0o201 => some (.bmi (field w 0 8))
  | 0o204 => some (.bvc (field w 0 8))
  | 0o205 => some (.bvs (field w 0 8))
  | 0o210 => some (.emt (field w 0 8))
  | 0o211 => some (.trap (field w 0 8))
  | _ => none

/-- Tier (d), mask 0o177700: the single-operand rows, MFPI, MTPI, MARK, MFPD, MTPD. (R117) -/
def decodeTierD (w : Word) : Option Instr :=
  match (field w 6 10).toNat with
  | 0o0001 => some (.jmp (operandAt w 0))
  | 0o0003 => some (.swab (operandAt w 0))
  | 0o0050 => some (.clr (operandAt w 0))
  | 0o0052 => some (.inc (operandAt w 0))
  | 0o0057 => some (.tst (operandAt w 0))
  | 0o0063 => some (.asl (operandAt w 0))
  | 0o0065 => some (.mfpi (operandAt w 0))
  | 0o0066 => some (.mtpi (operandAt w 0))
  | 0o0067 => some (.sxt (operandAt w 0))
  | 0o1050 => some (.clrb (operandAt w 0))
  | 0o1052 => some (.incb (operandAt w 0))
  | 0o1057 => some (.tstb (operandAt w 0))
  | 0o0051 => some (.com (operandAt w 0))
  | 0o1051 => some (.comb (operandAt w 0))
  | 0o0054 => some (.neg (operandAt w 0))
  | 0o1054 => some (.negb (operandAt w 0))
  | 0o0053 => some (.dec (operandAt w 0))
  | 0o1053 => some (.decb (operandAt w 0))
  | 0o0055 => some (.adc (operandAt w 0))
  | 0o1055 => some (.adcb (operandAt w 0))
  | 0o0056 => some (.sbc (operandAt w 0))
  | 0o1056 => some (.sbcb (operandAt w 0))
  | 0o0060 => some (.ror (operandAt w 0))
  | 0o1060 => some (.rorb (operandAt w 0))
  | 0o0061 => some (.rol (operandAt w 0))
  | 0o1061 => some (.rolb (operandAt w 0))
  | 0o0062 => some (.asr (operandAt w 0))
  | 0o1062 => some (.asrb (operandAt w 0))
  | 0o1063 => some (.aslb (operandAt w 0))
  | 0o0064 => some (.mark (field w 0 6))
  | 0o1065 => some (.mfpd (operandAt w 0))
  | 0o1066 => some (.mtpd (operandAt w 0))
  | _ => none

/-- Tier (e), mask 0o177770: RTS and SPL. (R117) -/
def decodeTierE (w : Word) : Option Instr :=
  match (field w 3 13).toNat with
  | 0o00020 => some (.rts (regAt w 0))
  | 0o00023 => some (.spl (field w 0 3))
  | _ => none

/-- The CC rows, mask 0o177760, tried between tiers (e) and (f). (R117) -/
def decodeTierCc (w : Word) : Option Instr :=
  match (field w 4 12).toNat with
  | 0o0012 => some (.ccc (field w 0 4))
  | 0o0013 => some (.scc (field w 0 4))
  | _ => none

/-- Tier (f), a full-word match. (R117) -/
def decodeTierF (w : Word) : Option Instr :=
  match (field w 0 16).toNat with
  | 0o000000 => some .halt
  | 0o000001 => some .wait
  | 0o000005 => some .reset
  | 0o000006 => some .rtt
  | 0o000003 => some .bpt
  | 0o000004 => some .iot
  | 0o000002 => some .rti
  | _ => none

/-- The row of the opcode table that accepts the word, whatever the profile: the tiers in the source's order, first
match wins (R117, R118). -/
def decodeWord (w : Word) : Option Instr :=
  (((((decodeTierA w).or (decodeTierB w)).or (decodeTierC w)).or (decodeTierD w)).or (decodeTierE w)).or
    ((decodeTierCc w).or (decodeTierF w))

/-- Why bytes are not an instruction. -/
inductive DecodeError where
  /-- The word matches no row of the profile (R123). -/
  | unknownInstruction (w : Word)
  /-- Fewer than the two bytes of an instruction word (R110). -/
  | tooShort
deriving DecidableEq, Repr

/-- `Decode(w, PROFILE)` (R142): a row counts only when its profile is in force (R124, R330). -/
def decode (p : Profile) (w : Word) : Except DecodeError Instr :=
  match decodeWord w with
  | some i => if i.inProfile p then .ok i else .error (.unknownInstruction w)
  | none => .error (.unknownInstruction w)

/-- The instruction at the head of a byte string, low byte first (R72, R110), and the bytes after its word. -/
def decodeBytes (p : Profile) : List Byte → Except DecodeError (Instr × List Byte)
  | lo :: hi :: rest =>
    match decode p (hi ++ lo) with
    | .ok i => .ok (i, rest)
    | .error e => .error e
  | [_] | [] => .error .tooShort

/-! ## The encoder, format by format (R111) -/

/-- Format DOP: opcode 15:12, source 11:6, destination 5:0. -/
def encDop (op : BitVec 4) (ss dd : BitVec 6) : Word := op ++ ss ++ dd

/-- Formats RDD, RSS and SOB: opcode 15:9, register 8:6, a 6-bit field 5:0. -/
def encReg (op : BitVec 7) (r : BitVec 3) (x : BitVec 6) : Word := op ++ r ++ x

/-- Formats BR and TRAPF: opcode 15:8, an 8-bit field 7:0. -/
def encByte (op : BitVec 8) (x : BitVec 8) : Word := op ++ x

/-- Formats SOP, SOPS and MARK: opcode 15:6, a 6-bit field 5:0. -/
def encOperand (op : BitVec 10) (x : BitVec 6) : Word := op ++ x

/-- Formats RTS and SPL: opcode 15:3, a 3-bit field 2:0. -/
def encLow3 (op : BitVec 13) (x : BitVec 3) : Word := op ++ x

/-- Format CC: opcode 15:4, the mask nzvc 3:0. -/
def encMask (op : BitVec 12) (x : BitVec 4) : Word := op ++ x

/-- The instruction word of an instruction (R111, R121, R122). -/
def encode : Instr → Word
  | .mov s d => encDop 0o01 s.toBits d.toBits
  | .cmp s d => encDop 0o02 s.toBits d.toBits
  | .bit s d => encDop 0o03 s.toBits d.toBits
  | .bic s d => encDop 0o04 s.toBits d.toBits
  | .bis s d => encDop 0o05 s.toBits d.toBits
  | .add s d => encDop 0o06 s.toBits d.toBits
  | .movb s d => encDop 0o11 s.toBits d.toBits
  | .cmpb s d => encDop 0o12 s.toBits d.toBits
  | .bitb s d => encDop 0o13 s.toBits d.toBits
  | .bicb s d => encDop 0o14 s.toBits d.toBits
  | .bisb s d => encDop 0o15 s.toBits d.toBits
  | .sub s d => encDop 0o16 s.toBits d.toBits
  | .jsr r d => encReg 0o004 r.toBits d.toBits
  | .mul r s => encReg 0o070 r.toBits s.toBits
  | .div r s => encReg 0o071 r.toBits s.toBits
  | .ash r s => encReg 0o072 r.toBits s.toBits
  | .sob r nn => encReg 0o077 r.toBits nn
  | .br o => encByte 0o001 o
  | .bne o => encByte 0o002 o
  | .beq o => encByte 0o003 o
  | .bge o => encByte 0o004 o
  | .blt o => encByte 0o005 o
  | .bgt o => encByte 0o006 o
  | .bpl o => encByte 0o200 o
  | .bhi o => encByte 0o202 o
  | .blos o => encByte 0o203 o
  | .bcc o => encByte 0o206 o
  | .bcs o => encByte 0o207 o
  | .jmp d => encOperand 0o0001 d.toBits
  | .swab d => encOperand 0o0003 d.toBits
  | .clr d => encOperand 0o0050 d.toBits
  | .inc d => encOperand 0o0052 d.toBits
  | .tst d => encOperand 0o0057 d.toBits
  | .asl d => encOperand 0o0063 d.toBits
  | .mfpi s => encOperand 0o0065 s.toBits
  | .mtpi d => encOperand 0o0066 d.toBits
  | .sxt d => encOperand 0o0067 d.toBits
  | .clrb d => encOperand 0o1050 d.toBits
  | .incb d => encOperand 0o1052 d.toBits
  | .tstb d => encOperand 0o1057 d.toBits
  | .rts r => encLow3 0o00020 r.toBits
  | .halt => 0o000000
  | .wait => 0o000001
  | .reset => 0o000005
  | .rtt => 0o000006
  | .com d => encOperand 0o0051 d.toBits
  | .comb d => encOperand 0o1051 d.toBits
  | .neg d => encOperand 0o0054 d.toBits
  | .negb d => encOperand 0o1054 d.toBits
  | .dec d => encOperand 0o0053 d.toBits
  | .decb d => encOperand 0o1053 d.toBits
  | .adc d => encOperand 0o0055 d.toBits
  | .adcb d => encOperand 0o1055 d.toBits
  | .sbc d => encOperand 0o0056 d.toBits
  | .sbcb d => encOperand 0o1056 d.toBits
  | .ror d => encOperand 0o0060 d.toBits
  | .rorb d => encOperand 0o1060 d.toBits
  | .rol d => encOperand 0o0061 d.toBits
  | .rolb d => encOperand 0o1061 d.toBits
  | .asr d => encOperand 0o0062 d.toBits
  | .asrb d => encOperand 0o1062 d.toBits
  | .aslb d => encOperand 0o1063 d.toBits
  | .ble o => encByte 0o007 o
  | .bmi o => encByte 0o201 o
  | .bvc o => encByte 0o204 o
  | .bvs o => encByte 0o205 o
  | .xor r d => encReg 0o074 r.toBits d.toBits
  | .ashc r s => encReg 0o073 r.toBits s.toBits
  | .mark nn => encOperand 0o0064 nn
  | .spl n => encLow3 0o00023 n
  | .ccc m => encMask 0o0012 m
  | .scc m => encMask 0o0013 m
  | .mfpd s => encOperand 0o1065 s.toBits
  | .mtpd d => encOperand 0o1066 d.toBits
  | .emt k => encByte 0o210 k
  | .trap k => encByte 0o211 k
  | .bpt => 0o000003
  | .iot => 0o000004
  | .rti => 0o000002

/-- The instruction word as bytes, low byte first (R72). -/
def encodeBytes (i : Instr) : List Byte := [(encode i).extractLsb' 0 8, (encode i).extractLsb' 8 8]

/-- The bytes of a number, least significant first: the layout of 16-bit words stored low byte first (R72). -/
def layoutBytes (w : Nat) : Nat → List Byte
  | 0 => []
  | k + 1 => BitVec.ofNat 8 w :: layoutBytes (w / 256) k

/-- The instruction the decoder reads from an instruction whose bits are `w`, `nbits` of them, every bit above 0, with
the rows of both profiles in force (log 3). The longest instruction is 6 bytes (R110). -/
def decodeTableWord (nbits w : Nat) : Option Instr :=
  match decodeBytes .ext (layoutBytes (w % 2 ^ nbits) 6) with
  | .ok (i, _) => some i
  | .error _ => none

end Sys2Proof
end

