-- ==== Sys2Proof/Machine/State.lean ====
section
/-! DEFINITION. The state of the machine (10_state.md R20), its reasons to stop, and the state after `init()` (R41,
R450). -/

namespace Sys2Proof.Machine

/-- The processor modes (R29): Kernel 0b00, Supervisor 0b01, User 0b11. The value 0b10 cannot be loaded (R28), so the
current mode is one of three (log 12). -/
inductive Mode where
  | kernel
  | supervisor
  | user
deriving DecidableEq, Repr

/-- The processor status word (R26). Bits 10:8 of the packed word have no storage (R27). -/
structure Psw where
  /-- Current mode. -/
  cm : Mode
  /-- Previous mode: all four 2-bit values can be loaded (R28). -/
  pm : BitVec 2
  /-- Register set select: bank 1 when true (R22). -/
  rs : Bool
  /-- Priority (R32). -/
  pri : BitVec 3
  /-- Trace (R31). -/
  t : Bool
  n : Bool
  z : Bool
  v : Bool
  c : Bool
deriving DecidableEq, Repr

/-- The run state (R34). -/
inductive RunState where
  | running
  | waiting
  | halted
deriving DecidableEq, Repr

/-- R0-R5 of one general-register bank (R21). -/
structure Bank where
  r0 : Word
  r1 : Word
  r2 : Word
  r3 : Word
  r4 : Word
  r5 : Word
deriving DecidableEq, Repr

/-- The two page-register sets (R33): supervisor has none. -/
inductive PageSet where
  | kernel
  | user
deriving DecidableEq, Repr

/-- The MMU (R33): PAR and PDR of each set, and bit 0 of SR0. SR0 bits 15:1, SR1 and SR2 have no storage. -/
structure Mmu where
  kpar : Vector (BitVec 12) 8
  upar : Vector (BitVec 12) 8
  kpdr : Vector Word 8
  updr : Vector Word 8
  enabled : Bool
deriving DecidableEq, Repr

/-- An interrupt request of the host (R410). -/
structure Offer where
  level : BitVec 3
  vector : Word
deriving DecidableEq, Repr

/-- What the bus history records (R68, R70, R302). -/
inductive BusEvent where
  | deviceRead (pa : Nat) (value : Word)
  | deviceWrite (pa : Nat) (value : Word)
  | busInit
deriving DecidableEq, Repr

/-- What a fatal stop is annotated with (R10, R402): the instruction word of the step, if one was fetched, and
`currentPc`. -/
structure Annotation where
  word : Option Word
  currentPc : Word
deriving DecidableEq, Repr

/-- The state of the machine. -/
structure State where
  /-- `GR[0][0..5]` (R21). -/
  bank0 : Bank
  /-- `GR[1][0..5]` (R21). -/
  bank1 : Bank
  /-- `SPK`, R6 of kernel mode (R21). -/
  spk : Word
  /-- `SPS`, R6 of supervisor mode (R21). -/
  sps : Word
  /-- `SPU`, R6 of user mode (R21). -/
  spu : Word
  /-- `PCR`, R7 (R21, R24). -/
  pcr : Word
  psw : Psw
  mmu : Mmu
  run : RunState
  /-- The PC snapshot of the step (R35). -/
  currentPc : Word
  /-- RAM bytes by physical address, in the canonical form of `Memory.wf`: addresses strictly rising, no byte equal
  to what an unlisted address reads as (log 4). -/
  ram : List Host.Cell
  /-- The bus history, oldest event first (R70, log 9). -/
  history : List BusEvent
  /-- The host's offers, the head for the coming boundary; an exhausted list offers nothing (R410, log 7). -/
  offers : List (Option Offer)
  /-- The parameters of R6, which no step changes (log 1). -/
  cfg : Config
  /-- The model's own: how many free values have been drawn (log 8). -/
  draws : Nat
  /-- The model's own: the instruction word this step has fetched, for the annotation of R402 (log 10). -/
  ir : Option Word
deriving DecidableEq, Repr

/-- The fatal kinds of R10, each with its annotation (R402), and the two ends of a run that have no step. All are
safe: the machine stops. -/
inductive Fault where
  /-- The word matches no row of the profile in force: raised by the step (R124). -/
  | unknownInstruction (at_ : Annotation)
  /-- JMP or JSR with a target in mode 0, 2, 3, 4 or 5 (R250). -/
  | illegalAddressingMode (at_ : Annotation)
  /-- A memory access in a mode without translation (R77), a PSW load with cm = 0b10 (R28), MFPI or MTPI with
  pm = 0b10 (R305, R306). -/
  | invalidMode (at_ : Annotation)
  /-- A bus access to an unclaimed physical address at or above `IO_BASE` (R69). -/
  | busError (at_ : Annotation)
  /-- A word access at an odd virtual address (R82). -/
  | oddAddress (at_ : Annotation)
  /-- A bus timeout inside a trap entry (R406). -/
  | doubleFault (at_ : Annotation)
  /-- A host register access outside 0..15 (R40): raised by `readRegister` and `writeRegister` only, between two steps,
  so it carries no word of a step (log 19). -/
  | invalidRegisterIndex (index : Nat) (at_ : Annotation)
  /-- A step from the run state Halted: the run has ended with success and has no further step (R34, R471, log 5). -/
  | halted
  /-- The outcome `Stuck` of R140: Waiting, with no acceptable offer at this boundary (log 6). -/
  | stuck
deriving DecidableEq, Repr

/-- The refusals. Both are safe: the machine stops. -/
inductive Refusal where
  /-- An instruction that has no meaning yet: raised by `exec`'s refused arms only. -/
  | notModelled (mnemonic : String)
  /-- A step that would fetch with T = 1: raised by the step (R31, R414). -/
  | traceUnmodelled
deriving DecidableEq, Repr

/-- A PSW of all zeros: Kernel mode, previous Kernel, bank 0, priority 0, flags clear (R41). -/
def Psw.zero : Psw where
  cm := .kernel
  pm := 0
  rs := false
  pri := 0
  t := false
  n := false
  z := false
  v := false
  c := false

/-- A bank of zeros (R41). -/
def Bank.zero : Bank := ⟨0, 0, 0, 0, 0, 0⟩

/-- The MMU after `init()`: every PAR and PDR 0, translation off (R41). -/
def Mmu.zero : Mmu where
  kpar := Vector.replicate 8 0
  upar := Vector.replicate 8 0
  kpdr := Vector.replicate 8 0
  updr := Vector.replicate 8 0
  enabled := false

/-- The state after `init()` (R41, R450) of a machine with the parameters `cfg` and no RAM byte listed. The history,
the offers, the draw counter and the fetched word start empty: DESIGN CHOICE (log 7, 8, 9, 10). -/
def State.resetWith (cfg : Config) : State where
  bank0 := Bank.zero
  bank1 := Bank.zero
  spk := 0
  sps := 0
  spu := 0
  pcr := 0
  psw := Psw.zero
  mmu := Mmu.zero
  run := .running
  currentPc := 0
  ram := []
  history := []
  offers := []
  cfg := cfg
  draws := 0
  ir := none

/-- The machine right after reset, with the parameters of `Config.atReset` (log 2). -/
def State.reset : State := State.resetWith Config.atReset

end Sys2Proof.Machine
end

