-- ==== Sys2Proof/Machine/Ops.lean ====
section
/-! DEFINITION. The named operations every meaning is built from: state updates, registers, the PSW, RAM, the bus, the
MMU, virtual accesses, the stack, trap entry and return. -/

namespace Sys2Proof.Machine

/-! ## Named updates, one per field -/

def State.withBank0 (b : Bank) (s : State) : State := { s with bank0 := b }
def State.withBank1 (b : Bank) (s : State) : State := { s with bank1 := b }
def State.withSpk (v : Word) (s : State) : State := { s with spk := v }
def State.withSps (v : Word) (s : State) : State := { s with sps := v }
def State.withSpu (v : Word) (s : State) : State := { s with spu := v }
def State.withPc (v : Word) (s : State) : State := { s with pcr := v }
def State.withPsw (p : Psw) (s : State) : State := { s with psw := p }
def State.withMmu (m : Mmu) (s : State) : State := { s with mmu := m }
def State.withRun (r : RunState) (s : State) : State := { s with run := r }
def State.withCurrentPc (v : Word) (s : State) : State := { s with currentPc := v }
def State.withRam (m : List Host.Cell) (s : State) : State := { s with ram := m }
def State.withHistory (h : List BusEvent) (s : State) : State := { s with history := h }
def State.withOffers (o : List (Option Offer)) (s : State) : State := { s with offers := o }
def State.withCfg (c : Config) (s : State) : State := { s with cfg := c }
def State.withDraws (k : Nat) (s : State) : State := { s with draws := k }
def State.withIr (w : Option Word) (s : State) : State := { s with ir := w }

/-- The bus history with one more event, in issue order (R70). -/
def State.record (e : BusEvent) (s : State) : State := s.withHistory (s.history ++ [e])

/-- The state after one free value has been drawn (log 8). -/
def State.drawn (s : State) : State := s.withDraws (s.draws + 1)

/-- The annotation of a fatal stop in this step (R402). -/
def State.annotation (s : State) : Annotation := ⟨s.ir, s.currentPc⟩

/-- The annotation of a fatal stop outside any step (R402): no word of a step, and `currentPc` (log 19). -/
def State.hostAnnotation (s : State) : Annotation := ⟨none, s.currentPc⟩

/-! ## Results of an operation inside a step -/

/-- What an operation answers: a value and the state after it; `BusTimeout`, with the state as it stands at the abort,
since nothing is rolled back (R160); or a fatal stop. -/
inductive Res (α : Type) where
  | ok (a : α) (s : State)
  | abort (s : State)
  | fatal (f : Fault)

/-- Sequencing: an abort or a fatal stop ends the sequence where it happens (R403). -/
def Res.bind {α β : Type} (r : Res α) (k : α → State → Res β) : Res β :=
  match r with
  | .ok a s => k a s
  | .abort s => .abort s
  | .fatal f => .fatal f

/-! ## Bits and bytes -/

/-- Bits 7:0 (R154). -/
def lowByte (w : Word) : Byte := w.extractLsb' 0 8

/-- Bits 15:8. -/
def highByte (w : Word) : Byte := w.extractLsb' 8 8

/-- The word with the given high and low byte (R72). -/
def joinBytes (hi lo : Byte) : Word := hi ++ lo

/-- `trunc_16(sext_8(b))` (R172). -/
def signExtendByte (b : Byte) : Word := b.signExtend 16

/-- Bit 0 of a virtual address (R82). -/
def isOdd (va : Word) : Bool := va.getLsbD 0

/-! ## RAM -/

/-- What a RAM byte that nothing has listed reads as. DESIGN CHOICE, unsafe (log 4): the launch contents of RAM are a
parameter (R37, R452). -/
def unlistedByte : Byte := 0

/-- One byte of RAM. -/
def Memory.read (m : List Host.Cell) (a : Nat) : Byte :=
  match m with
  | [] => unlistedByte
  | (b, v) :: rest => if a = b then v else Memory.read rest a

/-- Stores one byte and keeps the canonical form: addresses rising, no byte equal to `unlistedByte` listed. -/
def Memory.write (m : List Host.Cell) (a : Nat) (v : Byte) : List Host.Cell :=
  match m with
  | [] => if v = unlistedByte then [] else [(a, v)]
  | (b, x) :: rest =>
    if a < b then (if v = unlistedByte then (b, x) :: rest else (a, v) :: (b, x) :: rest)
    else if a = b then (if v = unlistedByte then rest else (a, v) :: rest)
    else (b, x) :: Memory.write rest a v

/-- The canonical form of RAM. -/
def Memory.wf : List Host.Cell → Bool
  | [] => true
  | (a, v) :: rest =>
    v != unlistedByte && (match rest with | [] => true | (b, _) :: _ => decide (a < b)) && Memory.wf rest

/-- `RAM[pa] + 256 * RAM[pa + 1]` (R66, R72). -/
def Memory.readWord (m : List Host.Cell) (pa : Nat) : Word := joinBytes (Memory.read m (pa + 1)) (Memory.read m pa)

/-- `RAM[pa] <- v[7:0]; RAM[pa + 1] <- v[15:8]` (R67, R72). -/
def Memory.writeWord (m : List Host.Cell) (pa : Nat) (v : Word) : List Host.Cell :=
  Memory.write (Memory.write m pa (lowByte v)) (pa + 1) (highByte v)

/-! ## The processor status word -/

/-- The 2-bit value of a mode (R29). -/
def Mode.toBits : Mode → BitVec 2
  | .kernel => 0b00
  | .supervisor => 0b01
  | .user => 0b11

/-- The mode of a 2-bit value; 0b10 is not a mode (R29). -/
def Mode.ofBits (b : BitVec 2) : Option Mode :=
  match b.toNat with
  | 0 => some .kernel
  | 1 => some .supervisor
  | 3 => some .user
  | _ => none

/-- `pack(PSW)` (R27): bits 10:8 read as zero. -/
def Psw.pack (p : Psw) : Word :=
  p.cm.toBits ++ p.pm ++ BitVec.ofBool p.rs ++ (0 : BitVec 3) ++ p.pri ++ BitVec.ofBool p.t ++ BitVec.ofBool p.n ++
    BitVec.ofBool p.z ++ BitVec.ofBool p.v ++ BitVec.ofBool p.c

/-- Unpacking (R28): bits 10:8 are dropped, and cm = 0b10 gives no PSW. -/
def Psw.unpack (w : Word) : Option Psw :=
  match Mode.ofBits (w.extractLsb' 14 2) with
  | none => none
  | some m =>
    some { cm := m, pm := w.extractLsb' 12 2, rs := w.getLsbD 11, pri := w.extractLsb' 5 3, t := w.getLsbD 4,
           n := w.getLsbD 3, z := w.getLsbD 2, v := w.getLsbD 1, c := w.getLsbD 0 }

/-- `PSW <- w` (R28): cm = 0b10 stops the machine. -/
def loadPsw (w : Word) (s : State) : Res Unit :=
  match Psw.unpack w with
  | some p => .ok () (s.withPsw p)
  | none => .fatal (.invalidMode s.annotation)

/-! ## Registers -/

/-- The live general-register bank (R22). -/
def State.bank (s : State) : Bank := if s.psw.rs then s.bank1 else s.bank0

/-- Replaces the live bank. -/
def State.withBank (b : Bank) (s : State) : State := if s.psw.rs then s.withBank1 b else s.withBank0 b

/-- The stack pointer of a mode (R22). -/
def State.spOf (s : State) : Mode → Word
  | .kernel => s.spk
  | .supervisor => s.sps
  | .user => s.spu

/-- Writes the stack pointer of a mode (R23). -/
def State.withSpOf (m : Mode) (v : Word) (s : State) : State :=
  match m with
  | .kernel => s.withSpk v
  | .supervisor => s.withSps v
  | .user => s.withSpu v

/-- `R[i]` (R22). -/
def readReg (s : State) : Reg → Word
  | .r0 => s.bank.r0
  | .r1 => s.bank.r1
  | .r2 => s.bank.r2
  | .r3 => s.bank.r3
  | .r4 => s.bank.r4
  | .r5 => s.bank.r5
  | .sp => s.spOf s.psw.cm
  | .pc => s.pcr

/-- `R[i] <- v` (R23): the slot `R[i]` reads, and no other. -/
def writeReg (r : Reg) (v : Word) (s : State) : State :=
  match r with
  | .r0 => s.withBank { s.bank with r0 := v }
  | .r1 => s.withBank { s.bank with r1 := v }
  | .r2 => s.withBank { s.bank with r2 := v }
  | .r3 => s.withBank { s.bank with r3 := v }
  | .r4 => s.withBank { s.bank with r4 := v }
  | .r5 => s.withBank { s.bank with r5 := v }
  | .sp => s.withSpOf s.psw.cm v
  | .pc => s.withPc v

/-- `r AND 6`: the register of a pair that holds the high word (R200). -/
def pairHigh : Reg → Reg
  | .r0 | .r1 => .r0
  | .r2 | .r3 => .r2
  | .r4 | .r5 => .r4
  | .sp | .pc => .sp

/-- `r OR 1`: the register of a pair that holds the low word (R200). -/
def pairLow : Reg → Reg
  | .r0 | .r1 => .r1
  | .r2 | .r3 => .r3
  | .r4 | .r5 => .r5
  | .sp | .pc => .pc

/-! ## The MMU -/

/-- A space an access can translate through (R60): a page-register set, or `Direct`. -/
inductive Space where
  | paged (set : PageSet)
  | direct
deriving DecidableEq, Repr

/-- `tm` (R29): Supervisor has no translation mode. -/
def Mode.space : Mode → Option Space
  | .kernel => some (.paged .kernel)
  | .supervisor => none
  | .user => some (.paged .user)

/-- `cur` (R29). -/
def State.curSpace (s : State) : Option Space := s.psw.cm.space

/-- `prev` (R29): none for Supervisor and for 0b10. -/
def State.prevSpace (s : State) : Option Space :=
  match Mode.ofBits s.psw.pm with
  | some m => m.space
  | none => none

/-- `PAR[set][page]` (R33). -/
def Mmu.par (m : Mmu) (set : PageSet) (page : BitVec 3) : BitVec 12 :=
  match set with
  | .kernel => m.kpar[page.toNat]'(page.isLt)
  | .user => m.upar[page.toNat]'(page.isLt)

/-- `PAR[set][page] <- v`. -/
def Mmu.withPar (m : Mmu) (set : PageSet) (page : BitVec 3) (v : BitVec 12) : Mmu :=
  match set with
  | .kernel => { m with kpar := m.kpar.set page.toNat v page.isLt }
  | .user => { m with upar := m.upar.set page.toNat v page.isLt }

/-- `PDR[set][page]` (R33). -/
def Mmu.pdr (m : Mmu) (set : PageSet) (page : BitVec 3) : Word :=
  match set with
  | .kernel => m.kpdr[page.toNat]'(page.isLt)
  | .user => m.updr[page.toNat]'(page.isLt)

/-- `PDR[set][page] <- v`. -/
def Mmu.withPdr (m : Mmu) (set : PageSet) (page : BitVec 3) (v : Word) : Mmu :=
  match set with
  | .kernel => { m with kpdr := m.kpdr.set page.toNat v page.isLt }
  | .user => { m with updr := m.updr.set page.toNat v page.isLt }

/-- `Translate(va, m)` (R73-R76): never faults, and the sum is not truncated. -/
def State.translate (s : State) (sp : Space) (va : Word) : Nat :=
  match sp with
  | .direct => va.toNat
  | .paged set =>
    if s.mmu.enabled then (s.mmu.par set (va.extractLsb' 13 3)).toNat * 64 + (va.extractLsb' 0 13).toNat
    else if va.toNat < 0o160000 then va.toNat
    else va.toNat ||| 0o600000

/-- The registers of the MMU control window (R84). -/
inductive MmuReg where
  | sr0
  | sr1
  | sr2
  | pdr (set : PageSet) (page : BitVec 3)
  | par (set : PageSet) (page : BitVec 3)
deriving DecidableEq, Repr

/-- The page whose register is at `pa` in a window of eight words from `base`. -/
def pageAt (base pa : Nat) : Option (BitVec 3) :=
  if base ≤ pa ∧ pa < base + 16 ∧ (pa - base) % 2 = 0 then some (BitVec.ofNat 3 ((pa - base) / 2)) else none

/-- `MMU_WINDOW` (R84): the register at a physical address, if the MMU claims it. -/
def mmuRegAt (pa : Nat) : Option MmuReg :=
  if pa = 0o777572 then some .sr0
  else if pa = 0o777574 then some .sr1
  else if pa = 0o777576 then some .sr2
  else ((((pageAt 0o772300 pa).map (.pdr .kernel)).or ((pageAt 0o772340 pa).map (.par .kernel))).or
    ((pageAt 0o777600 pa).map (.pdr .user))).or ((pageAt 0o777640 pa).map (.par .user))

/-- The value an SR0 read returns (R86): bit 0 is `mmuEnabled`, bits 15:1 are a free value (log 8). -/
def sr0Value (s : State) : Word :=
  ((Config.freeWord s.draws).extractLsb' 1 15 ++ BitVec.ofBool s.mmu.enabled : BitVec (15 + 1))

/-- `MmuRead(pa)` (R85-R89). -/
def mmuRead (r : MmuReg) (s : State) : Res Word :=
  match r with
  | .sr0 => .ok (sr0Value s) s.drawn
  | .sr1 => .ok 0 s
  | .sr2 => .ok 0 s
  | .pdr set page => .ok (s.mmu.pdr set page) s
  | .par set page => .ok ((s.mmu.par set page).setWidth 16) s

/-- `MmuWrite(pa, v)` (R85-R89). -/
def mmuWrite (r : MmuReg) (v : Word) (s : State) : State :=
  match r with
  | .sr0 => s.withMmu { s.mmu with enabled := v.getLsbD 0 }
  | .sr1 => s
  | .sr2 => s
  | .pdr set page => s.withMmu (s.mmu.withPdr set page v)
  | .par set page => s.withMmu (s.mmu.withPar set page (v.extractLsb' 0 12))

/-! ## The bus -/

/-- The physical address of the PSW word when `PSW_MAPPED` (R90). -/
def pswAddress : Nat := 0o777776

/-- `PswWrite(v)` (R90): unpacks `v`, except that T keeps its value. -/
def pswWrite (v : Word) (s : State) : Res Unit :=
  match Psw.unpack v with
  | some p => .ok () (s.withPsw { p with t := s.psw.t })
  | none => .fatal (.invalidMode s.annotation)

/-- `DeviceRead(pa)` (R68): a free word (log 8), recorded. -/
def deviceRead (pa : Nat) (s : State) : Res Word :=
  .ok (Config.freeWord s.draws) (s.drawn.record (.deviceRead pa (Config.freeWord s.draws)))

/-- `DeviceWrite(pa, v)` (R68): recorded; no core state changes. -/
def deviceWrite (pa : Nat) (v : Word) (s : State) : State := s.record (.deviceWrite pa v)

/-- `BusFault(pa)` (R69): below `IO_BASE` the recoverable bus timeout, at or above it the fatal bus error. -/
def busFault {α : Type} (pa : Nat) (s : State) : Res α :=
  if pa < Config.ioBase then .abort s else .fatal (.busError s.annotation)

/-- `BusRead16(pa)`, `pa` even (R64-R66). -/
def busRead (pa : Nat) (s : State) : Res Word :=
  if pa < s.cfg.ramSize then .ok (Memory.readWord s.ram pa) s
  else
    match mmuRegAt pa with
    | some r => mmuRead r s
    | none =>
      if s.cfg.pswMapped ∧ pa = pswAddress then .ok s.psw.pack s
      else if pa ∈ s.cfg.deviceClaims then deviceRead pa s
      else busFault pa s

/-- `BusWrite16(pa, v)`, `pa` even (R64, R65, R67). The answer says whether the PSW word was written, which makes the
instruction skip its own flag update (R90, R158, log 13). -/
def busWrite (pa : Nat) (v : Word) (s : State) : Res Bool :=
  if pa < s.cfg.ramSize then .ok false (s.withRam (Memory.writeWord s.ram pa v))
  else
    match mmuRegAt pa with
    | some r => .ok false (mmuWrite r v s)
    | none =>
      if s.cfg.pswMapped ∧ pa = pswAddress then (pswWrite v s).bind fun _ s => .ok true s
      else if pa ∈ s.cfg.deviceClaims then .ok false (deviceWrite pa v s)
      else busFault pa s

/-! ## Virtual accesses -/

/-- `MemRead(va, 2, m)` (R80): the alignment check comes before translation (R82); a mode without translation is
fatal (R77). -/
def memReadWord (va : Word) (m : Option Space) (s : State) : Res Word :=
  if isOdd va then .fatal (.oddAddress s.annotation)
  else
    match m with
    | none => .fatal (.invalidMode s.annotation)
    | some sp => busRead (s.translate sp va) s

/-- The even physical address of the word that holds the byte at `pa` (R80, R81). -/
def evenPa (pa : Nat) : Nat := pa - pa % 2

/-- `MemRead(va, 1, m)` (R80). -/
def memReadByte (va : Word) (m : Option Space) (s : State) : Res Byte :=
  match m with
  | none => .fatal (.invalidMode s.annotation)
  | some sp =>
    let pa := s.translate sp va
    (busRead (evenPa pa) s).bind fun w s => .ok (if pa % 2 = 0 then lowByte w else highByte w) s

/-- `MemWrite(va, 2, v, m)` (R81). The answer is that of `busWrite`. -/
def memWriteWord (va : Word) (v : Word) (m : Option Space) (s : State) : Res Bool :=
  if isOdd va then .fatal (.oddAddress s.annotation)
  else
    match m with
    | none => .fatal (.invalidMode s.annotation)
    | some sp => busWrite (s.translate sp va) v s

/-- The word `w` with the byte at an even or an odd address replaced (R81). -/
def mergeByte (pa : Nat) (v : Byte) (w : Word) : Word :=
  if pa % 2 = 0 then joinBytes (highByte w) v else joinBytes v (lowByte w)

/-- `MemWrite(va, 1, v, m)` (R81): one bus read, the merge, one bus write. -/
def memWriteByte (va : Word) (v : Byte) (m : Option Space) (s : State) : Res Bool :=
  match m with
  | none => .fatal (.invalidMode s.annotation)
  | some sp =>
    let pa := s.translate sp va
    (busRead (evenPa pa) s).bind fun w s => busWrite (evenPa pa) (mergeByte pa v w) s

/-- `FetchWord()` (R141): PC advances only when the read succeeds. -/
def fetchWord (s : State) : Res Word :=
  (memReadWord s.pcr s.curSpace s).bind fun w s => .ok w (s.withPc (s.pcr + 2))

/-! ## The stack (R156) -/

/-- `Push(v)`: `SP <- SP - 2; MemWrite(SP, 2, v, cur)`. -/
def push (v : Word) (s : State) : Res Bool :=
  let s := writeReg .sp (readReg s .sp - 2) s
  memWriteWord (readReg s .sp) v s.curSpace s

/-- `Pop()`: `a <- SP; SP <- a + 2; return MemRead(a, 2, cur)`. -/
def pop (s : State) : Res Word :=
  let a := readReg s .sp
  let s := writeReg .sp (a + 2) s
  memReadWord a s.curSpace s

/-! ## Taking a trap, and returning -/

/-- The sequence of R404, before what R406 makes of a bus timeout in it. -/
def trapSequence (vec : Word) (s : State) : Res Unit :=
  let oldPsw := s.psw.pack
  let oldPc := s.pcr
  let oldCm := s.psw.cm
  (memReadWord vec (some .direct) s).bind fun newPc s =>
  (memReadWord (vec + 2) (some .direct) s).bind fun newPsw s =>
  (loadPsw newPsw s).bind fun _ s =>
  (push oldPsw (s.withPsw { s.psw with pm := oldCm.toBits })).bind fun _ s =>
  (push oldPc s).bind fun _ s =>
  .ok () (s.withPc newPc)

/-- `TrapEntry(vec)` (R404-R406): a bus timeout inside it is `fatal DoubleFault`. -/
def trapEntry (vec : Word) (s : State) : Res Unit :=
  match trapSequence vec s with
  | .ok _ s' => .ok () s'
  | .abort _ => .fatal (.doubleFault s.annotation)
  | .fatal f => .fatal f

/-- The bus-timeout vector (R6, R92). -/
def busTimeoutVector : Word := 0o4

/-- The return of RTT and RTI (R304): PC popped and loaded, then PSW popped and loaded, both with the old mode's SP. -/
def returnFromTrap (s : State) : Res Unit :=
  (pop s).bind fun newPc s =>
  (pop (s.withPc newPc)).bind fun newPsw s =>
  loadPsw newPsw s

/-- The end of a step's work (R140): the next state, the bus-timeout trap taken in the same step (R403), or the
fatal stop. -/
def complete (r : Res Unit) : Host.Outcome State Fault Refusal :=
  match r with
  | .ok _ s => .next s
  | .abort s =>
    match trapEntry busTimeoutVector s with
    | .ok _ s' => .next s'
    | .abort _ => .fault (.doubleFault s.annotation)
    | .fatal f => .fault f
  | .fatal f => .fault f

end Sys2Proof.Machine
end

