-- ==== Sys2Proof/Machine/Boundary.lean ====
section
/-! DEFINITION. The parts of a step around the instruction (40_step_and_operands.md R140-R142): the boundary's offer,
interrupt entry, fetch and decode, and placing an instruction where the step fetches. -/

namespace Sys2Proof.Machine

/-- The host's offer at this boundary (R410). -/
def State.offer (s : State) : Option Offer := s.offers.head?.getD none

/-- The state once the boundary's offer has been considered: an offer not accepted is gone (R411), and no word of this
step has been fetched (R402). -/
def State.beginStep (s : State) : State := (s.withOffers s.offers.tail).withIr none

/-- Acceptance (R411): `level > PSW.pri`. -/
def accepts (s : State) (o : Offer) : Bool := s.psw.pri.ult o.level

/-- The offer a step takes, if any (R140, R411). -/
def State.acceptedOffer (s : State) : Option Offer :=
  match s.offer with
  | some o => if accepts s o then some o else none
  | none => none

/-- `InterruptEntry(level, vector)` (R412): a step of its own. -/
def interruptEntry (o : Offer) (s : State) : Host.Outcome State Fault Refusal :=
  complete (trapEntry o.vector (s.withRun .running))

/-- The fetch of a step (R140, R141): `currentPc <- PC`, then the instruction word, kept for R402. -/
def fetchInstr (s : State) : Res Word :=
  (fetchWord (s.withCurrentPc s.pcr)).bind fun w s => .ok w (s.withIr (some w))

/-- The space and physical address the next fetch uses, when that is an even RAM address. -/
def State.fetchable (s : State) : Bool :=
  match s.curSpace with
  | some sp => !isOdd s.pcr && decide (s.translate sp s.pcr < s.cfg.ramSize)
  | none => false

/-- Stores one word at the place a fetch from virtual address `va` reads, if that is RAM. -/
def placeWord (va : Word) (v : Word) (s : State) : State :=
  match s.curSpace with
  | some sp =>
    let pa := s.translate sp va
    if pa < s.cfg.ramSize then s.withRam (Memory.writeWord s.ram pa v) else s
  | none => s

/-- A state whose next step fetches: Running, no offer at this boundary, T clear; when PC is not at an even RAM
address, Kernel mode, the MMU off and PC 0, as after reset (log 15). -/
def State.readyToFetch (s : State) : State :=
  let s := ((s.withRun .running).withOffers (s.offers.set 0 none)).withPsw { s.psw with t := false }
  if s.fetchable then s
  else ((s.withPsw { s.psw with cm := .kernel }).withMmu { s.mmu with enabled := false }).withPc 0

/-- `s` under the profile that has the word: its own, or EXT when only EXT has a row for it (R5, log 3). -/
def State.withProfileFor (w : Word) (s : State) : State :=
  match decodeWord w with
  | some i => if i.inProfile s.cfg.profile then s else s.withCfg { s.cfg with profile := .ext }
  | none => s

/-- The word of an instruction and two extension words of its bits above, stored where the step fetches (log 15), under
a profile that has the instruction (log 3). -/
def placeInstr (nbits w : Nat) (s : State) : State :=
  let x := w % 2 ^ nbits
  let s := s.readyToFetch.withProfileFor (BitVec.ofNat 16 x)
  placeWord s.pcr (BitVec.ofNat 16 x)
    (placeWord (s.pcr + 2) (BitVec.ofNat 16 (x / 2 ^ 16)) (placeWord (s.pcr + 4) (BitVec.ofNat 16 (x / 2 ^ 32)) s))

end Sys2Proof.Machine
end

