-- ==== Sys2Proof/Machine/Flags.lean ====
section
/-! DEFINITION. The flag computations, each for words and bytes at once (`w` is the operand width W of R170), and the
combining functions of BIS (R178) and DIV (R201). -/

namespace Sys2Proof.Machine

/-- A flags delta (R158): the new value of each flag, none where the rule says unchanged (R30). -/
structure FlagUpdate where
  n : Option Bool := none
  z : Option Bool := none
  v : Option Bool := none
  c : Option Bool := none
deriving DecidableEq, Repr

/-- Writes the flags a delta names; every other PSW field keeps its value (R30). -/
def State.applyFlags (u : FlagUpdate) (s : State) : State :=
  s.withPsw { s.psw with n := u.n.getD s.psw.n, z := u.z.getD s.psw.z, v := u.v.getD s.psw.v, c := u.c.getD s.psw.c }

/-- The flag update at completion (R158): none when the instruction's store wrote the PSW word (R90). -/
def State.finishFlags (wrotePsw : Bool) (u : FlagUpdate) (s : State) : State :=
  if wrotePsw then s else s.applyFlags u

/-- N and Z of the result, V = 0, C unchanged: MOV, BIT, BIC, XOR, MFPI, MTPI (R171, R175, R177, R307, R308, R352). -/
def flagsLogic {w : Nat} (r : BitVec w) : FlagUpdate :=
  { n := some r.msb, z := some (r == 0), v := some false }

/-- `bisop(s, d)` (R178): the value written and the value the flags are taken from. -/
def bisop {w : Nat} (m : BisMode) (s d : BitVec w) : BitVec w × BitVec w :=
  match m with
  | .xor => (s ^^^ d, s ^^^ d)
  | .or => (s ||| d, s ||| d)
  | .orValueXorFlags => (s ||| d, s ^^^ d)

/-- CMP and CMPB (R173, R174): source minus destination. -/
def flagsCmp {w : Nat} (s d : BitVec w) : FlagUpdate :=
  let r := s - d
  { n := some r.msb, z := some (r == 0), v := some (s.msb != d.msb && r.msb != s.msb),
    c := some (decide (s.toNat < d.toNat)) }

/-- ADD (R182): C is the carry of the exact sum. -/
def flagsAdd {w : Nat} (s d : BitVec w) : FlagUpdate :=
  let r := d + s
  { n := some r.msb, z := some (r == 0), v := some (s.msb == d.msb && r.msb != s.msb),
    c := some (decide (2 ^ w ≤ s.toNat + d.toNat)) }

/-- SUB (R183): destination minus source, C is the borrow. -/
def flagsSub {w : Nat} (s d : BitVec w) : FlagUpdate :=
  let r := d - s
  { n := some r.msb, z := some (r == 0), v := some (s.msb != d.msb && r.msb == s.msb),
    c := some (decide (d.toNat < s.toNat)) }

/-- CLR and CLRB (R271, R272). -/
def flagsClear : FlagUpdate := { n := some false, z := some true, v := some false, c := some false }

/-- TST and TSTB (R275, R276). -/
def flagsTest {w : Nat} (d : BitVec w) : FlagUpdate :=
  { n := some d.msb, z := some (d == 0), v := some false, c := some false }

/-- INC and INCB (R273, R274): V when the operand is the largest positive value; C unchanged. -/
def flagsInc {w : Nat} (d : BitVec w) : FlagUpdate :=
  let r := d + 1
  { n := some r.msb, z := some (r == 0), v := some (decide (d.toNat = 2 ^ (w - 1) - 1)) }

/-- DEC and DECB (R335, R336): V when the operand is the most negative value; C unchanged. -/
def flagsDec {w : Nat} (d : BitVec w) : FlagUpdate :=
  let r := d - 1
  { n := some r.msb, z := some (r == 0), v := some (decide (d.toNat = 2 ^ (w - 1))) }

/-- COM and COMB (R331, R332). -/
def flagsCom {w : Nat} (r : BitVec w) : FlagUpdate :=
  { n := some r.msb, z := some (r == 0), v := some false, c := some true }

/-- NEG and NEGB (R333, R334). -/
def flagsNeg {w : Nat} (r : BitVec w) : FlagUpdate :=
  { n := some r.msb, z := some (r == 0), v := some (decide (r.toNat = 2 ^ (w - 1))), c := some (r != 0) }

/-- The carry as a number of width `w`. -/
def carryIn (w : Nat) (c : Bool) : BitVec w := (BitVec.ofBool c).setWidth w

/-- ADC and ADCB (R337, R338), `c` the old C. -/
def flagsAdc {w : Nat} (d : BitVec w) (c : Bool) : FlagUpdate :=
  let r := d + carryIn w c
  { n := some r.msb, z := some (r == 0), v := some (decide (d.toNat = 2 ^ (w - 1) - 1) && c),
    c := some (decide (d.toNat = 2 ^ w - 1) && c) }

/-- SBC and SBCB (R339, R340), `c` the old C. -/
def flagsSbc {w : Nat} (d : BitVec w) (c : Bool) : FlagUpdate :=
  let r := d - carryIn w c
  { n := some r.msb, z := some (r == 0), v := some (decide (d.toNat = 2 ^ (w - 1)) && c),
    c := some (decide (d.toNat = 0) && c) }

/-- The flags of a shift or rotate by one place: C is the bit shifted out, V = N XOR C (R279, R341-R347). -/
def flagsShift {w : Nat} (r : BitVec w) (out : Bool) : FlagUpdate :=
  { n := some r.msb, z := some (r == 0), v := some (r.msb != out), c := some out }

/-- ROR and RORB (R341, R342): `(c << W-1) OR (d >> 1)`. -/
def rotateRight {w : Nat} (d : BitVec w) (c : Bool) : BitVec w := (carryIn w c <<< (w - 1)) ||| (d >>> 1)

/-- ROL and ROLB (R343, R344): `(d << 1) OR c`. -/
def rotateLeft {w : Nat} (d : BitVec w) (c : Bool) : BitVec w := (d <<< 1) ||| carryIn w c

/-- SWAB (R277): N and Z from the new low byte. -/
def flagsSwab (r : Word) : FlagUpdate :=
  { n := some (lowByte r).msb, z := some (lowByte r == 0), v := some false, c := some false }

/-- SWAB (R277): the bytes exchanged. -/
def swapBytes (d : Word) : Word := joinBytes (lowByte d) (highByte d)

/-- SXT (R278): the N flag replicated. -/
def signWord (n : Bool) : Word := if n then 0xFFFF else 0

/-- SXT (R278): N and C unchanged. -/
def flagsSxt (r : Word) : FlagUpdate := { z := some (r == 0), v := some false }

/-- The product of MUL (R202), exact. -/
def mulProduct (x s : Word) : Int := x.toInt * s.toInt

/-- MUL (R202). -/
def flagsMul (p : Int) : FlagUpdate :=
  { n := some (decide (p < 0)), z := some (decide (p = 0)), v := some false,
    c := some (decide (p < -32768) || decide (32767 < p)) }

/-- `qdiv(a, b)`, `b` not 0 (R201): quotient and remainder by `DIV_ROUNDING`. -/
def qdiv (m : DivRounding) (a b : Int) : Int × Int :=
  match m with
  | .trunc => (a.tdiv b, a.tmod b)
  | .floor => (a.fdiv b, a.fmod b)

/-- DIV, divide by zero (R203). -/
def flagsDivZero : FlagUpdate := { n := some false, z := some true, v := some true, c := some true }

/-- DIV, overflow (R203): N is a free bit, given here (log 8). -/
def flagsDivOverflow (n : Bool) : FlagUpdate := { n := some n, z := some false, v := some true, c := some false }

/-- DIV, otherwise (R203): N and Z from the quotient. -/
def flagsDiv (q : Int) : FlagUpdate :=
  { n := some (decide (q < 0)), z := some (decide (q = 0)), v := some false, c := some false }

/-- A quotient that fits a signed 16-bit word (R203). -/
def quotientFits (q : Int) : Bool := decide (-32768 ≤ q) && decide (q ≤ 32767)

/-- What a multiple shift gives: the result and the C flag. -/
structure Shifted (w : Nat) where
  res : BitVec w
  c : Bool
deriving DecidableEq, Repr

/-- ASH and ASHC (R204, R353), `w` the width shifted and `k` the count. Left, `k` in 0..31: `x * 2^k` exactly, C its bit
`w`. Right, `k` in 32..63: `64 - k` places clamped to `w`, sign extending, C the last bit shifted out. -/
def shiftBy {w : Nat} (x : BitVec w) (k : BitVec 6) : Shifted w :=
  if k.getLsbD 5 then
    let e := min (64 - k.toNat) w
    { res := BitVec.ofInt w (x.toInt / 2 ^ e), c := (BitVec.ofInt (2 * w) x.toInt).getLsbD (e - 1) }
  else
    let t := x.toNat * 2 ^ k.toNat
    { res := BitVec.ofNat w t, c := t.testBit w }

/-- ASH and ASHC (R204, R353): V when the sign changes. -/
def flagsShiftBy {w : Nat} (x : BitVec w) (y : Shifted w) : FlagUpdate :=
  { n := some y.res.msb, z := some (y.res == 0), v := some (x.msb != y.res.msb), c := some y.c }

/-- CCC and SCC (R356, R357): the flags whose mask bit is 1 take the value `b`, the others are unchanged. -/
def flagsMask (mask : BitVec 4) (b : Bool) : FlagUpdate where
  n := if mask.getLsbD 3 then some b else none
  z := if mask.getLsbD 2 then some b else none
  v := if mask.getLsbD 1 then some b else none
  c := if mask.getLsbD 0 then some b else none

end Sys2Proof.Machine
end

