-- ==== Sys2Proof/Machine/Operands.lean ====
section
/-! DEFINITION. Operand resolution in the eight modes (40_step_and_operands.md R144-R155), loads and stores, the jump
target, and the access patterns of R159 that the meanings share. -/

namespace Sys2Proof.Machine

/-- The operand size `n` of R144: 1 or 2. -/
inductive Size where
  | byte
  | word
deriving DecidableEq, Repr

/-- A location (R144). -/
inductive Loc where
  | reg (r : Reg)
  | mem (va : Word)
deriving DecidableEq, Repr

/-- `step(reg, n)` (R153): 2 for a word; for a byte 1, but 2 for SP and PC. -/
def stepOf (r : Reg) (n : Size) : Word :=
  match n with
  | .word => 2
  | .byte =>
    match r with
    | .r0 | .r1 | .r2 | .r3 | .r4 | .r5 => 1
    | .sp | .pc => 2

/-- `Resolve(spec, n)` (R144-R152). The register step is applied here, before the operand is accessed (R155). -/
def resolve (o : Operand) (n : Size) (s : State) : Res Loc :=
  match o.mode with
  | .register => .ok (.reg o.reg) s
  | .deferred => .ok (.mem (readReg s o.reg)) s
  | .autoInc =>
    let a := readReg s o.reg
    .ok (.mem a) (writeReg o.reg (a + stepOf o.reg n) s)
  | .autoIncDeferred =>
    let p := readReg s o.reg
    let s := writeReg o.reg (p + 2) s
    (memReadWord p s.curSpace s).bind fun a s => .ok (.mem a) s
  | .autoDec =>
    let s := writeReg o.reg (readReg s o.reg - stepOf o.reg n) s
    .ok (.mem (readReg s o.reg)) s
  | .autoDecDeferred =>
    let s := writeReg o.reg (readReg s o.reg - 2) s
    (memReadWord (readReg s o.reg) s.curSpace s).bind fun a s => .ok (.mem a) s
  | .index => (fetchWord s).bind fun x s => .ok (.mem (readReg s o.reg + x)) s
  | .indexDeferred =>
    (fetchWord s).bind fun x s =>
    (memReadWord (readReg s o.reg + x) s.curSpace s).bind fun a s => .ok (.mem a) s

/-- `Load(loc, 2)` (R144). -/
def loadWord (l : Loc) (s : State) : Res Word :=
  match l with
  | .reg r => .ok (readReg s r) s
  | .mem va => memReadWord va s.curSpace s

/-- `Load(loc, 1)` (R144, R154): of a register, bits 7:0. -/
def loadByte (l : Loc) (s : State) : Res Byte :=
  match l with
  | .reg r => .ok (lowByte (readReg s r)) s
  | .mem va => memReadByte va s.curSpace s

/-- `Store(loc, 2, v)` (R144). The answer says whether the PSW word was written (R90). -/
def storeWord (l : Loc) (v : Word) (s : State) : Res Bool :=
  match l with
  | .reg r => .ok false (writeReg r v s)
  | .mem va => memWriteWord va v s.curSpace s

/-- `Store(loc, 1, v)` (R144, R154): a register keeps its bits 15:8. -/
def storeByte (l : Loc) (v : Byte) (s : State) : Res Bool :=
  match l with
  | .reg r => .ok false (writeReg r (joinBytes (highByte (readReg s r)) v) s)
  | .mem va => memWriteByte va v s.curSpace s

/-- MOVB's store (R172): a register takes the sign-extended byte. -/
def storeByteExtended (l : Loc) (v : Byte) (s : State) : Res Bool :=
  match l with
  | .reg r => .ok false (writeReg r (signExtendByte v) s)
  | .mem va => memWriteByte va v s.curSpace s

/-- `EA(dd)` (R250): the mode check comes before the specifier is resolved. -/
def jumpTarget (dd : Operand) (s : State) : Res Word :=
  if dd.mode.isJumpTarget then
    (resolve dd .word s).bind fun l s =>
      match l with
      | .mem va => .ok va s
      | .reg _ => .fatal (.illegalAddressingMode s.annotation)
  else .fatal (.illegalAddressingMode s.annotation)

/-! ## Access patterns (R157, R159): each instruction gives the function computed and its flags -/

/-- A word source operand, read in full (R157). -/
def sourceWord (ss : Operand) (s : State) : Res Word := (resolve ss .word s).bind loadWord

/-- A byte source operand, read in full (R157). -/
def sourceByte (ss : Operand) (s : State) : Res Byte := (resolve ss .byte s).bind loadByte

/-- Pattern R, word: resolved and read, never written. -/
def testWord (dd : Operand) (f : Word → FlagUpdate) (s : State) : Res Unit :=
  (sourceWord dd s).bind fun d s => .ok () (s.applyFlags (f d))

/-- Pattern R, byte. -/
def testByte (dd : Operand) (f : Byte → FlagUpdate) (s : State) : Res Unit :=
  (sourceByte dd s).bind fun d s => .ok () (s.applyFlags (f d))

/-- Pattern W, word: resolved and written, never read. -/
def putWord (dd : Operand) (v : Word) (u : FlagUpdate) (s : State) : Res Unit :=
  (resolve dd .word s).bind fun l s => (storeWord l v s).bind fun wrote s => .ok () (s.finishFlags wrote u)

/-- Pattern W, byte. -/
def putByte (dd : Operand) (v : Byte) (u : FlagUpdate) (s : State) : Res Unit :=
  (resolve dd .byte s).bind fun l s => (storeByte l v s).bind fun wrote s => .ok () (s.finishFlags wrote u)

/-- Pattern W of MOVB. -/
def putByteExtended (dd : Operand) (v : Byte) (u : FlagUpdate) (s : State) : Res Unit :=
  (resolve dd .byte s).bind fun l s => (storeByteExtended l v s).bind fun wrote s => .ok () (s.finishFlags wrote u)

/-- Pattern RMW, word: resolved once, read, and written at the same location; `f` gives the result and the flags. -/
def modifyWord (dd : Operand) (f : Word → Word × FlagUpdate) (s : State) : Res Unit :=
  (resolve dd .word s).bind fun l s =>
  (loadWord l s).bind fun d s =>
  (storeWord l (f d).1 s).bind fun wrote s => .ok () (s.finishFlags wrote (f d).2)

/-- Pattern RMW, byte. -/
def modifyByte (dd : Operand) (f : Byte → Byte × FlagUpdate) (s : State) : Res Unit :=
  (resolve dd .byte s).bind fun l s =>
  (loadByte l s).bind fun d s =>
  (storeByte l (f d).1 s).bind fun wrote s => .ok () (s.finishFlags wrote (f d).2)

/-! ## The previous space (R305, R306) -/

/-- `RP[i]` (R306): R6 is the stack pointer of PSW.pm, every other register is `R[i]`; pm = 0b10 stops the machine
(log 14). -/
def readPrevReg (r : Reg) (s : State) : Res Word :=
  match Mode.ofBits s.psw.pm with
  | none => .fatal (.invalidMode s.annotation)
  | some m =>
    match r with
    | .sp => .ok (s.spOf m) s
    | .r0 | .r1 | .r2 | .r3 | .r4 | .r5 | .pc => .ok (readReg s r) s

/-- `RP[i] <- v` (R306). -/
def writePrevReg (r : Reg) (v : Word) (s : State) : Res Bool :=
  match Mode.ofBits s.psw.pm with
  | none => .fatal (.invalidMode s.annotation)
  | some m =>
    match r with
    | .sp => .ok false (s.withSpOf m v)
    | .r0 | .r1 | .r2 | .r3 | .r4 | .r5 | .pc => .ok false (writeReg r v s)

/-- The operand of MFPI (R305, R307): the address in the current space, the word in the previous one. -/
def loadPrev (l : Loc) (s : State) : Res Word :=
  match l with
  | .reg r => readPrevReg r s
  | .mem va => memReadWord va s.prevSpace s

/-- The operand of MTPI (R305, R308). -/
def storePrev (l : Loc) (v : Word) (s : State) : Res Bool :=
  match l with
  | .reg r => writePrevReg r v s
  | .mem va => memWriteWord va v s.prevSpace s

/-- MFPI and MFPD (R307, R358). -/
def moveFromPrevious (ss : Operand) (s : State) : Res Unit :=
  (resolve ss .word s).bind fun l s =>
  (loadPrev l s).bind fun v s =>
  (push v s).bind fun wrote s => .ok () (s.finishFlags wrote (flagsLogic v))

/-- MTPI and MTPD (R308, R359): the pop comes before the destination is resolved. -/
def moveToPrevious (dd : Operand) (s : State) : Res Unit :=
  (pop s).bind fun v s =>
  (resolve dd .word s).bind fun l s =>
  (storePrev l v s).bind fun wrote s => .ok () (s.finishFlags wrote (flagsLogic v))

end Sys2Proof.Machine
end

