-- ==== Sys2Proof/Machine/Branches.lean ====
section
/-! DEFINITION. The branches (43_branches.md R220-R231; 47_extension_profile.md R348-R351) and SOB (R232). PC is the
address after the branch word: the fetch has advanced it. -/

namespace Sys2Proof.Machine

/-- `Branch(cond)` (R220, R113). -/
def branch (cond : Bool) (offset : BitVec 8) (s : State) : State :=
  if cond then s.withPc (s.pcr + offset.signExtend 16 * 2) else s

/-- BR (R221): branch always. -/
def execBr (offset : BitVec 8) (s : State) : Host.Outcome State Fault Refusal :=
  complete (.ok () (branch true offset s))

/-- BNE (R222): Z = 0. -/
def execBne (offset : BitVec 8) (s : State) : Host.Outcome State Fault Refusal :=
  complete (.ok () (branch (!s.psw.z) offset s))

/-- BEQ (R223): Z = 1. -/
def execBeq (offset : BitVec 8) (s : State) : Host.Outcome State Fault Refusal :=
  complete (.ok () (branch s.psw.z offset s))

/-- BGE (R224): N = V. -/
def execBge (offset : BitVec 8) (s : State) : Host.Outcome State Fault Refusal :=
  complete (.ok () (branch (s.psw.n == s.psw.v) offset s))

/-- BLT (R225): N XOR V = 1. -/
def execBlt (offset : BitVec 8) (s : State) : Host.Outcome State Fault Refusal :=
  complete (.ok () (branch (s.psw.n != s.psw.v) offset s))

/-- BGT (R226): Z = 0 and N = V. -/
def execBgt (offset : BitVec 8) (s : State) : Host.Outcome State Fault Refusal :=
  complete (.ok () (branch (!s.psw.z && s.psw.n == s.psw.v) offset s))

/-- BPL (R227): N = 0. -/
def execBpl (offset : BitVec 8) (s : State) : Host.Outcome State Fault Refusal :=
  complete (.ok () (branch (!s.psw.n) offset s))

/-- BHI (R228): C = 0 and Z = 0. -/
def execBhi (offset : BitVec 8) (s : State) : Host.Outcome State Fault Refusal :=
  complete (.ok () (branch (!s.psw.c && !s.psw.z) offset s))

/-- BLOS (R229): C = 1 or Z = 1. -/
def execBlos (offset : BitVec 8) (s : State) : Host.Outcome State Fault Refusal :=
  complete (.ok () (branch (s.psw.c || s.psw.z) offset s))

/-- BCC (R230): C = 0. -/
def execBcc (offset : BitVec 8) (s : State) : Host.Outcome State Fault Refusal :=
  complete (.ok () (branch (!s.psw.c) offset s))

/-- BCS (R231): C = 1. -/
def execBcs (offset : BitVec 8) (s : State) : Host.Outcome State Fault Refusal :=
  complete (.ok () (branch s.psw.c offset s))

/-- BLE (R348): Z = 1 or N XOR V = 1. -/
def execBle (offset : BitVec 8) (s : State) : Host.Outcome State Fault Refusal :=
  complete (.ok () (branch (s.psw.z || s.psw.n != s.psw.v) offset s))

/-- BMI (R349): N = 1. -/
def execBmi (offset : BitVec 8) (s : State) : Host.Outcome State Fault Refusal :=
  complete (.ok () (branch s.psw.n offset s))

/-- BVC (R350): V = 0. -/
def execBvc (offset : BitVec 8) (s : State) : Host.Outcome State Fault Refusal :=
  complete (.ok () (branch (!s.psw.v) offset s))

/-- BVS (R351): V = 1. -/
def execBvs (offset : BitVec 8) (s : State) : Host.Outcome State Fault Refusal :=
  complete (.ok () (branch s.psw.v offset s))

/-- SOB (R232, R114): the decremented register is read again, so R7 is tested as the PC it has become. -/
def execSob (r : Reg) (nn : BitVec 6) (s : State) : Host.Outcome State Fault Refusal :=
  let s := writeReg r (readReg s r - 1) s
  complete (.ok () (if readReg s r = 0 then s else s.withPc (s.pcr - nn.setWidth 16 * 2)))

end Sys2Proof.Machine
end

