-- ==== Sys2Proof/Machine/DoubleOperand.lean ====
section
/-! DEFINITION. The double-operand instructions (41_double_operand.md R170-R183): the source is read in full before the
destination is resolved. -/

namespace Sys2Proof.Machine

/-- MOV (R171), pattern W. -/
def execMov (src dst : Operand) (s : State) : Host.Outcome State Fault Refusal :=
  complete ((sourceWord src s).bind fun x s => putWord dst x (flagsLogic x) s)

/-- MOVB (R172), pattern W; a register takes the sign-extended byte. -/
def execMovb (src dst : Operand) (s : State) : Host.Outcome State Fault Refusal :=
  complete ((sourceByte src s).bind fun x s => putByteExtended dst x (flagsLogic x) s)

/-- CMP (R173), pattern R. -/
def execCmp (src dst : Operand) (s : State) : Host.Outcome State Fault Refusal :=
  complete ((sourceWord src s).bind fun x s => testWord dst (fun d => flagsCmp x d) s)

/-- CMPB (R174), pattern R. -/
def execCmpb (src dst : Operand) (s : State) : Host.Outcome State Fault Refusal :=
  complete ((sourceByte src s).bind fun x s => testByte dst (fun d => flagsCmp x d) s)

/-- BIT (R175), pattern R. -/
def execBit (src dst : Operand) (s : State) : Host.Outcome State Fault Refusal :=
  complete ((sourceWord src s).bind fun x s => testWord dst (fun d => flagsLogic (x &&& d)) s)

/-- BITB (R176), pattern R. -/
def execBitb (src dst : Operand) (s : State) : Host.Outcome State Fault Refusal :=
  complete ((sourceByte src s).bind fun x s => testByte dst (fun d => flagsLogic (x &&& d)) s)

/-- BIC (R177), pattern RMW. -/
def execBic (src dst : Operand) (s : State) : Host.Outcome State Fault Refusal :=
  complete ((sourceWord src s).bind fun x s => modifyWord dst (fun d => (~~~x &&& d, flagsLogic (~~~x &&& d))) s)

/-- BICB (R180), pattern RMW. -/
def execBicb (src dst : Operand) (s : State) : Host.Outcome State Fault Refusal :=
  complete ((sourceByte src s).bind fun x s => modifyByte dst (fun d => (~~~x &&& d, flagsLogic (~~~x &&& d))) s)

/-- BIS (R179), pattern RMW. -/
def execBis (src dst : Operand) (s : State) : Host.Outcome State Fault Refusal :=
  complete ((sourceWord src s).bind fun x s =>
    modifyWord dst (fun d => ((bisop s.cfg.bisMode x d).1, flagsLogic (bisop s.cfg.bisMode x d).2)) s)

/-- BISB (R181), pattern RMW. -/
def execBisb (src dst : Operand) (s : State) : Host.Outcome State Fault Refusal :=
  complete ((sourceByte src s).bind fun x s =>
    modifyByte dst (fun d => ((bisop s.cfg.bisMode x d).1, flagsLogic (bisop s.cfg.bisMode x d).2)) s)

/-- ADD (R182), pattern RMW. -/
def execAdd (src dst : Operand) (s : State) : Host.Outcome State Fault Refusal :=
  complete ((sourceWord src s).bind fun x s => modifyWord dst (fun d => (d + x, flagsAdd x d)) s)

/-- SUB (R183), pattern RMW: destination minus source. -/
def execSub (src dst : Operand) (s : State) : Host.Outcome State Fault Refusal :=
  complete ((sourceWord src s).bind fun x s => modifyWord dst (fun d => (d - x, flagsSub x d)) s)

end Sys2Proof.Machine
end

