-- ==== Sys2Proof/Machine/Jumps.lean ====
section
/-! DEFINITION. Jumps and subroutines (44_jumps_subroutines.md R250-R253) and MARK of profile EXT (R354). None writes a
flag. -/

namespace Sys2Proof.Machine

/-- JMP (R251). -/
def execJmp (dst : Operand) (s : State) : Host.Outcome State Fault Refusal :=
  complete ((jumpTarget dst s).bind fun ea s => .ok () (s.withPc ea))

/-- JSR (R252): the effective address before the push. -/
def execJsr (r : Reg) (dst : Operand) (s : State) : Host.Outcome State Fault Refusal :=
  complete ((jumpTarget dst s).bind fun ea s =>
    (push (readReg s r) s).bind fun _ s => .ok () ((writeReg r s.pcr s).withPc ea))

/-- RTS (R253): PC takes the register's value, then the register is popped. -/
def execRts (r : Reg) (s : State) : Host.Outcome State Fault Refusal :=
  complete ((pop (s.withPc (readReg s r))).bind fun v s => .ok () (writeReg r v s))

/-- MARK (R354). -/
def execMark (nn : BitVec 6) (s : State) : Host.Outcome State Fault Refusal :=
  let s := writeReg .sp (s.pcr + nn.setWidth 16 * 2) s
  complete ((pop (s.withPc (readReg s .r5))).bind fun v s => .ok () (writeReg .r5 v s))

end Sys2Proof.Machine
end

