-- ==== Sys2Proof/Machine/RegisterSource.lean ====
section
/-! DEFINITION. Register-source arithmetic: MUL, DIV, ASH (42_register_source.md R200-R204), and ASHC and XOR of
profile EXT (47_extension_profile.md R352, R353). The source is read before any register is written (R200). -/

namespace Sys2Proof.Machine

/-- Writes a 32-bit value to two registers, high word first (R202, R353). -/
def writePair (hi lo : Reg) (v : BitVec 32) (s : State) : State :=
  writeReg lo (v.extractLsb' 0 16) (writeReg hi (v.extractLsb' 16 16) s)

/-- MUL (R202): the multiplicand is `R[r]`, the register named. -/
def execMul (r : Reg) (src : Operand) (s : State) : Host.Outcome State Fault Refusal :=
  complete ((sourceWord src s).bind fun x s =>
    let p := mulProduct (readReg s r) x
    .ok () ((writePair (pairHigh r) (pairLow r) (BitVec.ofInt 32 p) s).applyFlags (flagsMul p)))

/-- What DIV does with the divisor `b` it has read (R203): three cases. -/
def divide (r : Reg) (b : Int) (s : State) : State :=
  let a := (readReg s (pairHigh r) ++ readReg s (pairLow r) : BitVec (16 + 16)).toInt
  if b = 0 then s.applyFlags flagsDivZero
  else
    let qm := qdiv s.cfg.divRounding a b
    if quotientFits qm.1 then
      (writeReg (pairLow r) (BitVec.ofInt 16 qm.2) (writeReg (pairHigh r) (BitVec.ofInt 16 qm.1) s)).applyFlags
        (flagsDiv qm.1)
    else s.drawn.applyFlags (flagsDivOverflow (Config.freeBit s.draws))

/-- DIV (R203). -/
def execDiv (r : Reg) (src : Operand) (s : State) : Host.Outcome State Fault Refusal :=
  complete ((sourceWord src s).bind fun x s => .ok () (divide r x.toInt s))

/-- ASH (R204): the count is bits 5:0 of the source (R116). -/
def execAsh (r : Reg) (src : Operand) (s : State) : Host.Outcome State Fault Refusal :=
  complete ((sourceWord src s).bind fun x s =>
    let y := shiftBy (readReg s r) (x.extractLsb' 0 6)
    .ok () ((writeReg r y.res s).applyFlags (flagsShiftBy (readReg s r) y)))

/-- ASHC (R353): for an odd `r` the value is `R[r] : R[r]`, and the register ends with the low word. -/
def execAshc (r : Reg) (src : Operand) (s : State) : Host.Outcome State Fault Refusal :=
  complete ((sourceWord src s).bind fun x s =>
    let v : BitVec 32 := (readReg s r ++ readReg s (pairLow r) : BitVec (16 + 16))
    let y := shiftBy v (x.extractLsb' 0 6)
    .ok () ((writePair r (pairLow r) y.res s).applyFlags (flagsShiftBy v y)))

/-- XOR (R352), pattern RMW: `R[r]` is read before the destination is resolved. -/
def execXor (r : Reg) (dst : Operand) (s : State) : Host.Outcome State Fault Refusal :=
  complete (modifyWord dst (fun d => (readReg s r ^^^ d, flagsLogic (readReg s r ^^^ d))) s)

end Sys2Proof.Machine
end

