-- ==== Sys2Proof/Machine/SingleOperand.lean ====
section
/-! DEFINITION. The single-operand instructions (45_single_operand.md R270-R279; 47_extension_profile.md R331-R347). -/

namespace Sys2Proof.Machine

/-- CLR (R271), pattern W. -/
def execClr (dst : Operand) (s : State) : Host.Outcome State Fault Refusal :=
  complete (putWord dst 0 flagsClear s)

/-- CLRB (R272), pattern W. -/
def execClrb (dst : Operand) (s : State) : Host.Outcome State Fault Refusal :=
  complete (putByte dst 0 flagsClear s)

/-- INC (R273), pattern RMW. -/
def execInc (dst : Operand) (s : State) : Host.Outcome State Fault Refusal :=
  complete (modifyWord dst (fun d => (d + 1, flagsInc d)) s)

/-- INCB (R274), pattern RMW. -/
def execIncb (dst : Operand) (s : State) : Host.Outcome State Fault Refusal :=
  complete (modifyByte dst (fun d => (d + 1, flagsInc d)) s)

/-- TST (R275), pattern R. -/
def execTst (dst : Operand) (s : State) : Host.Outcome State Fault Refusal :=
  complete (testWord dst (fun d => flagsTest d) s)

/-- TSTB (R276), pattern R. -/
def execTstb (dst : Operand) (s : State) : Host.Outcome State Fault Refusal :=
  complete (testByte dst (fun d => flagsTest d) s)

/-- SWAB (R277), pattern RMW. -/
def execSwab (dst : Operand) (s : State) : Host.Outcome State Fault Refusal :=
  complete (modifyWord dst (fun d => (swapBytes d, flagsSwab (swapBytes d))) s)

/-- SXT (R278), pattern W. -/
def execSxt (dst : Operand) (s : State) : Host.Outcome State Fault Refusal :=
  complete (putWord dst (signWord s.psw.n) (flagsSxt (signWord s.psw.n)) s)

/-- ASL (R279), pattern RMW. -/
def execAsl (dst : Operand) (s : State) : Host.Outcome State Fault Refusal :=
  complete (modifyWord dst (fun d => (d <<< 1, flagsShift (d <<< 1) d.msb)) s)

/-- COM (R331), pattern RMW. -/
def execCom (dst : Operand) (s : State) : Host.Outcome State Fault Refusal :=
  complete (modifyWord dst (fun d => (~~~d, flagsCom (~~~d))) s)

/-- COMB (R332), pattern RMW. -/
def execComb (dst : Operand) (s : State) : Host.Outcome State Fault Refusal :=
  complete (modifyByte dst (fun d => (~~~d, flagsCom (~~~d))) s)

/-- NEG (R333), pattern RMW. -/
def execNeg (dst : Operand) (s : State) : Host.Outcome State Fault Refusal :=
  complete (modifyWord dst (fun d => (-d, flagsNeg (-d))) s)

/-- NEGB (R334), pattern RMW. -/
def execNegb (dst : Operand) (s : State) : Host.Outcome State Fault Refusal :=
  complete (modifyByte dst (fun d => (-d, flagsNeg (-d))) s)

/-- DEC (R335), pattern RMW. -/
def execDec (dst : Operand) (s : State) : Host.Outcome State Fault Refusal :=
  complete (modifyWord dst (fun d => (d - 1, flagsDec d)) s)

/-- DECB (R336), pattern RMW. -/
def execDecb (dst : Operand) (s : State) : Host.Outcome State Fault Refusal :=
  complete (modifyByte dst (fun d => (d - 1, flagsDec d)) s)

/-- ADC (R337), pattern RMW. -/
def execAdc (dst : Operand) (s : State) : Host.Outcome State Fault Refusal :=
  complete (modifyWord dst (fun d => (d + carryIn 16 s.psw.c, flagsAdc d s.psw.c)) s)

/-- ADCB (R338), pattern RMW. -/
def execAdcb (dst : Operand) (s : State) : Host.Outcome State Fault Refusal :=
  complete (modifyByte dst (fun d => (d + carryIn 8 s.psw.c, flagsAdc d s.psw.c)) s)

/-- SBC (R339), pattern RMW. -/
def execSbc (dst : Operand) (s : State) : Host.Outcome State Fault Refusal :=
  complete (modifyWord dst (fun d => (d - carryIn 16 s.psw.c, flagsSbc d s.psw.c)) s)

/-- SBCB (R340), pattern RMW. -/
def execSbcb (dst : Operand) (s : State) : Host.Outcome State Fault Refusal :=
  complete (modifyByte dst (fun d => (d - carryIn 8 s.psw.c, flagsSbc d s.psw.c)) s)

/-- ROR (R341), pattern RMW. -/
def execRor (dst : Operand) (s : State) : Host.Outcome State Fault Refusal :=
  complete (modifyWord dst (fun d => (rotateRight d s.psw.c, flagsShift (rotateRight d s.psw.c) (d.getLsbD 0))) s)

/-- RORB (R342), pattern RMW. -/
def execRorb (dst : Operand) (s : State) : Host.Outcome State Fault Refusal :=
  complete (modifyByte dst (fun d => (rotateRight d s.psw.c, flagsShift (rotateRight d s.psw.c) (d.getLsbD 0))) s)

/-- ROL (R343), pattern RMW. -/
def execRol (dst : Operand) (s : State) : Host.Outcome State Fault Refusal :=
  complete (modifyWord dst (fun d => (rotateLeft d s.psw.c, flagsShift (rotateLeft d s.psw.c) d.msb)) s)

/-- ROLB (R344), pattern RMW. -/
def execRolb (dst : Operand) (s : State) : Host.Outcome State Fault Refusal :=
  complete (modifyByte dst (fun d => (rotateLeft d s.psw.c, flagsShift (rotateLeft d s.psw.c) d.msb)) s)

/-- ASR (R345), pattern RMW. -/
def execAsr (dst : Operand) (s : State) : Host.Outcome State Fault Refusal :=
  complete (modifyWord dst (fun d => (d.sshiftRight 1, flagsShift (d.sshiftRight 1) (d.getLsbD 0))) s)

/-- ASRB (R346), pattern RMW. -/
def execAsrb (dst : Operand) (s : State) : Host.Outcome State Fault Refusal :=
  complete (modifyByte dst (fun d => (d.sshiftRight 1, flagsShift (d.sshiftRight 1) (d.getLsbD 0))) s)

/-- ASLB (R347), pattern RMW. -/
def execAslb (dst : Operand) (s : State) : Host.Outcome State Fault Refusal :=
  complete (modifyByte dst (fun d => (d <<< 1, flagsShift (d <<< 1) d.msb)) s)

end Sys2Proof.Machine
end

