-- ==== Sys2Proof/Machine/System.lean ====
section
/-! DEFINITION. The system instructions (46_system.md R300-R308) and those of profile EXT (47_extension_profile.md
R355-R364). None checks a privilege (R416). -/

namespace Sys2Proof.Machine

/-- HALT (R300): the run state becomes Halted. The outcome `Halted(s')` of R10 is the next state `s'` (log 5). -/
def execHalt (s : State) : Host.Outcome State Fault Refusal :=
  complete (.ok () (s.withRun .halted))

/-- WAIT (R301). -/
def execWait (s : State) : Host.Outcome State Fault Refusal :=
  complete (.ok () (s.withRun .waiting))

/-- RESET (R302, R303): records `BusInit`; clears `mmuEnabled` when `RESET_CLEARS_MMU`. -/
def execReset (s : State) : Host.Outcome State Fault Refusal :=
  let s := s.record .busInit
  complete (.ok () (if s.cfg.resetClearsMmu then s.withMmu { s.mmu with enabled := false } else s))

/-- RTT (R304). -/
def execRtt (s : State) : Host.Outcome State Fault Refusal := complete (returnFromTrap s)

/-- RTI (R364): exactly RTT. -/
def execRti (s : State) : Host.Outcome State Fault Refusal := complete (returnFromTrap s)

/-- MFPI (R307). -/
def execMfpi (src : Operand) (s : State) : Host.Outcome State Fault Refusal := complete (moveFromPrevious src s)

/-- MFPD (R358): exactly MFPI. -/
def execMfpd (src : Operand) (s : State) : Host.Outcome State Fault Refusal := complete (moveFromPrevious src s)

/-- MTPI (R308). -/
def execMtpi (dst : Operand) (s : State) : Host.Outcome State Fault Refusal := complete (moveToPrevious dst s)

/-- MTPD (R359): exactly MTPI. -/
def execMtpd (dst : Operand) (s : State) : Host.Outcome State Fault Refusal := complete (moveToPrevious dst s)

/-- SPL (R355): in any mode but Kernel it changes nothing. -/
def execSpl (level : BitVec 3) (s : State) : Host.Outcome State Fault Refusal :=
  complete (.ok () (if s.psw.cm = .kernel then s.withPsw { s.psw with pri := level } else s))

/-- CCC (R356): with an empty mask, NOP. -/
def execCcc (mask : BitVec 4) (s : State) : Host.Outcome State Fault Refusal :=
  complete (.ok () (s.applyFlags (flagsMask mask false)))

/-- SCC (R357). -/
def execScc (mask : BitVec 4) (s : State) : Host.Outcome State Fault Refusal :=
  complete (.ok () (s.applyFlags (flagsMask mask true)))

/-- EMT (R360, R365); the core ignores the code. -/
def execEmt (_code : BitVec 8) (s : State) : Host.Outcome State Fault Refusal := complete (trapEntry 0o30 s)

/-- TRAP (R361, R365); the core ignores the code. -/
def execTrap (_code : BitVec 8) (s : State) : Host.Outcome State Fault Refusal := complete (trapEntry 0o34 s)

/-- BPT (R362, R365). -/
def execBpt (s : State) : Host.Outcome State Fault Refusal := complete (trapEntry 0o14 s)

/-- IOT (R363, R365). -/
def execIot (s : State) : Host.Outcome State Fault Refusal := complete (trapEntry 0o20 s)

end Sys2Proof.Machine
end

