-- ==== Sys2Proof/Machine/Dispatch.lean ====
section
/-! DEFINITION. `Execute(ins, w)` (R142): one arm per row of the opcode table, each its own meaning. -/

namespace Sys2Proof.Machine

def exec (i : Instr) (s : State) : Host.Outcome State Fault Refusal :=
  match i with
  | .mov src dst => Sys2Proof.Machine.execMov src dst s
  | .cmp src dst => Sys2Proof.Machine.execCmp src dst s
  | .bit src dst => Sys2Proof.Machine.execBit src dst s
  | .bic src dst => Sys2Proof.Machine.execBic src dst s
  | .bis src dst => Sys2Proof.Machine.execBis src dst s
  | .add src dst => Sys2Proof.Machine.execAdd src dst s
  | .movb src dst => Sys2Proof.Machine.execMovb src dst s
  | .cmpb src dst => Sys2Proof.Machine.execCmpb src dst s
  | .bitb src dst => Sys2Proof.Machine.execBitb src dst s
  | .bicb src dst => Sys2Proof.Machine.execBicb src dst s
  | .bisb src dst => Sys2Proof.Machine.execBisb src dst s
  | .sub src dst => Sys2Proof.Machine.execSub src dst s
  | .jsr r dst => Sys2Proof.Machine.execJsr r dst s
  | .mul r src => Sys2Proof.Machine.execMul r src s
  | .div r src => Sys2Proof.Machine.execDiv r src s
  | .ash r src => Sys2Proof.Machine.execAsh r src s
  | .sob r nn => Sys2Proof.Machine.execSob r nn s
  | .br offset => Sys2Proof.Machine.execBr offset s
  | .bne offset => Sys2Proof.Machine.execBne offset s
  | .beq offset => Sys2Proof.Machine.execBeq offset s
  | .bge offset => Sys2Proof.Machine.execBge offset s
  | .blt offset => Sys2Proof.Machine.execBlt offset s
  | .bgt offset => Sys2Proof.Machine.execBgt offset s
  | .bpl offset => Sys2Proof.Machine.execBpl offset s
  | .bhi offset => Sys2Proof.Machine.execBhi offset s
  | .blos offset => Sys2Proof.Machine.execBlos offset s
  | .bcc offset => Sys2Proof.Machine.execBcc offset s
  | .bcs offset => Sys2Proof.Machine.execBcs offset s
  | .jmp dst => Sys2Proof.Machine.execJmp dst s
  | .swab dst => Sys2Proof.Machine.execSwab dst s
  | .clr dst => Sys2Proof.Machine.execClr dst s
  | .inc dst => Sys2Proof.Machine.execInc dst s
  | .tst dst => Sys2Proof.Machine.execTst dst s
  | .asl dst => Sys2Proof.Machine.execAsl dst s
  | .mfpi src => Sys2Proof.Machine.execMfpi src s
  | .mtpi dst => Sys2Proof.Machine.execMtpi dst s
  | .sxt dst => Sys2Proof.Machine.execSxt dst s
  | .clrb dst => Sys2Proof.Machine.execClrb dst s
  | .incb dst => Sys2Proof.Machine.execIncb dst s
  | .tstb dst => Sys2Proof.Machine.execTstb dst s
  | .rts r => Sys2Proof.Machine.execRts r s
  | .halt => Sys2Proof.Machine.execHalt s
  | .wait => Sys2Proof.Machine.execWait s
  | .reset => Sys2Proof.Machine.execReset s
  | .rtt => Sys2Proof.Machine.execRtt s
  | .com dst => Sys2Proof.Machine.execCom dst s
  | .comb dst => Sys2Proof.Machine.execComb dst s
  | .neg dst => Sys2Proof.Machine.execNeg dst s
  | .negb dst => Sys2Proof.Machine.execNegb dst s
  | .dec dst => Sys2Proof.Machine.execDec dst s
  | .decb dst => Sys2Proof.Machine.execDecb dst s
  | .adc dst => Sys2Proof.Machine.execAdc dst s
  | .adcb dst => Sys2Proof.Machine.execAdcb dst s
  | .sbc dst => Sys2Proof.Machine.execSbc dst s
  | .sbcb dst => Sys2Proof.Machine.execSbcb dst s
  | .ror dst => Sys2Proof.Machine.execRor dst s
  | .rorb dst => Sys2Proof.Machine.execRorb dst s
  | .rol dst => Sys2Proof.Machine.execRol dst s
  | .rolb dst => Sys2Proof.Machine.execRolb dst s
  | .asr dst => Sys2Proof.Machine.execAsr dst s
  | .asrb dst => Sys2Proof.Machine.execAsrb dst s
  | .aslb dst => Sys2Proof.Machine.execAslb dst s
  | .ble offset => Sys2Proof.Machine.execBle offset s
  | .bmi offset => Sys2Proof.Machine.execBmi offset s
  | .bvc offset => Sys2Proof.Machine.execBvc offset s
  | .bvs offset => Sys2Proof.Machine.execBvs offset s
  | .xor r dst => Sys2Proof.Machine.execXor r dst s
  | .ashc r src => Sys2Proof.Machine.execAshc r src s
  | .mark nn => Sys2Proof.Machine.execMark nn s
  | .spl level => Sys2Proof.Machine.execSpl level s
  | .ccc mask => Sys2Proof.Machine.execCcc mask s
  | .scc mask => Sys2Proof.Machine.execScc mask s
  | .mfpd src => Sys2Proof.Machine.execMfpd src s
  | .mtpd dst => Sys2Proof.Machine.execMtpd dst s
  | .emt code => Sys2Proof.Machine.execEmt code s
  | .trap code => Sys2Proof.Machine.execTrap code s
  | .bpt => Sys2Proof.Machine.execBpt s
  | .iot => Sys2Proof.Machine.execIot s
  | .rti => Sys2Proof.Machine.execRti s

end Sys2Proof.Machine
end

