-- ==== Sys2Proof/Machine/Step.lean ====
section
/-! DEFINITION. One step of the core (R140): one call of `runStep()` with the boundary's offer. -/

namespace Sys2Proof.Machine

/-- `runStep(offer)` (R140): Halted, then the interrupt, then Waiting, then T, then the fetch (R413). Exactly one
instruction runs, to completion, to a trap or to a stop (R143). -/
def step (s : State) : Host.Outcome State Fault Refusal :=
  if s.run = .halted then .fault .halted
  else
    match s.acceptedOffer with
    | some o => interruptEntry o s.beginStep
    | none =>
      if s.run = .waiting then .fault .stuck
      else if s.psw.t then .refused .traceUnmodelled
      else
        match fetchInstr s.beginStep with
        | .ok w s' =>
          match decode s'.cfg.profile w with
          | .ok i => exec i s'
          | .error _ => .fault (.unknownInstruction s'.annotation)
        | .abort s' => complete (.abort s')
        | .fatal f => .fault f

/-- `s` with an instruction stored where `step` fetches its next instruction, and that step made to fetch (log 15). -/
def State.withFetchWord (s : State) (nbits w : Nat) : State := placeInstr nbits w s

end Sys2Proof.Machine
end

