-- ==== Sys2Proof/Machine/HostCalls.lean ====
section
/-! DEFINITION. What the host does at a boundary, outside any step (60_exceptions.md R424, R425; 10_state.md R39, R40;
70_reset_and_hazards.md R450). -/

namespace Sys2Proof.Machine

/-- `readRegister(index)` (R39, R40): the fixed index map, independent of the PSW. -/
def readRegister (index : Nat) (s : State) : Except Fault Word :=
  match index with
  | 0 => .ok s.bank0.r0
  | 1 => .ok s.bank0.r1
  | 2 => .ok s.bank0.r2
  | 3 => .ok s.bank0.r3
  | 4 => .ok s.bank0.r4
  | 5 => .ok s.bank0.r5
  | 6 => .ok s.bank1.r0
  | 7 => .ok s.bank1.r1
  | 8 => .ok s.bank1.r2
  | 9 => .ok s.bank1.r3
  | 10 => .ok s.bank1.r4
  | 11 => .ok s.bank1.r5
  | 12 => .ok s.spu
  | 13 => .ok s.sps
  | 14 => .ok s.spk
  | 15 => .ok s.pcr
  | k => .error (.invalidRegisterIndex k s.hostAnnotation)

/-- `writeRegister(index, value)` (R39, R40); the value is truncated to 16 bits by its type (R8). -/
def writeRegister (index : Nat) (v : Word) (s : State) : Host.Outcome State Fault Refusal :=
  match index with
  | 0 => .next (s.withBank0 { s.bank0 with r0 := v })
  | 1 => .next (s.withBank0 { s.bank0 with r1 := v })
  | 2 => .next (s.withBank0 { s.bank0 with r2 := v })
  | 3 => .next (s.withBank0 { s.bank0 with r3 := v })
  | 4 => .next (s.withBank0 { s.bank0 with r4 := v })
  | 5 => .next (s.withBank0 { s.bank0 with r5 := v })
  | 6 => .next (s.withBank1 { s.bank1 with r0 := v })
  | 7 => .next (s.withBank1 { s.bank1 with r1 := v })
  | 8 => .next (s.withBank1 { s.bank1 with r2 := v })
  | 9 => .next (s.withBank1 { s.bank1 with r3 := v })
  | 10 => .next (s.withBank1 { s.bank1 with r4 := v })
  | 11 => .next (s.withBank1 { s.bank1 with r5 := v })
  | 12 => .next (s.withSpu v)
  | 13 => .next (s.withSps v)
  | 14 => .next (s.withSpk v)
  | 15 => .next (s.withPc v)
  | k => .fault (.invalidRegisterIndex k s.hostAnnotation)

/-- `init()` (R450): the core state of `State.resetWith`; RAM, parameters, bus history, pending offers and the draw
counter are not the core's and stay. -/
def State.init (s : State) : State :=
  ((((State.resetWith s.cfg).withRam s.ram).withHistory s.history).withOffers s.offers).withDraws s.draws

/-- The host's offer for the next boundary it has not decided yet (R410, log 7). -/
def offerInterrupt (o : Option Offer) (s : State) : State := s.withOffers (s.offers ++ [o])

/-- The host changes one byte of RAM between two steps (R425); an address that is not RAM is left alone. -/
def pokeRam (pa : Nat) (v : Byte) (s : State) : State :=
  if pa < s.cfg.ramSize then s.withRam (Memory.write s.ram pa v) else s

end Sys2Proof.Machine
end

