-- ==== Sys2Proof/Safety.lean ====
section
/-! DEFINITION. The terms the claims use: valid parameters, the invariant of the state, runs, and what an instruction
leaves alone. -/

namespace Sys2Proof.Machine

/-! ## The invariant -/

/-- The constraints R6 puts on the parameters: `RAM_SIZE` even and between 0o1000 and 0o760000; the claims even, at or
above `RAM_SIZE`, and disjoint from the MMU window and from the PSW word when it is mapped (R64). R6 states no upper
bound for a claim. DEDUCED (log 18): no claim lies above 0o777777, since R76 and D10 call every address the translation
reaches above it unclaimed. -/
abbrev configValid (c : Config) : Prop :=
  c.ramSize % 2 = 0 ∧ 0o1000 ≤ c.ramSize ∧ c.ramSize ≤ Config.ioBase ∧
    ∀ pa ∈ c.deviceClaims, pa % 2 = 0 ∧ c.ramSize ≤ pa ∧ pa ≤ Config.ioEnd ∧ mmuRegAt pa = none ∧
      ¬(c.pswMapped = true ∧ pa = pswAddress)

/-- What R410 asks of an offer: level 1..7, an even vector below `RAM_SIZE`. -/
abbrev offerValid (c : Config) (o : Offer) : Prop :=
  1 ≤ o.level.toNat ∧ isOdd o.vector = false ∧ o.vector.toNat < c.ramSize

/-- The invariant of the machine: valid parameters, RAM in its canonical form with no byte beyond `RAM_SIZE`, valid
offers. -/
abbrev Inv (s : State) : Prop :=
  configValid s.cfg ∧ Memory.wf s.ram = true ∧ (∀ cell ∈ s.ram, cell.1 < s.cfg.ramSize) ∧
    ∀ o ∈ s.offers, ∀ x ∈ o, offerValid s.cfg x

/-! ## Runs (R471) -/

/-- `t` is reached from `s` by steps that each answer a next state. -/
inductive Runs : State → State → Prop where
  | refl (s : State) : Runs s s
  | step {s t u : State} (h : Runs s t) (hs : Sys2Proof.Machine.step t = .next u) : Runs s u

/-- The successful end of a run: a HALT has executed (R471). -/
def EndsWell (s : State) : Prop := ∃ t, Runs s t ∧ t.run = .halted

/-! ## What is left alone -/

/-- The register a specifier steps: modes 2-5 (R147-R150). -/
def steps (o : Operand) (r : Reg) : Prop :=
  o.reg = r ∧ (o.mode = .autoInc ∨ o.mode = .autoIncDeferred ∨ o.mode = .autoDec ∨ o.mode = .autoDecDeferred)

/-- The register a specifier names as a register destination: mode 0 (R145). -/
def names (o : Operand) (r : Reg) : Prop := o.reg = r ∧ o.mode = .register

/-- The slots no logical register names: the bank that is not live, and the stack pointers of the other modes (R25,
R42). -/
def hiddenSlotsSame (s t : State) : Prop :=
  (if s.psw.rs then t.bank0 = s.bank0 else t.bank1 = s.bank1) ∧ ∀ m, m ≠ s.psw.cm → t.spOf m = s.spOf m

/-- The logical registers but PC and those `touched` hold what they held, and so do the hidden slots. -/
def registersSame (touched : Reg → Prop) (s t : State) : Prop :=
  (∀ r, r ≠ .pc → ¬touched r → readReg t r = readReg s r) ∧ hiddenSlotsSame s t

/-- The PSW fields but the four flags (R30). -/
def systemFieldsSame (s t : State) : Prop :=
  t.psw.cm = s.psw.cm ∧ t.psw.pm = s.psw.pm ∧ t.psw.rs = s.psw.rs ∧ t.psw.pri = s.psw.pri ∧ t.psw.t = s.psw.t

/-- Every register slot holds what it held, hidden ones too (R25). -/
def slotsSame (s t : State) : Prop :=
  t.bank0 = s.bank0 ∧ t.bank1 = s.bank1 ∧ t.spk = s.spk ∧ t.sps = s.sps ∧ t.spu = s.spu ∧ t.pcr = s.pcr

/-- The state that is neither a register, the PSW, the MMU nor memory: the run state, `currentPc`, the parameters, the
offers and the fetched word. -/
def controlSame (s t : State) : Prop :=
  t.run = s.run ∧ t.currentPc = s.currentPc ∧ t.cfg = s.cfg ∧ t.offers = s.offers ∧ t.ir = s.ir

/-- Every RAM byte outside `bytes` reads as before. -/
def ramSameOutside (bytes : Nat → Prop) (s t : State) : Prop :=
  ∀ a, ¬bytes a → Memory.read t.ram a = Memory.read s.ram a

/-- The bytes an access of a space at a virtual address stores to, two for a word, one for a byte. -/
def storedAt (s : State) (m : Option Space) (va : Word) (n : Size) (a : Nat) : Prop :=
  match m with
  | none => False
  | some sp =>
    match n with
    | .word => a = s.translate sp va ∨ a = s.translate sp va + 1
    | .byte => a = s.translate sp va

/-- The bytes a store to a location writes, in the current space of the state it is made in. -/
def storedBytes (l : Loc) (n : Size) (s : State) (a : Nat) : Prop :=
  match l with
  | .reg _ => False
  | .mem va => storedAt s s.curSpace va n a

/-- The location is a register or in RAM, so a store to it reaches no MMU register, PSW word or device. -/
def plainTarget (l : Loc) (s : State) : Prop :=
  match l with
  | .reg _ => True
  | .mem va => ∃ sp, s.curSpace = some sp ∧ s.translate sp va < s.cfg.ramSize

/-- The word on the bus that a store to a location goes to (R80, R81). -/
def targetWord (l : Loc) (n : Size) (s : State) : Option Nat :=
  match l with
  | .reg _ => none
  | .mem va =>
    s.curSpace.map fun sp =>
      match n with
      | .word => s.translate sp va
      | .byte => evenPa (s.translate sp va)

/-- The store goes to the PSW word (R90). -/
def storesPsw (l : Loc) (n : Size) (s : State) : Prop :=
  targetWord l n s = some pswAddress ∧ s.cfg.pswMapped = true ∧ s.cfg.ramSize ≤ pswAddress

/-- The store goes to a register of the MMU (R84). -/
def storesMmu (l : Loc) (n : Size) (s : State) : Prop :=
  ∃ pa r, targetWord l n s = some pa ∧ s.cfg.ramSize ≤ pa ∧ mmuRegAt pa = some r

/-- A word of RAM can be read or written at `va` in the space `m`, at physical address `pa`. -/
def ramWordAt (s : State) (m : Option Space) (va : Word) (pa : Nat) : Prop :=
  isOdd va = false ∧ ∃ sp, m = some sp ∧ pa = s.translate sp va ∧ pa < s.cfg.ramSize

/-- No unit claims the physical address (R61, R69). -/
def unclaimed (s : State) (pa : Nat) : Prop :=
  s.cfg.ramSize ≤ pa ∧ mmuRegAt pa = none ∧ ¬(s.cfg.pswMapped = true ∧ pa = pswAddress) ∧ pa ∉ s.cfg.deviceClaims

/-- The location does not time out (R69): a register, or an address some unit claims or at or above `IO_BASE`. -/
def answered (l : Loc) (n : Size) (s : State) : Prop :=
  ∀ pa, targetWord l n s = some pa → ¬(unclaimed s pa ∧ pa < Config.ioBase)

/-- The source, the destination and the operand size of the instructions that store a result through a destination
specifier (patterns W and RMW of R159, MTPI and MTPD apart). -/
def storesTo : Instr → Option (Option Operand × Operand × Size)
  | .mov src dst => some (some src, dst, .word)
  | .bic src dst => some (some src, dst, .word)
  | .bis src dst => some (some src, dst, .word)
  | .add src dst => some (some src, dst, .word)
  | .sub src dst => some (some src, dst, .word)
  | .movb src dst => some (some src, dst, .byte)
  | .bicb src dst => some (some src, dst, .byte)
  | .bisb src dst => some (some src, dst, .byte)
  | .xor _ dst => some (none, dst, .word)
  | .clr dst => some (none, dst, .word)
  | .inc dst => some (none, dst, .word)
  | .swab dst => some (none, dst, .word)
  | .sxt dst => some (none, dst, .word)
  | .asl dst => some (none, dst, .word)
  | .com dst => some (none, dst, .word)
  | .neg dst => some (none, dst, .word)
  | .dec dst => some (none, dst, .word)
  | .adc dst => some (none, dst, .word)
  | .sbc dst => some (none, dst, .word)
  | .ror dst => some (none, dst, .word)
  | .rol dst => some (none, dst, .word)
  | .asr dst => some (none, dst, .word)
  | .clrb dst => some (none, dst, .byte)
  | .incb dst => some (none, dst, .byte)
  | .comb dst => some (none, dst, .byte)
  | .negb dst => some (none, dst, .byte)
  | .decb dst => some (none, dst, .byte)
  | .adcb dst => some (none, dst, .byte)
  | .sbcb dst => some (none, dst, .byte)
  | .rorb dst => some (none, dst, .byte)
  | .rolb dst => some (none, dst, .byte)
  | .asrb dst => some (none, dst, .byte)
  | .aslb dst => some (none, dst, .byte)
  | .cmp _ _ | .bit _ _ | .cmpb _ _ | .bitb _ _ | .jsr _ _ | .mul _ _ | .div _ _ | .ash _ _ | .sob _ _ | .br _
  | .bne _ | .beq _ | .bge _ | .blt _ | .bgt _ | .bpl _ | .bhi _ | .blos _ | .bcc _ | .bcs _ | .jmp _ | .tst _
  | .mfpi _ | .mtpi _ | .tstb _ | .rts _ | .halt | .wait | .reset | .rtt | .ble _ | .bmi _ | .bvc _ | .bvs _
  | .ashc _ _ | .mark _ | .spl _ | .ccc _ | .scc _ | .mfpd _ | .mtpd _ | .emt _ | .trap _ | .bpt | .iot | .rti => none

/-- The instructions of `storesTo` that never read their destination (pattern W of R159): the others read it before
they store (pattern RMW). -/
def writesOnly (i : Instr) : Prop :=
  (∃ src dst, i = .mov src dst ∨ i = .movb src dst) ∨ ∃ dst, i = .clr dst ∨ i = .clrb dst ∨ i = .sxt dst

/-- The source operand, if the instruction has one, has been read, which leads from `s` to `t` (R157). -/
def sourceRead (src : Option Operand) (n : Size) (s t : State) : Prop :=
  match src with
  | none => t = s
  | some o =>
    match n with
    | .word => ∃ x, sourceWord o s = .ok x t
    | .byte => ∃ x, sourceByte o s = .ok x t

/-- The instructions of the files 41 to 47 that work on their operand specifiers, with every specifier in mode 0
(R170). -/
def registerOnly : Instr → Bool
  | .mov src dst | .cmp src dst | .bit src dst | .bic src dst | .bis src dst | .add src dst | .sub src dst
  | .movb src dst | .cmpb src dst | .bitb src dst | .bicb src dst | .bisb src dst => src.mode == .register && dst.mode == .register
  | .mul _ src | .div _ src | .ash _ src | .ashc _ src => src.mode == .register
  | .xor _ dst => dst.mode == .register
  | .swab dst | .clr dst | .inc dst | .tst dst | .asl dst | .sxt dst | .clrb dst | .incb dst | .tstb dst
  | .com dst | .comb dst | .neg dst | .negb dst | .dec dst | .decb dst | .adc dst | .adcb dst | .sbc dst
  | .sbcb dst | .ror dst | .rorb dst | .rol dst | .rolb dst | .asr dst | .asrb dst | .aslb dst => dst.mode == .register
  | .jsr _ _ | .sob _ _ | .br _ | .bne _ | .beq _ | .bge _ | .blt _ | .bgt _ | .bpl _ | .bhi _ | .blos _
  | .bcc _ | .bcs _ | .jmp _ | .mfpi _ | .mtpi _ | .rts _ | .halt | .wait | .reset | .rtt | .ble _ | .bmi _
  | .bvc _ | .bvs _ | .mark _ | .spl _ | .ccc _ | .scc _ | .mfpd _ | .mtpd _ | .emt _ | .trap _ | .bpt | .iot
  | .rti => false

/-! ## Results -/

/-- `s` with the four flags set. -/
def State.withFlags (s : State) (n z v c : Bool) : State := s.withPsw { s.psw with n := n, z := z, v := v, c := c }

/-- The state an instruction ends in after its store (R158): the flags given, unless the store wrote the PSW word, in
which case the instruction's own flag update is skipped (R90). -/
def afterStore (wrotePsw : Bool) (t : State) (n z v c : Bool) : State :=
  if wrotePsw then t else t.withFlags n z v c

/-- What a trap entry through `vec` needs to complete (R404, R455): the vector words in RAM, a PSW word `p` that is
legal, and two words of RAM, at physical `pa1` and then `pa0`, below the stack pointer of the new mode. -/
structure TrapReady (s : State) (vec newPc : Word) (p : Psw) (pa1 pa0 : Nat) : Prop where
  even : isOdd vec = false
  inSpace : vec.toNat + 3 < 65536
  inRam : vec.toNat + 3 < s.cfg.ramSize
  pc : Memory.readWord s.ram vec.toNat = newPc
  psw : Psw.unpack (Memory.readWord s.ram (vec.toNat + 2)) = some p
  first : ramWordAt s p.cm.space (s.spOf p.cm - 2) pa1
  second : ramWordAt s p.cm.space (s.spOf p.cm - 4) pa0

/-- The state after such an entry (R404): PSW from the vector with pm the old cm, the old PSW and then the old PC
pushed on the new mode's stack, PC from the vector. -/
def afterTrap (s : State) (newPc : Word) (p : Psw) (pa1 pa0 : Nat) : State :=
  (((s.withSpOf p.cm (s.spOf p.cm - 4)).withPsw { p with pm := s.psw.cm.toBits }).withRam
    (Memory.writeWord (Memory.writeWord s.ram pa1 s.psw.pack) pa0 s.pcr)).withPc newPc

/-! ## How an instruction ends -/

/-- The instruction ends as an operation of it that answers no value: an abort takes the bus-timeout trap in the same
step (R403), a fatal stop ends the step (R401). -/
def endsAs {α : Type} (r : Res α) (o : Host.Outcome State Fault Refusal) : Prop :=
  (∀ u, r = .abort u → o = complete (.abort u)) ∧ ∀ f, r = .fatal f → o = .fault f

/-- A pattern W or RMW (R159) on a word destination reached in state `t`, ending in `o`: the accesses in their order,
each ending the instruction if it does not answer, and then the result with its flags. `f` gives, from the
destination's old value, the value stored and the flags N, Z, V, C. -/
def modifiesWord (o : Host.Outcome State Fault Refusal) (dst : Operand) (t : State)
    (f : Word → Word × Bool × Bool × Bool × Bool) : Prop :=
  endsAs (resolve dst .word t) o ∧
  ∀ l u, resolve dst .word t = .ok l u →
    endsAs (loadWord l u) o ∧
    ∀ d w, loadWord l u = .ok d w →
      endsAs (storeWord l (f d).1 w) o ∧
      ∀ wrote v, storeWord l (f d).1 w = .ok wrote v →
        o = .next (afterStore wrote v (f d).2.1 (f d).2.2.1 (f d).2.2.2.1 (f d).2.2.2.2)

/-- As `modifiesWord`, for a byte. -/
def modifiesByte (o : Host.Outcome State Fault Refusal) (dst : Operand) (t : State)
    (f : Byte → Byte × Bool × Bool × Bool × Bool) : Prop :=
  endsAs (resolve dst .byte t) o ∧
  ∀ l u, resolve dst .byte t = .ok l u →
    endsAs (loadByte l u) o ∧
    ∀ d w, loadByte l u = .ok d w →
      endsAs (storeByte l (f d).1 w) o ∧
      ∀ wrote v, storeByte l (f d).1 w = .ok wrote v →
        o = .next (afterStore wrote v (f d).2.1 (f d).2.2.1 (f d).2.2.2.1 (f d).2.2.2.2)

/-- A write-only destination (pattern W of R159), never read: its accesses, and the value it gets with the flags. -/
def putsWord (o : Host.Outcome State Fault Refusal) (dst : Operand) (t : State) (x : Word) (n z v c : Bool) : Prop :=
  endsAs (resolve dst .word t) o ∧
  ∀ l u, resolve dst .word t = .ok l u →
    endsAs (storeWord l x u) o ∧ ∀ wrote w, storeWord l x u = .ok wrote w → o = .next (afterStore wrote w n z v c)

/-- As `putsWord`, for a byte. -/
def putsByte (o : Host.Outcome State Fault Refusal) (dst : Operand) (t : State) (x : Byte) (n z v c : Bool) : Prop :=
  endsAs (resolve dst .byte t) o ∧
  ∀ l u, resolve dst .byte t = .ok l u →
    endsAs (storeByte l x u) o ∧ ∀ wrote w, storeByte l x u = .ok wrote w → o = .next (afterStore wrote w n z v c)

/-- The instruction ends as the read of a source operand that does not answer. -/
def endsAtSource (src : Operand) (n : Size) (s : State) (o : Host.Outcome State Fault Refusal) : Prop :=
  match n with
  | .word => endsAs (sourceWord src s) o
  | .byte => endsAs (sourceByte src s) o

/-- The instruction ends as a load of a location that does not answer. -/
def endsAtLoad (l : Loc) (n : Size) (u : State) (o : Host.Outcome State Fault Refusal) : Prop :=
  match n with
  | .word => endsAs (loadWord l u) o
  | .byte => endsAs (loadByte l u) o

/-- The location has been read, which leads from `u` to `w`. -/
def loaded (l : Loc) (n : Size) (u w : State) : Prop :=
  match n with
  | .word => ∃ d, loadWord l u = .ok d w
  | .byte => ∃ d, loadByte l u = .ok d w

/-- The instruction ends as a store that does not answer, whatever value it stores: an abort is that of the location, a
fatal stop is one that every value meets (a value that loads mode 0b10 into the mapped PSW is the one other, R90). -/
def endsAtAnyStore {α : Type} (store : α → Res Bool) (o : Host.Outcome State Fault Refusal) : Prop :=
  (∀ x u, store x = .abort u → o = complete (.abort u)) ∧ ∀ f, (∀ x, store x = .fatal f) → o = .fault f

/-- As `endsAtAnyStore`, of a store of the size `n` to a location. -/
def endsAtStore (l : Loc) (n : Size) (w : State) (o : Host.Outcome State Fault Refusal) : Prop :=
  match n with
  | .word => endsAtAnyStore (fun x => storeWord l x w) o
  | .byte => endsAtAnyStore (fun x => storeByte l x w) o

/-- Every store of the size `n` to a location answers, unless it loads mode 0b10 into the mapped PSW (R28, R90). -/
def storeAnswers (l : Loc) (n : Size) (w : State) : Prop :=
  match n with
  | .word => ∀ x : Word, (∃ wrote v, storeWord l x w = .ok wrote v) ∨
      (storesPsw l n w ∧ storeWord l x w = .fatal (.invalidMode ⟨w.ir, w.currentPc⟩))
  | .byte => ∀ x : Byte, (∃ wrote v, storeByte l x w = .ok wrote v) ∨
      (storesPsw l n w ∧ storeByte l x w = .fatal (.invalidMode ⟨w.ir, w.currentPc⟩))

/-- The target of a branch (R113): the exact sum of PC and twice the signed offset, truncated. -/
def branchTarget (s : State) (offset : BitVec 8) : Word := BitVec.ofInt 16 ((s.pcr.toNat : Int) + 2 * offset.toInt)

/-- A branch (R220): its word, and where it leads when its condition holds and when it fails. -/
def branchesWhen (i : Instr) (word : Word) (offset : BitVec 8) (cond : State → Prop) : Prop :=
  decodeWord word = some i ∧
    ∀ s, (cond s → exec i s = .next (s.withPc (branchTarget s offset))) ∧ (¬cond s → exec i s = .next s)

/-- The state an instruction starts in once its word `w` has been fetched (R140, R141): the boundary's offer is gone,
`currentPc` is the old PC and PC is past the word. -/
def fetched (s : State) (w : Word) : State := ((s.beginStep.withCurrentPc s.pcr).withPc (s.pcr + 2)).withIr (some w)

/-- The step reaches its fetch (R140): Running, no offer accepted at this boundary, T clear. -/
def willFetch (s : State) : Prop := s.run = .running ∧ s.acceptedOffer = none ∧ s.psw.t = false

/-- The physical address of an MMU register (R84). -/
def mmuAddress : MmuReg → Nat
  | .sr0 => 0o777572
  | .sr1 => 0o777574
  | .sr2 => 0o777576
  | .pdr .kernel page => 0o772300 + 2 * page.toNat
  | .par .kernel page => 0o772340 + 2 * page.toNat
  | .pdr .user page => 0o777600 + 2 * page.toNat
  | .par .user page => 0o777640 + 2 * page.toNat

/-- The ranges of unknown words of each profile, both ends included (R124). -/
def unknownRanges : Profile → List (Nat × Nat)
  | .doc =>
    [(0o000002, 0o000004), (0o000007, 0o000077), (0o000210, 0o000277), (0o003400, 0o003777), (0o005100, 0o005177),
      (0o005300, 0o005677), (0o006000, 0o006277), (0o006400, 0o006477), (0o007000, 0o007777)] ++
    [(0o073000, 0o076777), (0o100400, 0o100777), (0o102000, 0o102777), (0o104000, 0o104777), (0o105100, 0o105177),
      (0o105300, 0o105677), (0o106000, 0o107777), (0o170000, 0o177777)]
  | .ext =>
    [(0o000007, 0o000077), (0o000210, 0o000227), (0o007000, 0o007777), (0o075000, 0o076777), (0o106400, 0o106477),
      (0o106700, 0o107777), (0o170000, 0o177777)]

end Sys2Proof.Machine
end

