-- ==== Sys2Proof/Certificates/Slice0/Obligations.lean ====
section
/-! DEFINITION. The statements made about the model: each is a `Prop` whose docstring names the rule of spec/ it
formalises. -/

open Sys2Proof Sys2Proof.Machine

/-! ## Encoding -/

/-- R130 and one word for each format of R111, written out bit by bit from R112 and R121, R122. -/
def Obligations.WrittenWordsDecode : Prop :=
  decode .doc 0b0001_000_000_000_001#16 = .ok (.mov ⟨.register, .r0⟩ ⟨.register, .r1⟩) ∧
  decode .doc 0b0000100_101_110_001#16 = .ok (.jsr .r5 ⟨.index, .r1⟩) ∧
  decode .doc 0b0111010_000_010_111#16 = .ok (.ash .r0 ⟨.autoInc, .pc⟩) ∧
  decode .doc 0b0111111_000_000001#16 = .ok (.sob .r0 1) ∧
  decode .doc 0b10000011_00000001#16 = .ok (.blos 1) ∧
  decode .doc 0b0000000011_100_110#16 = .ok (.swab ⟨.autoDec, .sp⟩) ∧
  decode .doc 0b0000110101_001_001#16 = .ok (.mfpi ⟨.deferred, .r1⟩) ∧
  decode .doc 0b0000000010000_101#16 = .ok (.rts .r5) ∧
  decode .doc 0b0000000000000101#16 = .ok .reset ∧
  decode .ext 0b0000110100_000010#16 = .ok (.mark 2) ∧
  decode .ext 0b0000000010011_111#16 = .ok (.spl 7) ∧
  decode .ext 0b000000001010_0101#16 = .ok (.ccc 5) ∧
  decode .ext 0b10001000_00000111#16 = .ok (.emt 7) ∧
  decode .doc 0b10001000_00000111#16 = .error (.unknownInstruction 0o104007)

/-- R110, R117, R120: under a profile that has the instruction, its word decodes to it with every operand, and so do its
two bytes, low byte first, with the rest of the bytes left over. -/
def Obligations.DecodeOfEncode : Prop :=
  ∀ (p : Profile) (i : Instr), i.inProfile p = true →
    decode p (encode i) = .ok i ∧ ∀ rest, decodeBytes p (encodeBytes i ++ rest) = .ok (i, rest)

/-- R120: each instruction has one word, so two words never decode to one instruction, and what decodes is in the
profile (R330). -/
def Obligations.EncodeOfDecode : Prop :=
  ∀ (p : Profile) (w : Word) (i : Instr), decode p w = .ok i → encode i = w ∧ i.inProfile p = true

/-- R123, R124: the words a profile rejects are exactly those of its list of ranges. -/
def Obligations.UnknownWords : Prop :=
  ∀ (p : Profile) (w : Word),
    decode p w = .error (.unknownInstruction w) ↔ ∃ r ∈ unknownRanges p, r.1 ≤ w.toNat ∧ w.toNat ≤ r.2

/-! ## Reset and registers -/

/-- R41, R450: `init()` sets every register slot, the PSW, every PAR and PDR, `mmuEnabled`, the run state and
`currentPc`, and keeps RAM and the parameters. The last two lines are the model's choice, not the spec's: the reset RAM
lists nothing (log 4) and no offer is pending at reset (log 7). -/
def Obligations.InitState : Prop :=
  (∀ s : State,
    let t := s.init
    (t.bank0 = ⟨0, 0, 0, 0, 0, 0⟩ ∧ t.bank1 = ⟨0, 0, 0, 0, 0, 0⟩ ∧ t.spk = 0 ∧ t.sps = 0 ∧ t.spu = 0 ∧ t.pcr = 0) ∧
    (t.psw.pack = 0 ∧ t.psw.cm = .kernel) ∧
    (∀ set page, t.mmu.par set page = 0 ∧ t.mmu.pdr set page = 0) ∧ t.mmu.enabled = false ∧
    t.run = .running ∧ t.currentPc = 0 ∧ t.ram = s.ram ∧ t.cfg = s.cfg) ∧
  State.reset.init = State.reset ∧
  State.reset.ram = [] ∧ State.reset.offers = []

/-- R22: which physical slot each logical register reads. -/
def Obligations.LogicalRegistersFollowThePsw : Prop :=
  ∀ s : State,
    (s.psw.rs = false →
      readReg s .r0 = s.bank0.r0 ∧ readReg s .r1 = s.bank0.r1 ∧ readReg s .r2 = s.bank0.r2 ∧
      readReg s .r3 = s.bank0.r3 ∧ readReg s .r4 = s.bank0.r4 ∧ readReg s .r5 = s.bank0.r5) ∧
    (s.psw.rs = true →
      readReg s .r0 = s.bank1.r0 ∧ readReg s .r1 = s.bank1.r1 ∧ readReg s .r2 = s.bank1.r2 ∧
      readReg s .r3 = s.bank1.r3 ∧ readReg s .r4 = s.bank1.r4 ∧ readReg s .r5 = s.bank1.r5) ∧
    (s.psw.cm = .kernel → readReg s .sp = s.spk) ∧
    (s.psw.cm = .supervisor → readReg s .sp = s.sps) ∧
    (s.psw.cm = .user → readReg s .sp = s.spu) ∧
    readReg s .pc = s.pcr

/-- R23: a register write changes the slot that register reads and nothing else, neither another logical register nor
a hidden slot nor any other state; no register discards a write (R21). -/
def Obligations.RegisterWriteTouchesOneSlot : Prop :=
  ∀ (r : Reg) (v : Word) (s : State),
    let t := writeReg r v s
    readReg t r = v ∧ (∀ q, q ≠ r → readReg t q = readReg s q) ∧ hiddenSlotsSame s t ∧
    t.psw = s.psw ∧ t.mmu = s.mmu ∧ t.ram = s.ram ∧ t.history = s.history ∧ controlSame s t

/-- R25: a load of the PSW changes no slot, only which slots R0-R6 name; a change back makes the old values visible. -/
def Obligations.BankIsolation : Prop :=
  (∀ (w : Word) (s t : State), loadPsw w s = .ok () t →
    t.bank0 = s.bank0 ∧ t.bank1 = s.bank1 ∧ t.spk = s.spk ∧ t.sps = s.sps ∧ t.spu = s.spu ∧ t.pcr = s.pcr) ∧
  (∀ (s : State) (p : Psw) (r q : Reg) (v : Word), p.cm ≠ s.psw.cm → p.rs ≠ s.psw.rs → q ≠ .pc →
    readReg ((writeReg r v (s.withPsw p)).withPsw s.psw) q = readReg s q)

/-- R26, R27, R28: where each field of the PSW stands in its word; packing then unpacking gives the PSW back;
unpacking fails exactly for current mode 0b10, and drops bits 10:8. -/
def Obligations.PswPacking : Prop :=
  (∀ p : Psw, Psw.unpack p.pack = some p ∧
    p.pack.extractLsb' 14 2 = p.cm.toBits ∧ p.pack.extractLsb' 12 2 = p.pm ∧ p.pack.getLsbD 11 = p.rs ∧
    p.pack.extractLsb' 8 3 = 0#3 ∧ p.pack.extractLsb' 5 3 = p.pri ∧ p.pack.getLsbD 4 = p.t ∧
    p.pack.getLsbD 3 = p.n ∧ p.pack.getLsbD 2 = p.z ∧ p.pack.getLsbD 1 = p.v ∧ p.pack.getLsbD 0 = p.c) ∧
  ∀ w : Word, (Psw.unpack w = none ↔ w.extractLsb' 14 2 = 0b10#2) ∧
    ∀ p, Psw.unpack w = some p → p.pack = w &&& 0o174377

/-- R39, R40: the index map of host register access: 0-5 the slots of bank 0, 6-11 those of bank 1, 12 SPU, 13 SPS, 14
SPK, 15 PC, whatever the PSW. A write then a read of the same index gives the value and changes no other slot and no
other state. Any other index stops with InvalidRegisterIndex. The map is marked a decision of the spec (D35), and the
annotation of that stop, `currentPc` and no word, is the model's inference (log 19). -/
def Obligations.HostRegisterAccess : Prop :=
  ∀ (k : Nat) (v : Word) (s : State),
    ((List.range 16).map (readRegister · s) =
      ([s.bank0.r0, s.bank0.r1, s.bank0.r2, s.bank0.r3, s.bank0.r4, s.bank0.r5] ++
        [s.bank1.r0, s.bank1.r1, s.bank1.r2, s.bank1.r3, s.bank1.r4, s.bank1.r5] ++
        [s.spu, s.sps, s.spk, s.pcr]).map Except.ok) ∧
    (k ≤ 15 → ∃ t, writeRegister k v s = .next t ∧ readRegister k t = .ok v ∧
      (∀ j, j ≠ k → readRegister j t = readRegister j s) ∧
      t.psw = s.psw ∧ t.mmu = s.mmu ∧ t.ram = s.ram ∧ t.history = s.history ∧ t.draws = s.draws ∧ controlSame s t) ∧
    (15 < k → writeRegister k v s = .fault (.invalidRegisterIndex k ⟨none, s.currentPc⟩) ∧
      readRegister k s = .error (.invalidRegisterIndex k ⟨none, s.currentPc⟩))

/-! ## Translation and the bus -/

/-- R74: with the MMU off, both translation modes pass an address through below 0o160000 and put it in the I/O page
from there up. -/
def Obligations.TranslationWithTheMmuOff : Prop :=
  ∀ (s : State) (set : PageSet) (va : Word), s.mmu.enabled = false →
    (va.toNat < 0o160000 → s.translate (.paged set) va = va.toNat) ∧
    (0o160000 ≤ va.toNat → s.translate (.paged set) va = va.toNat ||| 0o600000 ∧
      s.translate (.paged set) va = va.toNat + 0o600000 ∧
      0o760000 ≤ s.translate (.paged set) va ∧ s.translate (.paged set) va ≤ 0o777777)

/-- R29, R73, R75, R76: the current space is that of the mode, and Supervisor has none. With the MMU on, the
sum of the page's PAR times 64 and the low 13 bits, untruncated; `Direct` is the address itself either way; no PDR
matters. -/
def Obligations.TranslationWithTheMmuOn : Prop :=
  ∀ (s : State) (set : PageSet) (va : Word),
    (s.mmu.enabled = true →
      s.translate (.paged set) va = (s.mmu.par set (va.extractLsb' 13 3)).toNat * 64 + va.toNat % 8192 ∧
      s.translate (.paged set) va ≤ 0o1017677) ∧
    s.translate .direct va = va.toNat ∧
    ((s.psw.cm = .kernel → s.curSpace = some (.paged .kernel)) ∧ (s.psw.cm = .user → s.curSpace = some (.paged .user)) ∧
      (s.psw.cm = .supervisor → s.curSpace = none)) ∧
    (∀ (sp : Space) (k : PageSet) (page : BitVec 3) (v : Word),
      (s.withMmu (s.mmu.withPdr k page v)).translate sp va = s.translate sp va) ∧
    (s.translate (.paged set) va) % 2 = va.toNat % 2

/-- R87: SR1 and SR2 read 0 and ignore writes. R89: a PDR keeps all 16 bits of what is written, a read returns it, and
no translation changes. -/
def Obligations.StatusRegistersAndDescriptors : Prop :=
  ∀ (s : State) (v : Word), s.cfg.ramSize ≤ Config.ioBase →
    (∀ pa, pa = 0o777574 ∨ pa = 0o777576 → busRead pa s = .ok 0 s ∧ busWrite pa v s = .ok false s) ∧
    ∀ (set : PageSet) (page : BitVec 3),
      ∃ t, busWrite (mmuAddress (.pdr set page)) v s = .ok false t ∧
        busRead (mmuAddress (.pdr set page)) t = .ok v t ∧
        (∀ sp va, t.translate sp va = s.translate sp va) ∧
        t = s.withMmu t.mmu ∧ t.mmu.enabled = s.mmu.enabled ∧ (∀ k q, t.mmu.par k q = s.mmu.par k q) ∧
        ∀ k q, (k, q) ≠ (set, page) → t.mmu.pdr k q = s.mmu.pdr k q

/-- R86, R88, R463: a PAR keeps bits 11:0 and the next translation of its page uses them; SR0 bit 0 turns translation on
and off, and the other bits an SR0 read returns are a free value (log 8). -/
def Obligations.PageAddressesAndEnable : Prop :=
  ∀ (s : State) (v : Word), s.cfg.ramSize ≤ Config.ioBase →
    (∀ (set : PageSet) (page : BitVec 3),
      ∃ t, busWrite (mmuAddress (.par set page)) v s = .ok false t ∧
        busRead (mmuAddress (.par set page)) t = .ok (v &&& 0o7777) t ∧
        t = s.withMmu t.mmu ∧ t.mmu.enabled = s.mmu.enabled ∧ (∀ k q, t.mmu.pdr k q = s.mmu.pdr k q) ∧
        (∀ k q, (k, q) ≠ (set, page) → t.mmu.par k q = s.mmu.par k q) ∧
        ∀ va : Word, s.mmu.enabled = true → va.extractLsb' 13 3 = page →
          t.translate (.paged set) va = v.toNat % 4096 * 64 + va.toNat % 8192) ∧
    ∃ t, busWrite 0o777572 v s = .ok false t ∧ t = s.withMmu t.mmu ∧ t.mmu.enabled = v.getLsbD 0 ∧
      (∀ k q, t.mmu.par k q = s.mmu.par k q ∧ t.mmu.pdr k q = s.mmu.pdr k q) ∧
      ∃ w u, busRead 0o777572 t = .ok w u ∧ w.getLsbD 0 = v.getLsbD 0 ∧ u = t.withDraws u.draws

/-- R84: the MMU claims exactly the 35 word addresses of the window, each for its own register. -/
def Obligations.MmuWindow : Prop :=
  ∀ (pa : Nat) (r : MmuReg), mmuRegAt pa = some r ↔ pa = mmuAddress r

/-- R65, R66, R67, R70, R72: RAM answers below `RAM_SIZE` whatever is mapped there; a stored word reads back, its low
byte at the even address and its high byte above; every other byte keeps its value, and so does every other state. -/
def Obligations.RamWordRoundTrip : Prop :=
  ∀ (s : State) (pa : Nat) (v : Word), Memory.wf s.ram = true → pa < s.cfg.ramSize →
    ∃ t, busWrite pa v s = .ok false t ∧ busRead pa t = .ok v t ∧ t = s.withRam t.ram ∧
      Memory.wf t.ram = true ∧ Memory.read t.ram pa = v.extractLsb' 0 8 ∧
      Memory.read t.ram (pa + 1) = v.extractLsb' 8 8 ∧
      ∀ a, a ≠ pa → a ≠ pa + 1 → Memory.read t.ram a = Memory.read s.ram a

/-- R80, R81, R154: a byte store changes one byte of RAM, at either half of its word, and nothing else, and the byte
reads back; a byte store to a register keeps bits 15:8, and a byte read of a register gives bits 7:0. -/
def Obligations.ByteStoreReplacesOneByte : Prop :=
  (∀ (s : State) (va : Word) (sp : Space) (v : Byte), Memory.wf s.ram = true → s.cfg.ramSize % 2 = 0 →
    s.translate sp va < s.cfg.ramSize →
    ∃ t, memWriteByte va v (some sp) s = .ok false t ∧ memReadByte va (some sp) t = .ok v t ∧
      t = s.withRam t.ram ∧ Memory.wf t.ram = true ∧
      ∀ a, a ≠ s.translate sp va → Memory.read t.ram a = Memory.read s.ram a) ∧
  ∀ (s : State) (r : Reg) (v : Byte),
    ∃ t, storeByte (.reg r) v s = .ok false t ∧ readReg t r = (readReg s r).extractLsb' 8 8 ++ v ∧
      loadByte (.reg r) t = .ok v t ∧ t = writeReg r ((readReg s r).extractLsb' 8 8 ++ v) s

/-- R69, R77, R82: the accesses that do not answer. An odd word address stops before translation, a mode without
translation stops, an unclaimed address aborts below `IO_BASE` and stops from there up; a fatal stop carries the
word fetched and `currentPc` (R402). R68, R70: an access to a claimed device address is recorded in the bus history, in
issue order, with its value; a write changes no core state; the value read is free (log 8). -/
def Obligations.StopsAndDeviceAccesses : Prop :=
  ∀ (s : State) (va v : Word) (m : Option Space) (pa : Nat) (b : Byte),
    (isOdd va = true → memReadWord va m s = .fatal (.oddAddress ⟨s.ir, s.currentPc⟩) ∧
      memWriteWord va v m s = .fatal (.oddAddress ⟨s.ir, s.currentPc⟩)) ∧
    (isOdd va = false → memReadWord va none s = .fatal (.invalidMode ⟨s.ir, s.currentPc⟩) ∧
      memWriteWord va v none s = .fatal (.invalidMode ⟨s.ir, s.currentPc⟩)) ∧
    (memReadByte va none s = .fatal (.invalidMode ⟨s.ir, s.currentPc⟩) ∧
      memWriteByte va b none s = .fatal (.invalidMode ⟨s.ir, s.currentPc⟩)) ∧
    (unclaimed s pa → pa < 0o760000 → busRead pa s = .abort s ∧ busWrite pa v s = .abort s) ∧
    (unclaimed s pa → 0o760000 ≤ pa → busRead pa s = .fatal (.busError ⟨s.ir, s.currentPc⟩) ∧
      busWrite pa v s = .fatal (.busError ⟨s.ir, s.currentPc⟩)) ∧
    (pa ∈ s.cfg.deviceClaims → s.cfg.ramSize ≤ pa → mmuRegAt pa = none →
      ¬(s.cfg.pswMapped = true ∧ pa = pswAddress) →
      busWrite pa v s = .ok false (s.withHistory (s.history ++ [.deviceWrite pa v])) ∧
      ∃ w k, busRead pa s = .ok w ((s.withHistory (s.history ++ [.deviceRead pa w])).withDraws k))

/-- R90: with `PSW_MAPPED`, 0o777776 reads the PSW word and a store loads it, T apart, and says so; mode 0b10 stops.
Without it the address is a bus error. -/
def Obligations.MappedPsw : Prop :=
  ∀ (s : State) (v : Word), s.cfg.ramSize ≤ Config.ioBase → 0o777776 ∉ s.cfg.deviceClaims →
    (s.cfg.pswMapped = true →
      busRead 0o777776 s = .ok s.psw.pack s ∧
      (∀ p, Psw.unpack v = some p → busWrite 0o777776 v s = .ok true (s.withPsw { p with t := s.psw.t })) ∧
      (Psw.unpack v = none → busWrite 0o777776 v s = .fatal (.invalidMode ⟨s.ir, s.currentPc⟩))) ∧
    (s.cfg.pswMapped = false →
      busRead 0o777776 s = .fatal (.busError ⟨s.ir, s.currentPc⟩) ∧
      busWrite 0o777776 v s = .fatal (.busError ⟨s.ir, s.currentPc⟩))

/-! ## Operands -/

/-- R145, R146, R147, R149, R153: modes 0, 1, 2 and 4, which make no access when they are resolved, with the step of a
byte and of a word operand. The operand of mode 0 is the register itself, and a write of R7 is a jump; the operand of
the others is the memory word or byte at the address, in the current space (R144). -/
def Obligations.RegisterModes : Prop :=
  ∀ (r : Reg) (n : Size) (s : State),
    let d : Word := if n = .byte ∧ r ≠ .sp ∧ r ≠ .pc then 1 else 2
    resolve ⟨.register, r⟩ n s = .ok (.reg r) s ∧
    resolve ⟨.deferred, r⟩ n s = .ok (.mem (readReg s r)) s ∧
    resolve ⟨.autoInc, r⟩ n s = .ok (.mem (readReg s r)) (writeReg r (readReg s r + d) s) ∧
    resolve ⟨.autoDec, r⟩ n s = .ok (.mem (readReg s r - d)) (writeReg r (readReg s r - d) s) ∧
    resolve ⟨.autoInc, .pc⟩ n s = .ok (.mem s.pcr) (s.withPc (s.pcr + 2)) ∧
    loadWord (.reg r) s = .ok (readReg s r) s ∧
    ∀ v a : Word,
      storeWord (.reg r) v s = .ok false (writeReg r v s) ∧ storeWord (.reg .pc) v s = .ok false (s.withPc v) ∧
      loadWord (.mem a) s = memReadWord a s.curSpace s ∧ storeWord (.mem a) v s = memWriteWord a v s.curSpace s ∧
      ∀ b : Byte, loadByte (.mem a) s = memReadByte a s.curSpace s ∧
        storeByte (.mem a) b s = memWriteByte a b s.curSpace s

/-- R148, R150, R151, R152: modes 3, 5, 6 and 7 with their pointer and displacement words in RAM. The register of modes
6 and 7 is read after the displacement word has moved PC. -/
def Obligations.PointerAndIndexModes : Prop :=
  ∀ (r : Reg) (n : Size) (s : State) (pa qa : Nat),
    (ramWordAt s s.curSpace (readReg s r) pa →
      resolve ⟨.autoIncDeferred, r⟩ n s =
        .ok (.mem (Memory.readWord s.ram pa)) (writeReg r (readReg s r + 2) s)) ∧
    (ramWordAt s s.curSpace (readReg s r - 2) pa →
      resolve ⟨.autoDecDeferred, r⟩ n s =
        .ok (.mem (Memory.readWord s.ram pa)) (writeReg r (readReg s r - 2) s)) ∧
    (ramWordAt s s.curSpace s.pcr pa →
      let t := s.withPc (s.pcr + 2)
      let a := readReg t r + Memory.readWord s.ram pa
      resolve ⟨.index, r⟩ n s = .ok (.mem a) t ∧
      (ramWordAt s s.curSpace a qa →
        resolve ⟨.indexDeferred, r⟩ n s = .ok (.mem (Memory.readWord s.ram qa)) t))

/-- R156: a push stores at SP - 2 and a pop reads at SP and adds 2, SP being the current mode's; a push then a pop gives
the value back with every register as it was. -/
def Obligations.PushThenPop : Prop :=
  ∀ (v : Word) (s : State) (pa : Nat), Memory.wf s.ram = true →
    ramWordAt s s.curSpace (readReg s .sp - 2) pa →
    ∃ t, push v s = .ok false t ∧
      t = (writeReg .sp (readReg s .sp - 2) s).withRam (Memory.writeWord s.ram pa v) ∧
      pop t = .ok v (s.withRam t.ram)

/-- R157, R160, R403: an operand access that does not answer ends the instruction as that access ends. For every
instruction that stores through a destination specifier: the read of its source, the resolution of its destination, the
read of the destination where the instruction reads it, and the store where it does not. A location that has been read
answers the store after it, but for a mode 0b10 stored to the mapped PSW; what that store does is said of each
instruction's own value in AddAndSubtract, BitwiseInstructions, SingleOperandInstructions, ExtensionArithmetic and
ExtensionShifts. TST and TSTB: the read of the destination. The register-source instructions: the read of the
source. -/
def Obligations.OperandAccessEndsTheInstruction : Prop :=
  (∀ (i : Instr) (src : Option Operand) (dst : Operand) (n : Size) (s : State), storesTo i = some (src, dst, n) →
    (∀ a, src = some a → endsAtSource a n s (exec i s)) ∧
    ∀ t, sourceRead src n s t →
      endsAs (resolve dst n t) (exec i s) ∧
      ∀ l u, resolve dst n t = .ok l u →
        (writesOnly i → endsAtStore l n u (exec i s)) ∧
        (¬writesOnly i → endsAtLoad l n u (exec i s) ∧ ∀ w, loaded l n u w → storeAnswers l n w)) ∧
  (∀ (dst : Operand) (s : State), endsAs (sourceWord dst s) (exec (.tst dst) s) ∧
    endsAs (sourceByte dst s) (exec (.tstb dst) s)) ∧
  (∀ (r : Reg) (src : Operand) (s : State), ∀ i ∈ [Instr.mul r src, .div r src, .ash r src, .ashc r src],
    endsAs (sourceWord src s) (exec i s))

/-- R160, R403: what an aborted operand leaves: no flag, no memory byte, no MMU register and no hidden slot has changed,
only the registers its own specifier steps, and PC. -/
def Obligations.AbortedOperandKeepsTheRest : Prop :=
  ∀ (o : Operand) (n : Size) (s u : State),
    (resolve o n s = .abort u ∨ (n = .word ∧ sourceWord o s = .abort u) ∨ (n = .byte ∧ sourceByte o s = .abort u)) →
    u.psw = s.psw ∧ u.mmu = s.mmu ∧ u.ram = s.ram ∧ controlSame s u ∧ registersSame (steps o) s u ∧
      s.history <+: u.history

/-! ## Double-operand instructions -/

/-- R171: MOV. The accesses in their order, each ending the instruction if it does not answer, and the result with its
flags: N and Z from the source, V clear, C unchanged. -/
def Obligations.MovMovesTheWord : Prop :=
  ∀ (src dst : Operand) (s : State),
    let o := exec (.mov src dst) s
    decodeWord (0b0001#4 ++ src.toBits ++ dst.toBits) = some (.mov src dst) ∧
    endsAs (sourceWord src s) o ∧
    ∀ x t, sourceWord src s = .ok x t →
      endsAs (resolve dst .word t) o ∧
      ∀ l u, resolve dst .word t = .ok l u →
        endsAs (storeWord l x u) o ∧
        ∀ wrote v, storeWord l x u = .ok wrote v →
          o = .next (afterStore wrote v (x.getLsbD 15) (decide (x = 0)) false s.psw.c)

/-- R173, R174: CMP and CMPB. Source minus destination sets the four flags; nothing is stored. -/
def Obligations.CompareSetsTheFlags : Prop :=
  ∀ (src dst : Operand) (s : State),
    (decodeWord (0b0010#4 ++ src.toBits ++ dst.toBits) = some (.cmp src dst) ∧
     decodeWord (0b1010#4 ++ src.toBits ++ dst.toBits) = some (.cmpb src dst)) ∧
    (let o := exec (.cmp src dst) s
     endsAs (sourceWord src s) o ∧
     ∀ x t, sourceWord src s = .ok x t →
       endsAs (sourceWord dst t) o ∧
       ∀ d u, sourceWord dst t = .ok d u →
         let r := x - d
         o = .next (u.withFlags (r.getLsbD 15) (decide (r = 0))
           (x.getLsbD 15 != d.getLsbD 15 && r.getLsbD 15 != x.getLsbD 15) (decide (x.toNat < d.toNat)))) ∧
    (let o := exec (.cmpb src dst) s
     endsAs (sourceByte src s) o ∧
     ∀ x t, sourceByte src s = .ok x t →
       endsAs (sourceByte dst t) o ∧
       ∀ d u, sourceByte dst t = .ok d u →
         let r := x - d
         o = .next (u.withFlags (r.getLsbD 7) (decide (r = 0))
           (x.getLsbD 7 != d.getLsbD 7 && r.getLsbD 7 != x.getLsbD 7) (decide (x.toNat < d.toNat))))

/-- R175, R176: BIT and BITB. The AND sets N and Z, V is clear, C is unchanged; nothing is stored. -/
def Obligations.BitTestSetsTheFlags : Prop :=
  ∀ (src dst : Operand) (s : State),
    (decodeWord (0b0011#4 ++ src.toBits ++ dst.toBits) = some (.bit src dst) ∧
     decodeWord (0b1011#4 ++ src.toBits ++ dst.toBits) = some (.bitb src dst)) ∧
    (let o := exec (.bit src dst) s
     endsAs (sourceWord src s) o ∧
     ∀ x t, sourceWord src s = .ok x t →
       endsAs (sourceWord dst t) o ∧
       ∀ d u, sourceWord dst t = .ok d u →
         o = .next (u.withFlags ((x &&& d).getLsbD 15) (decide (x &&& d = 0)) false s.psw.c)) ∧
    (let o := exec (.bitb src dst) s
     endsAs (sourceByte src s) o ∧
     ∀ x t, sourceByte src s = .ok x t →
       endsAs (sourceByte dst t) o ∧
       ∀ d u, sourceByte dst t = .ok d u →
         o = .next (u.withFlags ((x &&& d).getLsbD 7) (decide (x &&& d = 0)) false s.psw.c))

/-- R182, R183: ADD, with the carry of the exact sum, and SUB, destination minus source with the borrow. The
destination is resolved once, read, and written at the same location. -/
def Obligations.AddAndSubtract : Prop :=
  ∀ (src dst : Operand) (s : State),
    (decodeWord (0b0110#4 ++ src.toBits ++ dst.toBits) = some (.add src dst) ∧
     decodeWord (0b1110#4 ++ src.toBits ++ dst.toBits) = some (.sub src dst)) ∧
    (let o := exec (.add src dst) s
     endsAs (sourceWord src s) o ∧
     ∀ x t, sourceWord src s = .ok x t →
       endsAs (resolve dst .word t) o ∧
       ∀ l u, resolve dst .word t = .ok l u →
         endsAs (loadWord l u) o ∧
         ∀ d w, loadWord l u = .ok d w →
           let r := BitVec.ofNat 16 (x.toNat + d.toNat)
           endsAs (storeWord l r w) o ∧
           ∀ wrote v, storeWord l r w = .ok wrote v →
             o = .next (afterStore wrote v (r.getLsbD 15) (decide (r = 0))
               (x.getLsbD 15 == d.getLsbD 15 && r.getLsbD 15 != x.getLsbD 15)
               (decide (0x10000 ≤ x.toNat + d.toNat)))) ∧
    (let o := exec (.sub src dst) s
     endsAs (sourceWord src s) o ∧
     ∀ x t, sourceWord src s = .ok x t →
       endsAs (resolve dst .word t) o ∧
       ∀ l u, resolve dst .word t = .ok l u →
         endsAs (loadWord l u) o ∧
         ∀ d w, loadWord l u = .ok d w →
           let r := d - x
           endsAs (storeWord l r w) o ∧
           ∀ wrote v, storeWord l r w = .ok wrote v →
             o = .next (afterStore wrote v (r.getLsbD 15) (decide (r = 0))
               (x.getLsbD 15 != d.getLsbD 15 && r.getLsbD 15 == x.getLsbD 15) (decide (d.toNat < x.toNat))))

/-- R177, R180: BIC and BICB. R178, R179, R181: BIS and BISB, whose value and flags follow `BIS_MODE`. R352: XOR. The
flags are N and Z of the result, V clear, C unchanged. Each access of these instructions that does not answer ends them
(R160). -/
def Obligations.BitwiseInstructions : Prop :=
  ∀ (src dst : Operand) (r : Reg) (s : State),
    (endsAs (sourceWord src s) (exec (.bic src dst) s) ∧ endsAs (sourceWord src s) (exec (.bis src dst) s) ∧
      ∀ x t, sourceWord src s = .ok x t →
        modifiesWord (exec (.bic src dst) s) dst t (fun d =>
          (~~~x &&& d, (~~~x &&& d).getLsbD 15, decide (~~~x &&& d = 0), false, s.psw.c)) ∧
        modifiesWord (exec (.bis src dst) s) dst t (fun d =>
          let f := if s.cfg.bisMode = .or then x ||| d else x ^^^ d
          (if s.cfg.bisMode = .xor then x ^^^ d else x ||| d, f.getLsbD 15, decide (f = 0), false, s.psw.c))) ∧
    (endsAs (sourceByte src s) (exec (.bicb src dst) s) ∧ endsAs (sourceByte src s) (exec (.bisb src dst) s) ∧
      ∀ x t, sourceByte src s = .ok x t →
        modifiesByte (exec (.bicb src dst) s) dst t (fun d =>
          (~~~x &&& d, (~~~x &&& d).getLsbD 7, decide (~~~x &&& d = 0), false, s.psw.c)) ∧
        modifiesByte (exec (.bisb src dst) s) dst t (fun d =>
          let f := if s.cfg.bisMode = .or then x ||| d else x ^^^ d
          (if s.cfg.bisMode = .xor then x ^^^ d else x ||| d, f.getLsbD 7, decide (f = 0), false, s.psw.c))) ∧
    modifiesWord (exec (.xor r dst) s) dst s (fun d =>
      (readReg s r ^^^ d, (readReg s r ^^^ d).getLsbD 15, decide (readReg s r ^^^ d = 0), false, s.psw.c))

/-- R172: MOVB. A register takes the byte sign-extended to 16 bits (the spec's choice, D22), memory takes one byte. Each
access that does not answer ends the instruction (R160). -/
def Obligations.MovbExtendsIntoARegister : Prop :=
  ∀ (src dst : Operand) (s : State),
    let o := exec (.movb src dst) s
    endsAs (sourceByte src s) o ∧
    ∀ x t, sourceByte src s = .ok x t →
      (∀ r, dst = ⟨.register, r⟩ →
        o = .next ((writeReg r (BitVec.ofInt 16 x.toInt) t).withFlags (x.getLsbD 7) (decide (x = 0)) false s.psw.c)) ∧
      endsAs (resolve dst .byte t) o ∧
      ∀ va u, resolve dst .byte t = .ok (.mem va) u →
        endsAs (memWriteByte va x u.curSpace u) o ∧
        ∀ wrote v, memWriteByte va x u.curSpace u = .ok wrote v →
          o = .next (afterStore wrote v (x.getLsbD 7) (decide (x = 0)) false s.psw.c)

/-! ## Register-source arithmetic -/

/-- R200, R202: MUL. The pair takes the exact signed product, high word first, whatever the register; the flags are
those of the product. -/
def Obligations.MulGivesTheExactProduct : Prop :=
  ∀ (r : Reg) (src : Operand) (s t : State) (x : Word), sourceWord src s = .ok x t →
    let p : Int := (readReg t r).toInt * x.toInt
    ((pairHigh r).toBits = r.toBits &&& 6 ∧ (pairLow r).toBits = r.toBits ||| 1) ∧
    ∃ u, exec (.mul r src) s = .next (u.withFlags (decide (p < 0)) (decide (p = 0)) false
        (decide (p < -32768 ∨ 32767 < p))) ∧
      u = writeReg (pairLow r) (BitVec.ofInt 16 p) (writeReg (pairHigh r) (BitVec.ofInt 16 (p / 65536)) t) ∧
      (readReg u (pairHigh r) ++ readReg u (pairLow r) : BitVec (16 + 16)).toInt = p

/-- R201, R203: DIV, by its three cases. The quotient `q` and remainder `m` of `a = q * b + m` are those of
`DIV_ROUNDING`; after an overflow the registers are unchanged and N is a free value (log 8). -/
def Obligations.DivByItsThreeCases : Prop :=
  ∀ (r : Reg) (src : Operand) (s t : State) (x : Word), sourceWord src s = .ok x t →
    let a : Int := (readReg t (pairHigh r) ++ readReg t (pairLow r) : BitVec (16 + 16)).toInt
    let b : Int := x.toInt
    (b = 0 → exec (.div r src) s = .next (t.withFlags false true true true)) ∧
    (b ≠ 0 → ∃ q m : Int, a = q * b + m ∧
      (t.cfg.divRounding = .trunc → |m| < |b| ∧ (m ≠ 0 → (m < 0 ↔ a < 0))) ∧
      (t.cfg.divRounding = .floor → |m| < |b| ∧ (m ≠ 0 → (m < 0 ↔ b < 0))) ∧
      (-32768 ≤ q ∧ q ≤ 32767 →
        exec (.div r src) s = .next ((writeReg (pairLow r) (BitVec.ofInt 16 m)
          (writeReg (pairHigh r) (BitVec.ofInt 16 q) t)).withFlags (decide (q < 0)) (decide (q = 0)) false false)) ∧
      (q < -32768 ∨ 32767 < q →
        ∃ n k, exec (.div r src) s = .next ((t.withDraws k).withFlags n false true false)))

/-- R116, R204, R353: ASH over a word and ASHC over the 32 bits of `R[r] : R[r OR 1]`, where an odd register ends with
the low word. The count is bits 5:0 of the source. Left, the exact product with 2^k truncated, C the bit just above the
width. Right, the floor of the quotient by 2^e, `e` clamped to the width, C the last bit shifted out. V when the sign
changes. -/
def Obligations.MultipleShifts : Prop :=
  ∀ (r : Reg) (src : Operand) (s t : State) (x : Word), sourceWord src s = .ok x t →
    let k := x.toNat % 64
    (let y := readReg t r
     let e := min (64 - k) 16
     let res : Word := if k < 32 then BitVec.ofNat 16 (y.toNat * 2 ^ k) else BitVec.ofInt 16 (y.toInt / 2 ^ e)
     let c : Bool := if k < 32 then decide (y.toNat * 2 ^ k / 65536 % 2 = 1) else decide (y.toInt / 2 ^ (e - 1) % 2 = 1)
     exec (.ash r src) s = .next ((writeReg r res t).withFlags (res.getLsbD 15) (decide (res = 0))
       (y.getLsbD 15 != res.getLsbD 15) c)) ∧
    (let y : BitVec 32 := (readReg t r ++ readReg t (pairLow r) : BitVec (16 + 16))
     let e := min (64 - k) 32
     let res : BitVec 32 := if k < 32 then BitVec.ofNat 32 (y.toNat * 2 ^ k) else BitVec.ofInt 32 (y.toInt / 2 ^ e)
     let c : Bool :=
       if k < 32 then decide (y.toNat * 2 ^ k / 4294967296 % 2 = 1) else decide (y.toInt / 2 ^ (e - 1) % 2 = 1)
     exec (.ashc r src) s = .next ((writeReg (pairLow r) (res.extractLsb' 0 16)
       (writeReg r (res.extractLsb' 16 16) t)).withFlags (res.getLsbD 31) (decide (res = 0))
         (y.getLsbD 31 != res.getLsbD 31) c))

/-! ## Branches -/

/-- R113, R221 to R231: the eleven branches of profile DOC, their words, their conditions, and nothing but PC
changed. -/
def Obligations.Branches : Prop :=
  ∀ o : BitVec 8,
    branchesWhen (.br o) (0b00000001#8 ++ o) o (fun _ => True) ∧
    branchesWhen (.bne o) (0b00000010#8 ++ o) o (fun s => s.psw.z = false) ∧
    branchesWhen (.beq o) (0b00000011#8 ++ o) o (fun s => s.psw.z = true) ∧
    branchesWhen (.bge o) (0b00000100#8 ++ o) o (fun s => s.psw.n = s.psw.v) ∧
    branchesWhen (.blt o) (0b00000101#8 ++ o) o (fun s => s.psw.n ≠ s.psw.v) ∧
    branchesWhen (.bgt o) (0b00000110#8 ++ o) o (fun s => s.psw.z = false ∧ s.psw.n = s.psw.v) ∧
    branchesWhen (.bpl o) (0b10000000#8 ++ o) o (fun s => s.psw.n = false) ∧
    branchesWhen (.bhi o) (0b10000010#8 ++ o) o (fun s => s.psw.c = false ∧ s.psw.z = false) ∧
    branchesWhen (.blos o) (0b10000011#8 ++ o) o (fun s => s.psw.c = true ∨ s.psw.z = true) ∧
    branchesWhen (.bcc o) (0b10000110#8 ++ o) o (fun s => s.psw.c = false) ∧
    branchesWhen (.bcs o) (0b10000111#8 ++ o) o (fun s => s.psw.c = true)

/-- R348 to R351: BLE, BMI, BVC and BVS of profile EXT. R114, R232: SOB decrements its register and, while that is not
zero, subtracts twice `nn` from PC; with R7 it is the decremented PC that is tested and moved. -/
def Obligations.ExtensionBranchesAndSob : Prop :=
  (∀ o : BitVec 8,
    branchesWhen (.ble o) (0b00000111#8 ++ o) o (fun s => s.psw.z = true ∨ s.psw.n ≠ s.psw.v) ∧
    branchesWhen (.bmi o) (0b10000001#8 ++ o) o (fun s => s.psw.n = true) ∧
    branchesWhen (.bvc o) (0b10000100#8 ++ o) o (fun s => s.psw.v = false) ∧
    branchesWhen (.bvs o) (0b10000101#8 ++ o) o (fun s => s.psw.v = true)) ∧
  ∀ (r : Reg) (nn : BitVec 6) (s : State),
    let t := writeReg r (readReg s r - 1) s
    (readReg s r = 1 → exec (.sob r nn) s = .next t) ∧
    (readReg s r ≠ 1 → exec (.sob r nn) s = .next (t.withPc (BitVec.ofInt 16 ((t.pcr.toNat : Int) - 2 * nn.toNat))))

/-! ## Jumps and subroutines -/

/-- R125, R250, R251: the effective address of JMP in its three modes, and the jump; no access is made at the target and
no flag is written. JMP and JSR with a target in mode 0, 2, 3, 4 or 5 stop the machine whatever the state, before any
register steps. A pointer or displacement read that does not answer ends JMP (R160). -/
def Obligations.JmpJumps : Prop :=
  (∀ (r : Reg) (dst : Operand) (s t : State) (pa qa : Nat) (ea : Word),
    jumpTarget ⟨.deferred, r⟩ s = .ok (readReg s r) s ∧
    (ramWordAt s s.curSpace s.pcr pa →
      let u := s.withPc (s.pcr + 2)
      let a := readReg u r + Memory.readWord s.ram pa
      jumpTarget ⟨.index, r⟩ s = .ok a u ∧
      (ramWordAt s s.curSpace a qa → jumpTarget ⟨.indexDeferred, r⟩ s = .ok (Memory.readWord s.ram qa) u)) ∧
    endsAs (jumpTarget dst s) (exec (.jmp dst) s) ∧
    (jumpTarget dst s = .ok ea t → exec (.jmp dst) s = .next (t.withPc ea))) ∧
  ∀ (m : AddrMode) (r link : Reg) (s : State), m ≠ .deferred → m ≠ .index → m ≠ .indexDeferred →
    exec (.jmp ⟨m, r⟩) s = .fault (.illegalAddressingMode ⟨s.ir, s.currentPc⟩) ∧
    exec (.jsr link ⟨m, r⟩) s = .fault (.illegalAddressingMode ⟨s.ir, s.currentPc⟩)

/-- R252: JSR. The target first, then the old link register on the stack, then the link register takes the return
address, then PC the target; the link register may be SP, whose value before the push is the one stored. R354: MARK. SP
is the address `nn` words past the MARK word, PC takes R5, and R5 is popped. Each access that does not answer ends the
instruction (R160). -/
def Obligations.JsrAndMark : Prop :=
  (∀ (r : Reg) (dst : Operand) (s : State),
    endsAs (jumpTarget dst s) (exec (.jsr r dst) s) ∧
    ∀ t ea, jumpTarget dst s = .ok ea t →
      endsAs (push (readReg t r) t) (exec (.jsr r dst) s) ∧
      ∀ pa, ramWordAt t t.curSpace (readReg t .sp - 2) pa →
        exec (.jsr r dst) s = .next ((writeReg r t.pcr ((writeReg .sp (readReg t .sp - 2) t).withRam
          (Memory.writeWord t.ram pa (readReg t r)))).withPc ea)) ∧
  ∀ (nn : BitVec 6) (s : State),
    let sp := s.pcr + BitVec.ofNat 16 (2 * nn.toNat)
    endsAs (pop ((writeReg .sp sp s).withPc (readReg s .r5))) (exec (.mark nn) s) ∧
    ∀ pa, ramWordAt s s.curSpace sp pa →
      exec (.mark nn) s = .next (writeReg .r5 (Memory.readWord s.ram pa)
        ((writeReg .sp (sp + 2) s).withPc (readReg s .r5)))

/-- R253: RTS. PC takes the link register's value, then the link register is popped; with SP as link the word popped
overwrites the step. If the pop aborts, PC already holds the link register's value, SP is stepped and the link register
is unchanged. -/
def Obligations.RtsReturns : Prop :=
  ∀ (r : Reg) (s : State),
    let u := s.withPc (readReg s r)
    decodeWord (0b0000000010000#13 ++ r.toBits) = some (.rts r) ∧
    endsAs (pop u) (exec (.rts r) s) ∧
    (∀ x w, pop u = .ok x w → exec (.rts r) s = .next (writeReg r x w)) ∧
    (∀ w, pop u = .abort w →
      w.pcr = readReg s r ∧ readReg w .sp = readReg s .sp + 2 ∧ (r ≠ .sp → r ≠ .pc → readReg w r = readReg s r)) ∧
    ∀ pa, ramWordAt s s.curSpace (readReg s .sp) pa →
      exec (.rts r) s = .next (writeReg r (Memory.readWord s.ram pa)
        ((writeReg .sp (readReg s .sp + 2) s).withPc (readReg s r)))

/-- R252, R253: RTS undoes JSR: with a link register other than SP, JSR in mode 1 followed by RTS of the same register
leads back to the return address with every register but PC as it was. -/
def Obligations.RtsUndoesJsr : Prop :=
  ∀ (r q : Reg) (s : State) (pa : Nat), r ≠ .sp → Memory.wf s.ram = true →
    ramWordAt s s.curSpace (readReg s .sp - 2) pa →
    ∃ t, exec (.jsr r ⟨.deferred, q⟩) s = .next t ∧ t.pcr = readReg s q ∧
      exec (.rts r) t = .next (s.withRam (Memory.writeWord s.ram pa (readReg s r)))

/-! ## Single-operand instructions -/

/-- R271 to R279: CLR, INC, TST, SWAB, SXT and ASL, and the byte forms of the first three. Each access that does not
answer ends the instruction (R160). -/
def Obligations.SingleOperandInstructions : Prop :=
  ∀ (dst : Operand) (s : State),
    putsWord (exec (.clr dst) s) dst s 0 false true false false ∧
    putsByte (exec (.clrb dst) s) dst s 0 false true false false ∧
    modifiesWord (exec (.inc dst) s) dst s (fun d =>
      (d + 1, (d + 1).getLsbD 15, decide (d = 0xFFFF), decide (d = 0x7FFF), s.psw.c)) ∧
    modifiesByte (exec (.incb dst) s) dst s (fun d =>
      (d + 1, (d + 1).getLsbD 7, decide (d = 0xFF), decide (d = 0x7F), s.psw.c)) ∧
    (endsAs (sourceWord dst s) (exec (.tst dst) s) ∧ ∀ d t, sourceWord dst s = .ok d t →
      exec (.tst dst) s = .next (t.withFlags (d.getLsbD 15) (decide (d = 0)) false false)) ∧
    (endsAs (sourceByte dst s) (exec (.tstb dst) s) ∧ ∀ d t, sourceByte dst s = .ok d t →
      exec (.tstb dst) s = .next (t.withFlags (d.getLsbD 7) (decide (d = 0)) false false)) ∧
    modifiesWord (exec (.swab dst) s) dst s (fun d =>
      (d.extractLsb' 0 8 ++ d.extractLsb' 8 8, d.getLsbD 15, decide (d.extractLsb' 8 8 = 0#8), false, false)) ∧
    putsWord (exec (.sxt dst) s) dst s (if s.psw.n then 0xFFFF else 0) s.psw.n (!s.psw.n) false s.psw.c ∧
    modifiesWord (exec (.asl dst) s) dst s (fun d =>
      (d <<< 1, d.getLsbD 14, decide (d.toNat * 2 % 65536 = 0), d.getLsbD 14 != d.getLsbD 15, d.getLsbD 15))

/-- R331 to R340: COM, NEG, DEC, ADC and SBC of profile EXT, words and bytes. Each access that does not answer ends the
instruction (R160). -/
def Obligations.ExtensionArithmetic : Prop :=
  ∀ (dst : Operand) (s : State),
    modifiesWord (exec (.com dst) s) dst s (fun d => (~~~d, !d.getLsbD 15, decide (d = 0xFFFF), false, true)) ∧
    modifiesByte (exec (.comb dst) s) dst s (fun d => (~~~d, !d.getLsbD 7, decide (d = 0xFF), false, true)) ∧
    modifiesWord (exec (.neg dst) s) dst s (fun d =>
      (0 - d, (0 - d).getLsbD 15, decide (d = 0), decide (d = 0x8000), decide (d ≠ 0))) ∧
    modifiesByte (exec (.negb dst) s) dst s (fun d =>
      (0 - d, (0 - d).getLsbD 7, decide (d = 0), decide (d = 0x80), decide (d ≠ 0))) ∧
    modifiesWord (exec (.dec dst) s) dst s (fun d =>
      (d - 1, (d - 1).getLsbD 15, decide (d = 1), decide (d = 0x8000), s.psw.c)) ∧
    modifiesByte (exec (.decb dst) s) dst s (fun d =>
      (d - 1, (d - 1).getLsbD 7, decide (d = 1), decide (d = 0x80), s.psw.c)) ∧
    modifiesWord (exec (.adc dst) s) dst s (fun d =>
      let r := d + (if s.psw.c then 1 else 0)
      (r, r.getLsbD 15, decide (r = 0), decide (d = 0x7FFF) && s.psw.c, decide (d = 0xFFFF) && s.psw.c)) ∧
    modifiesByte (exec (.adcb dst) s) dst s (fun d =>
      let r := d + (if s.psw.c then 1 else 0)
      (r, r.getLsbD 7, decide (r = 0), decide (d = 0x7F) && s.psw.c, decide (d = 0xFF) && s.psw.c)) ∧
    modifiesWord (exec (.sbc dst) s) dst s (fun d =>
      let r := d - (if s.psw.c then 1 else 0)
      (r, r.getLsbD 15, decide (r = 0), decide (d = 0x8000) && s.psw.c, decide (d = 0) && s.psw.c)) ∧
    modifiesByte (exec (.sbcb dst) s) dst s (fun d =>
      let r := d - (if s.psw.c then 1 else 0)
      (r, r.getLsbD 7, decide (r = 0), decide (d = 0x80) && s.psw.c, decide (d = 0) && s.psw.c))

/-- R341 to R347: ROR, ROL and ASR of profile EXT, words and bytes, and ASLB. A rotate takes the old C in, C takes the
bit moved out, and V is N XOR C. Each access that does not answer ends the instruction (R160). -/
def Obligations.ExtensionShifts : Prop :=
  ∀ (dst : Operand) (s : State),
    modifiesWord (exec (.ror dst) s) dst s (fun d =>
      let r := BitVec.ofBool s.psw.c ++ d.extractLsb' 1 15
      (r, s.psw.c, decide (r = 0#16), s.psw.c != d.getLsbD 0, d.getLsbD 0)) ∧
    modifiesByte (exec (.rorb dst) s) dst s (fun d =>
      let r := BitVec.ofBool s.psw.c ++ d.extractLsb' 1 7
      (r, s.psw.c, decide (r = 0#8), s.psw.c != d.getLsbD 0, d.getLsbD 0)) ∧
    modifiesWord (exec (.rol dst) s) dst s (fun d =>
      let r := d.extractLsb' 0 15 ++ BitVec.ofBool s.psw.c
      (r, d.getLsbD 14, decide (r = 0#16), d.getLsbD 14 != d.getLsbD 15, d.getLsbD 15)) ∧
    modifiesByte (exec (.rolb dst) s) dst s (fun d =>
      let r := d.extractLsb' 0 7 ++ BitVec.ofBool s.psw.c
      (r, d.getLsbD 6, decide (r = 0#8), d.getLsbD 6 != d.getLsbD 7, d.getLsbD 7)) ∧
    modifiesWord (exec (.asr dst) s) dst s (fun d =>
      let r := BitVec.ofInt 16 (d.toInt / 2)
      (r, d.getLsbD 15, decide (r = 0), d.getLsbD 15 != d.getLsbD 0, d.getLsbD 0)) ∧
    modifiesByte (exec (.asrb dst) s) dst s (fun d =>
      let r := BitVec.ofInt 8 (d.toInt / 2)
      (r, d.getLsbD 7, decide (r = 0), d.getLsbD 7 != d.getLsbD 0, d.getLsbD 0)) ∧
    modifiesByte (exec (.aslb dst) s) dst s (fun d =>
      (d <<< 1, d.getLsbD 6, decide (d.toNat * 2 % 256 = 0), d.getLsbD 6 != d.getLsbD 7, d.getLsbD 7))

/-! ## System instructions -/

/-- R300, R301, R302, R303, R355, R356, R357: HALT, WAIT, RESET, SPL, CCC and SCC, each with all it changes; none
looks at the mode but SPL (R416). That HALT answers a next state, whose run state is Halted, is the model's choice (log
5): R10 and R300 give it the outcome `Halted(s')`, and the model's next state is that `s'`. -/
def Obligations.ControlInstructions : Prop :=
  ∀ s : State,
    exec .halt s = .next (s.withRun .halted) ∧
    exec .wait s = .next (s.withRun .waiting) ∧
    exec .reset s = .next ((s.withHistory (s.history ++ [.busInit])).withMmu
      { s.mmu with enabled := s.mmu.enabled && !s.cfg.resetClearsMmu }) ∧
    (∀ n : BitVec 3, (s.psw.cm = .kernel → exec (.spl n) s = .next (s.withPsw { s.psw with pri := n })) ∧
      (s.psw.cm ≠ .kernel → exec (.spl n) s = .next s)) ∧
    ∀ m : BitVec 4,
      exec (.ccc m) s = .next (s.withFlags (s.psw.n && !m.getLsbD 3) (s.psw.z && !m.getLsbD 2)
        (s.psw.v && !m.getLsbD 1) (s.psw.c && !m.getLsbD 0)) ∧
      exec (.scc m) s = .next (s.withFlags (s.psw.n || m.getLsbD 3) (s.psw.z || m.getLsbD 2)
        (s.psw.v || m.getLsbD 1) (s.psw.c || m.getLsbD 0))

/-- R304, R364: RTT, and RTI which is exactly RTT. Both words come off the old mode's stack, PC first, and then every
PSW field is loaded, in any mode (R416); a popped current mode 0b10 stops. A pop that does not answer ends the
instruction (R160). -/
def Obligations.ReturnFromTrap : Prop :=
  (∀ s : State, ∀ i ∈ [Instr.rtt, Instr.rti],
    endsAs (pop s) (exec i s) ∧ ∀ x t, pop s = .ok x t → endsAs (pop (t.withPc x)) (exec i s)) ∧
  ∀ (s : State) (pa1 pa2 : Nat),
    ramWordAt s s.curSpace (readReg s .sp) pa1 → ramWordAt s s.curSpace (readReg s .sp + 2) pa2 →
    ∀ i ∈ [Instr.rtt, Instr.rti],
      (∀ p, Psw.unpack (Memory.readWord s.ram pa2) = some p →
        exec i s = .next (((writeReg .sp (readReg s .sp + 4) s).withPc (Memory.readWord s.ram pa1)).withPsw p)) ∧
      (Psw.unpack (Memory.readWord s.ram pa2) = none → exec i s = .fault (.invalidMode ⟨s.ir, s.currentPc⟩))

/-- R305, R306, R307, R308, R358, R359: MFPI and MFPD, MTPI and MTPD. The address is formed in the current space; the
word is read or written in the previous one, or in the previous mode's register; it is pushed on or popped from the
current stack, the pop coming before the destination is resolved. N and Z from the word, V clear, C unchanged. A
previous mode of 0b10 stops either way (log 14). Each access that does not answer ends the instruction (R160). -/
def Obligations.MovesWithThePreviousSpace : Prop :=
  (∀ (o : Operand) (s : State),
    (∀ i ∈ [Instr.mfpi o, Instr.mfpd o],
      endsAs (resolve o .word s) (exec i s) ∧
      ∀ l t, resolve o .word s = .ok l t →
        endsAs (loadPrev l t) (exec i s) ∧
        ∀ x u, loadPrev l t = .ok x u →
          endsAs (push x u) (exec i s) ∧
          ∀ wrote v, push x u = .ok wrote v →
            exec i s = .next (afterStore wrote v (x.getLsbD 15) (decide (x = 0)) false s.psw.c)) ∧
    ∀ i ∈ [Instr.mtpi o, Instr.mtpd o],
      endsAs (pop s) (exec i s) ∧
      ∀ x t, pop s = .ok x t →
        endsAs (resolve o .word t) (exec i s) ∧
        ∀ l u, resolve o .word t = .ok l u →
          endsAs (storePrev l x u) (exec i s) ∧
          ∀ wrote v, storePrev l x u = .ok wrote v →
            exec i s = .next (afterStore wrote v (x.getLsbD 15) (decide (x = 0)) false s.psw.c)) ∧
  ∀ (s : State) (x va : Word) (pa : Nat),
    ((s.psw.pm = 0b00#2 → s.prevSpace = some (.paged .kernel)) ∧ (s.psw.pm = 0b11#2 → s.prevSpace = some (.paged .user)) ∧
      (s.psw.pm = 0b01#2 ∨ s.psw.pm = 0b10#2 → s.prevSpace = none)) ∧
    (ramWordAt s s.prevSpace va pa →
      loadPrev (.mem va) s = .ok (Memory.readWord s.ram pa) s ∧
      storePrev (.mem va) x s = .ok false (s.withRam (Memory.writeWord s.ram pa x))) ∧
    (isOdd va = false → s.prevSpace = none →
      loadPrev (.mem va) s = .fatal (.invalidMode ⟨s.ir, s.currentPc⟩) ∧
      storePrev (.mem va) x s = .fatal (.invalidMode ⟨s.ir, s.currentPc⟩)) ∧
    (∀ m, m.toBits = s.psw.pm →
      loadPrev (.reg .sp) s = .ok (s.spOf m) s ∧ storePrev (.reg .sp) x s = .ok false (s.withSpOf m x) ∧
      ∀ r, r ≠ .sp → loadPrev (.reg r) s = .ok (readReg s r) s ∧ storePrev (.reg r) x s = .ok false (writeReg r x s)) ∧
    (s.psw.pm = 0b10#2 → ∀ r,
      loadPrev (.reg r) s = .fatal (.invalidMode ⟨s.ir, s.currentPc⟩) ∧
      storePrev (.reg r) x s = .fatal (.invalidMode ⟨s.ir, s.currentPc⟩))

/-! ## Traps -/

/-- R360 to R363, R365, R404, R405: EMT, TRAP, BPT and IOT take the trap through their vectors. The new PSW is the
vector's with pm the old cm; the old PSW and then the old PC stand on the new mode's stack; nothing else changes. -/
def Obligations.TrapInstructionsTrap : Prop :=
  ∀ (i : Instr) (vec : Word), ((∃ k, i = .emt k ∧ vec = 0o30) ∨ (∃ k, i = .trap k ∧ vec = 0o34) ∨
      (i = .bpt ∧ vec = 0o14) ∨ (i = .iot ∧ vec = 0o20)) →
    ∀ (s : State) (newPc : Word) (p : Psw) (pa1 pa0 : Nat), TrapReady s vec newPc p pa1 pa0 →
      exec i s = .next (afterTrap s newPc p pa1 pa0)

/-- R403, R404, R406: an abort takes the trap through vector 0o4 in the same step, from the state the abort left, whose
PC is the one pushed; a timeout inside the entry is a double fault. So ends MOV when its source or its destination is an
unclaimed word below `IO_BASE`, and so ends a step whose fetch reads one. -/
def Obligations.BusTimeoutTraps : Prop :=
  (∀ (t : State) (newPc : Word) (p : Psw) (pa1 pa0 : Nat), TrapReady t 0o4 newPc p pa1 pa0 →
    complete (.abort t) = .next (afterTrap t newPc p pa1 pa0)) ∧
  (∀ t u : State, trapSequence 0o4 t = .abort u → complete (.abort t) = .fault (.doubleFault ⟨t.ir, t.currentPc⟩)) ∧
  ∀ (src dst : Operand) (s t : State) (va : Word) (sp : Space), t.curSpace = some sp → isOdd va = false →
    unclaimed t (t.translate sp va) → t.translate sp va < 0o760000 →
    (resolve src .word s = .ok (.mem va) t → exec (.mov src dst) s = complete (.abort t)) ∧
    (∀ x u, sourceWord src s = .ok x u → resolve dst .word u = .ok (.mem va) t →
      exec (.mov src dst) s = complete (.abort t)) ∧
    (willFetch s → t = s.beginStep.withCurrentPc s.pcr → va = s.pcr → step s = complete (.abort t))

/-- R404, R408: RTT after a trap entry leads back: every register, the PSW and PC are as they were at the trap, and only
the two words of the new mode's stack differ. -/
def Obligations.ReturnUndoesTheTrap : Prop :=
  ∀ (s : State) (vec newPc : Word) (p : Psw) (pa1 pa0 : Nat), pa1 ≠ pa0 → Memory.wf s.ram = true →
    TrapReady s vec newPc p pa1 pa0 →
    trapEntry vec s = .ok () (afterTrap s newPc p pa1 pa0) ∧
    exec .rtt (afterTrap s newPc p pa1 pa0) = .next (s.withRam (afterTrap s newPc p pa1 pa0).ram) ∧
    ∀ a, a ≠ pa1 → a ≠ pa1 + 1 → a ≠ pa0 → a ≠ pa0 + 1 →
      Memory.read (afterTrap s newPc p pa1 pa0).ram a = Memory.read s.ram a

/-! ## The step -/

/-- R140, R141, R142: when the step reaches its fetch and the two bytes at PC decode under the profile, the step is that
instruction's effect, in the state where `currentPc` is the old PC and PC is past the word. -/
def Obligations.StepRunsTheDecodedInstruction : Prop :=
  ∀ (s : State) (pa : Nat) (i : Instr), willFetch s → ramWordAt s s.curSpace s.pcr pa →
    decodeBytes s.cfg.profile [Memory.read s.ram pa, Memory.read s.ram (pa + 1)] = .ok (i, []) →
    step s = exec i (fetched s (Memory.readWord s.ram pa))

/-- R123: a word no row of the profile matches is a fatal stop annotated with the word and the PC at fetch. -/
def Obligations.UnknownInstructionStops : Prop :=
  ∀ (s : State) (pa : Nat), willFetch s → ramWordAt s s.curSpace s.pcr pa →
    (¬∃ i, decodeWord (Memory.readWord s.ram pa) = some i ∧ i.inProfile s.cfg.profile = true) →
    step s = .fault (.unknownInstruction ⟨some (Memory.readWord s.ram pa), s.pcr⟩)

/-- R140, R410, R411, R412, R413, R414: the order of the checks of a step. Halted ends the run (log 5); an offer above
the priority is taken, leaving WAIT, with `currentPc` kept; Waiting without one is stuck (log 6); T refuses; a fetch
that does not answer ends the step. -/
def Obligations.StepOrder : Prop :=
  ∀ s : State,
    (s.run = .halted → step s = .fault .halted) ∧
    (∀ o rest, s.offers = some o :: rest → s.psw.pri.toNat < o.level.toNat → s.run ≠ .halted →
      ∀ newPc p pa1 pa0,
        TrapReady ((s.beginStep).withRun .running) o.vector newPc p pa1 pa0 →
        step s = .next (afterTrap ((s.beginStep).withRun .running) newPc p pa1 pa0)) ∧
    ((∀ o, s.offers.head? = some (some o) → o.level.toNat ≤ s.psw.pri.toNat) →
      s.acceptedOffer = none ∧
      (s.run = .waiting → step s = .fault .stuck) ∧
      (s.run = .running → s.psw.t = true → step s = .refused .traceUnmodelled) ∧
      (s.run = .running → s.psw.t = false →
        (isOdd s.pcr = true → step s = .fault (.oddAddress ⟨none, s.pcr⟩)) ∧
        (s.psw.cm = .supervisor → isOdd s.pcr = false → step s = .fault (.invalidMode ⟨none, s.pcr⟩))))

/-! ## The whole machine -/

/-- The invariant at reset: the parameters are within R6, RAM is in its canonical form, no offer is pending. R5, R6: the
parameters that have a default are at it: PROFILE DOC, BIS_MODE XOR, DIV_ROUNDING TRUNC, PSW_MAPPED false. The others
are the model's choice (log 2). -/
def Obligations.ResetMeetsTheInvariant : Prop :=
  Inv State.reset ∧ State.reset.cfg.profile = .doc ∧ State.reset.cfg.bisMode = .xor ∧
    State.reset.cfg.divRounding = .trunc ∧ State.reset.cfg.pswMapped = false

/-- R6, R61, R410: every step keeps the invariant: the parameters stay within their constraints, RAM stays in its
canonical form with no byte at or beyond `RAM_SIZE`, the offers stay legal. The canonical form (log 4) and the upper
bound of the device claims (log 18) are the model's. -/
def Obligations.StepKeepsTheInvariant : Prop := ∀ s t : State, Inv s → step s = .next t → Inv t

/-- R6, R70, R140: no step changes a parameter or rewrites the bus history, and each consumes one boundary's offer. -/
def Obligations.StepKeepsParametersAndHistory : Prop :=
  ∀ s t : State, step s = .next t → t.cfg = s.cfg ∧ s.history <+: t.history ∧ t.offers = s.offers.tail

/-- R417: the mode, the register bank and the priority change only by a load of the whole PSW. With the PSW not on the
bus, an instruction other than RTT, RTI, EMT, TRAP, BPT and IOT keeps them, SPL's priority apart, unless it ends in the
bus-timeout trap, taken from a state that still has them. -/
def Obligations.SystemFieldsChangeOnlyByLoads : Prop :=
  ∀ (i : Instr) (s t : State), s.cfg.pswMapped = false →
    i ≠ .rtt → i ≠ .rti → (∀ k, i ≠ .emt k) → (∀ k, i ≠ .trap k) → i ≠ .bpt → i ≠ .iot →
    exec i s = .next t →
    (t.psw.cm = s.psw.cm ∧ t.psw.pm = s.psw.pm ∧ t.psw.rs = s.psw.rs ∧ t.psw.t = s.psw.t ∧
      ((∀ n, i ≠ .spl n) → t.psw.pri = s.psw.pri)) ∨
    ∃ u, u.psw = s.psw ∧ trapEntry 0o4 u = .ok () t

/-- R34, R300, R301, R423: only HALT enters Halted, only WAIT enters Waiting, no instruction leaves either, and a step
from Waiting that answers has taken an interrupt and left it. That HALT answers a next state is the model's choice
(log 5). -/
def Obligations.RunStateWriters : Prop :=
  (∀ (i : Instr) (s t : State), exec i s = .next t →
    (i = .halt → t.run = .halted) ∧ (i = .wait → t.run = .waiting) ∧
    (i ≠ .halt → i ≠ .wait → t.run = s.run)) ∧
  ∀ s t : State, step s = .next t → s.run = .waiting → t.run = .running ∧ s.acceptedOffer ≠ none

/-- R170: an instruction that works on its operand specifiers, every one in mode 0, raises no exception: it answers a next
state in every state, makes no bus access, and keeps the PSW but the flags. -/
def Obligations.RegisterOnlyInstructionsAlwaysComplete : Prop :=
  ∀ (i : Instr) (s : State), registerOnly i = true →
    ∃ t, exec i s = .next t ∧ t.ram = s.ram ∧ t.mmu = s.mmu ∧ t.history = s.history ∧ systemFieldsSame s t ∧
      controlSame s t

/-! ## Frames -/

/-- R23, R30, R157, R159: the frame of every instruction that stores through a destination specifier. Past the source and
the destination's resolution, with the location answering: the registers the specifiers step, a register destination and
PC change, and no other; the PSW but its flags keeps its value unless the store is to the mapped PSW, and then every
register slot keeps what the resolution left in it, and T its value; the MMU keeps its value unless the store is to it; every RAM byte outside the bytes stored to, which
are computed from the location resolved, reads as before; the bus history only grows. -/
def Obligations.StoreFrame : Prop :=
  ∀ (i : Instr) (src : Option Operand) (dst : Operand) (n : Size) (s t u v : State) (l : Loc),
    storesTo i = some (src, dst, n) → Memory.wf s.ram = true →
    sourceRead src n s t → resolve dst n t = .ok l u → answered l n u → exec i s = .next v →
    registersSame (fun r => (∃ o, src = some o ∧ steps o r) ∨ steps dst r) s u ∧
    (¬storesPsw l n u →
      registersSame (fun r => (∃ o, src = some o ∧ steps o r) ∨ steps dst r ∨ names dst r) s v ∧
      systemFieldsSame s v) ∧
    (storesPsw l n u → slotsSame u v ∧ v.psw.t = s.psw.t) ∧
    (¬storesMmu l n u → v.mmu = s.mmu) ∧
    ramSameOutside (storedBytes l n u) s v ∧ controlSame s v ∧ s.history <+: v.history

/-- R30, R157, R159, R200: the frame of the instructions that store nothing in memory. CMP, BIT, TST and their byte forms
change the registers their specifiers step, PC and flags; MUL, DIV, ASH and ASHC also their register or pair. Every RAM
byte and MMU register keeps its value. -/
def Obligations.ReadOnlyFrame : Prop :=
  (∀ (i : Instr) (a b : Operand) (n : Size) (s t u v : State),
    (n = .word ∧ (i = .cmp a b ∨ i = .bit a b)) ∨ (n = .byte ∧ (i = .cmpb a b ∨ i = .bitb a b)) →
    sourceRead (some a) n s t → sourceRead (some b) n t u → exec i s = .next v →
    registersSame (fun r => steps a r ∨ steps b r) s v ∧ systemFieldsSame s v ∧ v.mmu = s.mmu ∧ v.ram = s.ram ∧
      controlSame s v ∧ s.history <+: v.history) ∧
  (∀ (i : Instr) (a : Operand) (n : Size) (s t v : State), (n = .word ∧ i = .tst a) ∨ (n = .byte ∧ i = .tstb a) →
    sourceRead (some a) n s t → exec i s = .next v →
    registersSame (steps a) s v ∧ systemFieldsSame s v ∧ v.mmu = s.mmu ∧ v.ram = s.ram ∧ controlSame s v ∧
      s.history <+: v.history) ∧
  (∀ (i : Instr) (r : Reg) (a : Operand) (s t v : State),
    i = .mul r a ∨ i = .div r a ∨ i = .ash r a ∨ i = .ashc r a → sourceRead (some a) .word s t → exec i s = .next v →
    registersSame (fun q => steps a q ∨ q = r ∨ (¬(i = .ash r a) ∧ (q = pairHigh r ∨ q = pairLow r))) s v ∧
      systemFieldsSame s v ∧ v.mmu = s.mmu ∧ v.ram = s.ram ∧ controlSame s v ∧ s.history <+: v.history)

/-- R156, R252, R253, R304, R307, R308, R354: the frame of the instructions that work through the stack. RTS, MARK, RTT and RTI
store nothing. JSR, MFPI and MFPD store the one word below SP, MTPI and MTPD the one word of the previous space. The registers
that change are SP, the link register or R5, those the specifier steps or names, and PC. -/
def Obligations.StackFrame : Prop :=
  (∀ (r : Reg) (s t v : State) (x : Word), pop (s.withPc (readReg s r)) = .ok x t → exec (.rts r) s = .next v →
    registersSame (fun q => q = .sp ∨ q = r) s v ∧ v.psw = s.psw ∧ v.mmu = s.mmu ∧ v.ram = s.ram ∧ controlSame s v ∧
      s.history <+: v.history) ∧
  (∀ (nn : BitVec 6) (s t v : State) (x : Word),
    pop ((writeReg .sp (s.pcr + BitVec.ofNat 16 (2 * nn.toNat)) s).withPc (readReg s .r5)) = .ok x t →
    exec (.mark nn) s = .next v →
    registersSame (fun q => q = .sp ∨ q = .r5) s v ∧ v.psw = s.psw ∧ v.mmu = s.mmu ∧ v.ram = s.ram ∧
      controlSame s v ∧ s.history <+: v.history) ∧
  (∀ (i : Instr) (s t u v : State) (x y : Word), i = .rtt ∨ i = .rti → pop s = .ok x t → pop (t.withPc x) = .ok y u →
    exec i s = .next v →
    v.bank0 = s.bank0 ∧ v.bank1 = s.bank1 ∧ (∀ m, m ≠ s.psw.cm → v.spOf m = s.spOf m) ∧ v.mmu = s.mmu ∧
      v.ram = s.ram ∧ controlSame s v ∧ s.history <+: v.history) ∧
  (∀ (r : Reg) (dst : Operand) (s t v : State) (ea : Word), jumpTarget dst s = .ok ea t →
    let w := writeReg .sp (readReg t .sp - 2) t
    let l := Loc.mem (readReg t .sp - 2)
    answered l .word w → ¬storesPsw l .word w → exec (.jsr r dst) s = .next v →
    registersSame (fun q => q = .sp ∨ q = r) s v ∧ v.psw = s.psw ∧ (¬storesMmu l .word w → v.mmu = s.mmu) ∧
      ramSameOutside (storedBytes l .word w) s v ∧ controlSame s v ∧ s.history <+: v.history) ∧
  (∀ (i : Instr) (src : Operand) (s t u v : State) (k : Loc) (x : Word), i = .mfpi src ∨ i = .mfpd src →
    resolve src .word s = .ok k t → loadPrev k t = .ok x u →
    let w := writeReg .sp (readReg u .sp - 2) u
    let l := Loc.mem (readReg u .sp - 2)
    answered l .word w → ¬storesPsw l .word w → exec i s = .next v →
    registersSame (fun q => q = .sp ∨ steps src q) s v ∧ systemFieldsSame s v ∧
      (¬storesMmu l .word w → v.mmu = s.mmu) ∧ ramSameOutside (storedBytes l .word w) s v ∧ controlSame s v ∧
      s.history <+: v.history) ∧
  (∀ (i : Instr) (dst : Operand) (s t u w v : State) (l : Loc) (x : Word), i = .mtpi dst ∨ i = .mtpd dst →
    pop s = .ok x t → resolve dst .word t = .ok l u → storePrev l x u = .ok false w → exec i s = .next v →
    (∀ q, q ≠ .pc → q ≠ .sp → ¬steps dst q → ¬names dst q → readReg v q = readReg s q) ∧
    (if s.psw.rs then v.bank0 = s.bank0 else v.bank1 = s.bank1) ∧
    (∀ m, m ≠ s.psw.cm → ¬(names dst .sp ∧ m.toBits = s.psw.pm) → v.spOf m = s.spOf m) ∧
    systemFieldsSame s v ∧ controlSame s v ∧ s.history <+: v.history ∧
    (∀ r, l = .reg r → v.ram = s.ram ∧ v.mmu = s.mmu) ∧
    (∀ va, l = .mem va → ramSameOutside (storedAt u u.prevSpace va .word) s v ∧
      ((∀ sp, u.prevSpace = some sp → mmuRegAt (u.translate sp va) = none) → v.mmu = s.mmu)))
end

