-- ==== Sys2Proof/Laws/Decode.lean ====
section
/-! SUPPORT. Registers, modes and specifiers survive their bits; the fields of an encoded word, format by format. -/

namespace Sys2Proof

@[simp] theorem Reg.ofBits_toBits (r : Reg) : Reg.ofBits r.toBits = r := by cases r <;> rfl

@[simp] theorem Reg.toBits_ofBits (b : BitVec 3) : (Reg.ofBits b).toBits = b := by revert b; decide

@[simp] theorem AddrMode.ofBits_toBits (m : AddrMode) : AddrMode.ofBits m.toBits = m := by cases m <;> rfl

@[simp] theorem AddrMode.toBits_ofBits (b : BitVec 3) : (AddrMode.ofBits b).toBits = b := by revert b; decide

@[simp] theorem Operand.ofBits_toBits (o : Operand) : Operand.ofBits o.toBits = o := by
  obtain ⟨m, r⟩ := o
  cases m <;> cases r <;> rfl

@[simp] theorem Operand.toBits_ofBits (b : BitVec 6) : (Operand.ofBits b).toBits = b := by revert b; decide

/-! ## The fields of an encoded word -/

theorem field_encDop (op : BitVec 4) (ss dd : BitVec 6) :
    field (encDop op ss dd) 12 4 = op ∧ field (encDop op ss dd) 6 6 = ss ∧ field (encDop op ss dd) 0 6 = dd := by
  refine ⟨?_, ?_, ?_⟩ <;> unfold field encDop
  · rw [extract_append_high _ _ (by omega), extract_append_high _ _ (by omega), extract_self]
  · rw [extract_append_high _ _ (by omega), extract_append_low _ _ (by omega), extract_self]
  · rw [extract_append_low _ _ (by omega), extract_self]

theorem field_encReg (op : BitVec 7) (r : BitVec 3) (x : BitVec 6) :
    field (encReg op r x) 12 4 = op.extractLsb' 3 4 ∧ field (encReg op r x) 9 7 = op ∧
      field (encReg op r x) 6 3 = r ∧ field (encReg op r x) 0 6 = x := by
  refine ⟨?_, ?_, ?_, ?_⟩ <;> unfold field encReg
  · rw [extract_append_high _ _ (by omega), extract_append_high _ _ (by omega)]
  · rw [extract_append_high _ _ (by omega), extract_append_high _ _ (by omega), extract_self]
  · rw [extract_append_high _ _ (by omega), extract_append_low _ _ (by omega), extract_self]
  · rw [extract_append_low _ _ (by omega), extract_self]

theorem field_encByte (op : BitVec 8) (x : BitVec 8) :
    field (encByte op x) 12 4 = op.extractLsb' 4 4 ∧ field (encByte op x) 9 7 = op.extractLsb' 1 7 ∧
      field (encByte op x) 8 8 = op ∧ field (encByte op x) 0 8 = x := by
  refine ⟨?_, ?_, ?_, ?_⟩ <;> unfold field encByte
  · rw [extract_append_high _ _ (by omega)]
  · rw [extract_append_high _ _ (by omega)]
  · rw [extract_append_high _ _ (by omega), extract_self]
  · rw [extract_append_low _ _ (by omega), extract_self]

theorem field_encOperand (op : BitVec 10) (x : BitVec 6) :
    field (encOperand op x) 12 4 = op.extractLsb' 6 4 ∧ field (encOperand op x) 9 7 = op.extractLsb' 3 7 ∧
      field (encOperand op x) 8 8 = op.extractLsb' 2 8 ∧ field (encOperand op x) 6 10 = op ∧
      field (encOperand op x) 0 6 = x := by
  refine ⟨?_, ?_, ?_, ?_, ?_⟩ <;> unfold field encOperand
  · rw [extract_append_high _ _ (by omega)]
  · rw [extract_append_high _ _ (by omega)]
  · rw [extract_append_high _ _ (by omega)]
  · rw [extract_append_high _ _ (by omega), extract_self]
  · rw [extract_append_low _ _ (by omega), extract_self]

theorem field_encMask (op : BitVec 12) (x : BitVec 4) :
    field (encMask op x) 12 4 = op.extractLsb' 8 4 ∧ field (encMask op x) 9 7 = op.extractLsb' 5 7 ∧
      field (encMask op x) 8 8 = op.extractLsb' 4 8 ∧ field (encMask op x) 6 10 = op.extractLsb' 2 10 ∧
      field (encMask op x) 4 12 = op ∧ field (encMask op x) 0 4 = x := by
  refine ⟨?_, ?_, ?_, ?_, ?_, ?_⟩ <;> unfold field encMask
  · rw [extract_append_high _ _ (by omega)]
  · rw [extract_append_high _ _ (by omega)]
  · rw [extract_append_high _ _ (by omega)]
  · rw [extract_append_high _ _ (by omega)]
  · rw [extract_append_high _ _ (by omega), extract_self]
  · rw [extract_append_low _ _ (by omega), extract_self]

theorem field_encLow3 (op : BitVec 13) (x : BitVec 3) :
    field (encLow3 op x) 12 4 = op.extractLsb' 9 4 ∧ field (encLow3 op x) 9 7 = op.extractLsb' 6 7 ∧
      field (encLow3 op x) 8 8 = op.extractLsb' 5 8 ∧ field (encLow3 op x) 6 10 = op.extractLsb' 3 10 ∧
      field (encLow3 op x) 3 13 = op ∧ field (encLow3 op x) 0 3 = x := by
  refine ⟨?_, ?_, ?_, ?_, ?_, ?_⟩ <;> unfold field encLow3
  · rw [extract_append_high _ _ (by omega)]
  · rw [extract_append_high _ _ (by omega)]
  · rw [extract_append_high _ _ (by omega)]
  · rw [extract_append_high _ _ (by omega)]
  · rw [extract_append_high _ _ (by omega), extract_self]
  · rw [extract_append_low _ _ (by omega), extract_self]

/-! ## A word is the encoding of its fields -/

theorem encDop_fields (w : Word) : encDop (field w 12 4) (field w 6 6) (field w 0 6) = w := by
  apply BitVec.eq_of_getLsbD_eq
  intro i hi
  simp only [encDop, field, BitVec.getLsbD_append, BitVec.getLsbD_extractLsb']
  by_cases h0 : i < 6
  · simp [h0]
  · by_cases h1 : i - 6 < 6
    · have : 6 + (i - 6) = i := by omega
      simp [h0, h1, this]
    · have h2 : i - 6 - 6 < 4 := by omega
      have : 12 + (i - 6 - 6) = i := by omega
      simp [h0, h1, h2, this]

theorem encReg_fields (w : Word) : encReg (field w 9 7) (field w 6 3) (field w 0 6) = w := by
  apply BitVec.eq_of_getLsbD_eq
  intro i hi
  simp only [encReg, field, BitVec.getLsbD_append, BitVec.getLsbD_extractLsb']
  by_cases h0 : i < 6
  · simp [h0]
  · by_cases h1 : i - 6 < 3
    · have : 6 + (i - 6) = i := by omega
      simp [h0, h1, this]
    · have h2 : i - 6 - 3 < 7 := by omega
      have : 9 + (i - 6 - 3) = i := by omega
      simp [h0, h1, h2, this]

theorem encByte_fields (w : Word) : encByte (field w 8 8) (field w 0 8) = w := append_extract (n := 8) (m := 8) w

theorem encOperand_fields (w : Word) : encOperand (field w 6 10) (field w 0 6) = w :=
  append_extract (n := 10) (m := 6) w

theorem encLow3_fields (w : Word) : encLow3 (field w 3 13) (field w 0 3) = w := append_extract (n := 13) (m := 3) w

theorem encMask_fields (w : Word) : encMask (field w 4 12) (field w 0 4) = w := append_extract (n := 12) (m := 4) w

/-! ## The row of the opcode table that accepts an encoded word -/

theorem encDop_mask (op : BitVec 4) (ss dd : BitVec 6) :
    encDop op ss dd &&& 0o170000 = (op ++ 0#12 : BitVec (4 + 12)) := by
  apply BitVec.eq_of_getLsbD_eq
  intro i hi
  simp only [encDop, BitVec.getLsbD_and, BitVec.getLsbD_append]
  interval_cases i <;> simp

theorem encReg_mask (op : BitVec 7) (r : BitVec 3) (x : BitVec 6) :
    encReg op r x &&& 0o177000 = (op ++ 0#9 : BitVec (7 + 9)) := by
  apply BitVec.eq_of_getLsbD_eq
  intro i hi
  simp only [encReg, BitVec.getLsbD_and, BitVec.getLsbD_append]
  interval_cases i <;> simp

theorem encByte_mask (op x : BitVec 8) : encByte op x &&& 0o177400 = (op ++ 0#8 : BitVec (8 + 8)) := by
  apply BitVec.eq_of_getLsbD_eq
  intro i hi
  simp only [encByte, BitVec.getLsbD_and, BitVec.getLsbD_append]
  interval_cases i <;> simp

theorem encOperand_mask (op : BitVec 10) (x : BitVec 6) :
    encOperand op x &&& 0o177700 = (op ++ 0#6 : BitVec (10 + 6)) := by
  apply BitVec.eq_of_getLsbD_eq
  intro i hi
  simp only [encOperand, BitVec.getLsbD_and, BitVec.getLsbD_append]
  interval_cases i <;> simp

theorem encLow3_mask (op : BitVec 13) (x : BitVec 3) :
    encLow3 op x &&& 0o177770 = (op ++ 0#3 : BitVec (13 + 3)) := by
  apply BitVec.eq_of_getLsbD_eq
  intro i hi
  simp only [encLow3, BitVec.getLsbD_and, BitVec.getLsbD_append]
  interval_cases i <;> simp

theorem encMask_mask (op : BitVec 12) (x : BitVec 4) :
    encMask op x &&& 0o177760 = (op ++ 0#4 : BitVec (12 + 4)) := by
  apply BitVec.eq_of_getLsbD_eq
  intro i hi
  simp only [encMask, BitVec.getLsbD_and, BitVec.getLsbD_append]
  interval_cases i <;> simp

/-! ## Which tier accepts an encoded word: the tiers above it do not -/

theorem decodeTierA_none {w : Word} (h : (field w 12 4).toNat = 0 ∨ (field w 12 4).toNat = 7 ∨ (field w 12 4).toNat = 8) :
    decodeTierA w = none := by
  unfold decodeTierA
  rcases h with h | h | h <;> simp only [h]

theorem decodeTierB_none {w : Word}
    (h : (field w 9 7).toNat < 0o004 ∨ 0o004 < (field w 9 7).toNat ∧ (field w 9 7).toNat < 0o070 ∨
      0o100 ≤ (field w 9 7).toNat) : decodeTierB w = none := by
  unfold decodeTierB
  split <;> first | rfl | omega

theorem decodeTierC_none {w : Word} (h : (field w 8 8).toNat = 0 ∨
      0o007 < (field w 8 8).toNat ∧ (field w 8 8).toNat < 0o200 ∨ 0o211 < (field w 8 8).toNat) :
    decodeTierC w = none := by
  unfold decodeTierC
  split <;> first | rfl | omega

theorem decodeTierD_none {w : Word} (h : (field w 6 10).toNat = 0 ∨ (field w 6 10).toNat = 2) :
    decodeTierD w = none := by
  unfold decodeTierD
  rcases h with h | h <;> simp only [h]

theorem decodeWord_encDop {op : BitVec 4} {ss dd : BitVec 6} {i : Instr} (h : decodeTierA (encDop op ss dd) = some i) :
    decodeWord (encDop op ss dd) = some i := by
  simp only [decodeWord, h, Option.some_or]

theorem decodeWord_encReg {op : BitVec 7} {r : BitVec 3} {x : BitVec 6} {i : Instr}
    (hA : (op.extractLsb' 3 4).toNat = 0 ∨ (op.extractLsb' 3 4).toNat = 7 ∨ (op.extractLsb' 3 4).toNat = 8)
    (h : decodeTierB (encReg op r x) = some i) : decodeWord (encReg op r x) = some i := by
  have h1 := decodeTierA_none (w := encReg op r x) (by rw [(field_encReg op r x).1]; exact hA)
  simp only [decodeWord, h, h1, Option.none_or, Option.some_or]

theorem decodeWord_encByte {op x : BitVec 8} {i : Instr}
    (hA : (op.extractLsb' 4 4).toNat = 0 ∨ (op.extractLsb' 4 4).toNat = 7 ∨ (op.extractLsb' 4 4).toNat = 8)
    (hB : (op.extractLsb' 1 7).toNat < 0o004 ∨ 0o004 < (op.extractLsb' 1 7).toNat ∧ (op.extractLsb' 1 7).toNat < 0o070 ∨
      0o100 ≤ (op.extractLsb' 1 7).toNat)
    (h : decodeTierC (encByte op x) = some i) : decodeWord (encByte op x) = some i := by
  obtain ⟨f1, f2, -⟩ := field_encByte op x
  have h1 := decodeTierA_none (w := encByte op x) (by rw [f1]; exact hA)
  have h2 := decodeTierB_none (w := encByte op x) (by rw [f2]; exact hB)
  simp only [decodeWord, h, h1, h2, Option.none_or, Option.some_or]

theorem decodeWord_encOperand {op : BitVec 10} {x : BitVec 6} {i : Instr}
    (hA : (op.extractLsb' 6 4).toNat = 0 ∨ (op.extractLsb' 6 4).toNat = 7 ∨ (op.extractLsb' 6 4).toNat = 8)
    (hB : (op.extractLsb' 3 7).toNat < 0o004 ∨ 0o004 < (op.extractLsb' 3 7).toNat ∧ (op.extractLsb' 3 7).toNat < 0o070 ∨
      0o100 ≤ (op.extractLsb' 3 7).toNat)
    (hC : (op.extractLsb' 2 8).toNat = 0 ∨ 0o007 < (op.extractLsb' 2 8).toNat ∧ (op.extractLsb' 2 8).toNat < 0o200 ∨
      0o211 < (op.extractLsb' 2 8).toNat)
    (h : decodeTierD (encOperand op x) = some i) : decodeWord (encOperand op x) = some i := by
  obtain ⟨f1, f2, f3, -⟩ := field_encOperand op x
  have h1 := decodeTierA_none (w := encOperand op x) (by rw [f1]; exact hA)
  have h2 := decodeTierB_none (w := encOperand op x) (by rw [f2]; exact hB)
  have h3 := decodeTierC_none (w := encOperand op x) (by rw [f3]; exact hC)
  simp only [decodeWord, h, h1, h2, h3, Option.none_or, Option.some_or]

end Sys2Proof
end

