-- ==== Sys2Proof/Laws/Memory.lean ====
section
/-! SUPPORT. RAM: a read after a write, and the canonical form every operation keeps. -/

namespace Sys2Proof.Machine

/-! ## Bytes of a word -/

@[simp] theorem lowByte_joinBytes (hi lo : Byte) : lowByte (joinBytes hi lo) = lo := by
  rw [lowByte, joinBytes, extract_append_low _ _ (by omega), extract_self]

@[simp] theorem highByte_joinBytes (hi lo : Byte) : highByte (joinBytes hi lo) = hi := by
  rw [highByte, joinBytes, extract_append_high _ _ (by omega), extract_self]

@[simp] theorem joinBytes_split (w : Word) : joinBytes (highByte w) (lowByte w) = w :=
  append_extract (n := 8) (m := 8) w

/-! ## One byte -/

@[simp] theorem Memory.read_nil (a : Nat) : Memory.read [] a = unlistedByte := rfl

theorem Memory.read_cons (b : Nat) (v : Byte) (rest : List Host.Cell) (a : Nat) :
    Memory.read ((b, v) :: rest) a = if a = b then v else Memory.read rest a := rfl

/-- Every listed address is above `a`. -/
def Memory.above (a : Nat) (m : List Host.Cell) : Prop := ∀ cell ∈ m, a < cell.1

theorem Memory.wf_cons {a : Nat} {v : Byte} {rest : List Host.Cell} :
    Memory.wf ((a, v) :: rest) = true ↔ v ≠ unlistedByte ∧ Memory.above a rest ∧ Memory.wf rest = true := by
  induction rest generalizing a v with
  | nil => simp [Memory.wf, Memory.above]
  | cons cell rest ih =>
    obtain ⟨b, x⟩ := cell
    constructor
    · intro h
      have h' : (v ≠ unlistedByte ∧ a < b) ∧ Memory.wf ((b, x) :: rest) = true := by
        simpa [Memory.wf, and_assoc] using h
      obtain ⟨⟨hv, hab⟩, hw⟩ := h'
      refine ⟨hv, ?_, hw⟩
      intro cell hc
      rcases List.mem_cons.1 hc with rfl | hc
      · exact hab
      · exact Nat.lt_trans hab ((ih.1 hw).2.1 cell hc)
    · rintro ⟨hv, hab, hw⟩
      have := hab (b, x) (by simp)
      rw [Memory.wf]
      simp [hv, hw, this]

/-- An address below every listed one reads as unlisted. -/
theorem Memory.read_above {a : Nat} {m : List Host.Cell} (h : Memory.above a m) : Memory.read m a = unlistedByte := by
  induction m with
  | nil => rfl
  | cons cell rest ih =>
    obtain ⟨b, x⟩ := cell
    have hab : a < b := h (b, x) (by simp)
    rw [Memory.read_cons, if_neg (by omega)]
    exact ih fun cell hc => h cell (by simp [hc])

theorem Memory.above_mono {a b : Nat} (hab : a ≤ b) {m : List Host.Cell} (h : Memory.above b m) : Memory.above a m :=
  fun cell hc => Nat.lt_of_le_of_lt hab (h cell hc)

/-- A write lists no address but the old ones and its own. -/
theorem Memory.mem_write {m : List Host.Cell} {a : Nat} {v : Byte} {cell : Host.Cell}
    (h : cell ∈ Memory.write m a v) : cell ∈ m ∨ cell = (a, v) := by
  induction m with
  | nil =>
    simp only [Memory.write] at h
    split at h
    · simp at h
    · exact .inr (by simpa using h)
  | cons head rest ih =>
    obtain ⟨b, x⟩ := head
    simp only [Memory.write] at h
    split at h
    · split at h
      · exact .inl h
      · rcases List.mem_cons.1 h with h | h
        · exact .inr h
        · exact .inl h
    · split at h
      · split at h
        · exact .inl (by simp [h])
        · rcases List.mem_cons.1 h with h | h
          · exact .inr h
          · exact .inl (by simp [h])
      · rcases List.mem_cons.1 h with h | h
        · exact .inl (by simp [h])
        · rcases ih h with h | h
          · exact .inl (by simp [h])
          · exact .inr h

theorem Memory.above_write {m : List Host.Cell} {a b : Nat} {v : Byte} (hm : Memory.above b m) (hab : b < a) :
    Memory.above b (Memory.write m a v) := by
  intro cell hc
  rcases Memory.mem_write hc with h | rfl
  · exact hm cell h
  · exact hab

/-- A write keeps the canonical form. -/
theorem Memory.write_wf {m : List Host.Cell} (hm : Memory.wf m = true) (a : Nat) (v : Byte) :
    Memory.wf (Memory.write m a v) = true := by
  induction m with
  | nil =>
    simp only [Memory.write]
    split
    · rfl
    · exact Memory.wf_cons.2 ⟨‹_›, fun _ h => by simp at h, rfl⟩
  | cons head rest ih =>
    obtain ⟨b, x⟩ := head
    obtain ⟨hx, hab, hw⟩ := Memory.wf_cons.1 hm
    simp only [Memory.write]
    split
    · rename_i hlt
      split
      · exact hm
      · refine Memory.wf_cons.2 ⟨‹_›, ?_, hm⟩
        intro cell hc
        rcases List.mem_cons.1 hc with rfl | hc
        · exact hlt
        · exact Nat.lt_trans hlt (hab cell hc)
    · rename_i hlt
      split
      · rename_i heq
        subst heq
        split
        · exact hw
        · exact Memory.wf_cons.2 ⟨‹_›, hab, hw⟩
      · exact Memory.wf_cons.2 ⟨hx, Memory.above_write hab (by omega), ih hw⟩

/-- A byte just written reads back; the canonical form makes this so even when the write unlists the address. -/
theorem Memory.read_write_same {m : List Host.Cell} (hm : Memory.wf m = true) (a : Nat) (v : Byte) :
    Memory.read (Memory.write m a v) a = v := by
  induction m with
  | nil =>
    simp only [Memory.write]
    split
    · simp_all
    · simp [Memory.read_cons]
  | cons head rest ih =>
    obtain ⟨b, x⟩ := head
    obtain ⟨hx, hab, hw⟩ := Memory.wf_cons.1 hm
    simp only [Memory.write]
    split
    · rename_i hlt
      split
      · rename_i hv
        rw [hv, Memory.read_cons, if_neg (by omega)]
        exact Memory.read_above (Memory.above_mono (by omega) hab)
      · simp [Memory.read_cons]
    · split
      · rename_i heq
        subst heq
        split
        · rename_i hv
          rw [hv]
          exact Memory.read_above hab
        · simp [Memory.read_cons]
      · rename_i hne
        rw [Memory.read_cons, if_neg hne]
        exact ih hw

/-- A write leaves every other byte alone. -/
theorem Memory.read_write_other (m : List Host.Cell) {a b : Nat} (v : Byte) (hab : b ≠ a) :
    Memory.read (Memory.write m a v) b = Memory.read m b := by
  induction m with
  | nil =>
    simp only [Memory.write]
    split
    · rfl
    · simp [Memory.read_cons, hab]
  | cons head rest ih =>
    obtain ⟨c, x⟩ := head
    simp only [Memory.write]
    split
    · split
      · rfl
      · simp [Memory.read_cons, hab]
    · split
      · rename_i heq
        subst heq
        split <;> simp [Memory.read_cons, hab]
      · simp only [Memory.read_cons, ih]

/-! ## Words -/

theorem Memory.writeWord_wf {m : List Host.Cell} (hm : Memory.wf m = true) (pa : Nat) (v : Word) :
    Memory.wf (Memory.writeWord m pa v) = true := Memory.write_wf (Memory.write_wf hm _ _) _ _

theorem Memory.mem_writeWord {m : List Host.Cell} {pa : Nat} {v : Word} {cell : Host.Cell}
    (h : cell ∈ Memory.writeWord m pa v) : cell ∈ m ∨ cell.1 = pa ∨ cell.1 = pa + 1 := by
  rcases Memory.mem_write h with h | rfl
  · rcases Memory.mem_write h with h | rfl
    · exact .inl h
    · exact .inr (.inl rfl)
  · exact .inr (.inr rfl)

theorem Memory.readWord_writeWord_same {m : List Host.Cell} (hm : Memory.wf m = true) (pa : Nat) (v : Word) :
    Memory.readWord (Memory.writeWord m pa v) pa = v := by
  unfold Memory.readWord Memory.writeWord
  rw [Memory.read_write_same (Memory.write_wf hm _ _), Memory.read_write_other _ _ (by omega),
    Memory.read_write_same hm, joinBytes_split]

theorem Memory.read_writeWord_other (m : List Host.Cell) {pa a : Nat} (v : Word) (h0 : a ≠ pa) (h1 : a ≠ pa + 1) :
    Memory.read (Memory.writeWord m pa v) a = Memory.read m a := by
  unfold Memory.writeWord
  rw [Memory.read_write_other _ _ h1, Memory.read_write_other _ _ h0]

theorem Memory.readWord_writeWord_other (m : List Host.Cell) {pa qa : Nat} (v : Word)
    (h : qa + 1 < pa ∨ pa + 1 < qa) : Memory.readWord (Memory.writeWord m pa v) qa = Memory.readWord m qa := by
  unfold Memory.readWord
  rw [Memory.read_writeWord_other _ _ (by omega) (by omega), Memory.read_writeWord_other _ _ (by omega) (by omega)]

end Sys2Proof.Machine
end

