-- ==== Sys2Proof/Laws/State.lean ====
section
/-! SUPPORT. One lemma per field per update, true by rfl. -/

namespace Sys2Proof.Machine

/-! ### withBank0 -/

@[simp] theorem withBank0_bank0 (v : Bank) (s : State) : (s.withBank0 v).bank0 = v := rfl
@[simp] theorem withBank0_bank1 (v : Bank) (s : State) : (s.withBank0 v).bank1 = s.bank1 := rfl
@[simp] theorem withBank0_spk (v : Bank) (s : State) : (s.withBank0 v).spk = s.spk := rfl
@[simp] theorem withBank0_sps (v : Bank) (s : State) : (s.withBank0 v).sps = s.sps := rfl
@[simp] theorem withBank0_spu (v : Bank) (s : State) : (s.withBank0 v).spu = s.spu := rfl
@[simp] theorem withBank0_pcr (v : Bank) (s : State) : (s.withBank0 v).pcr = s.pcr := rfl
@[simp] theorem withBank0_psw (v : Bank) (s : State) : (s.withBank0 v).psw = s.psw := rfl
@[simp] theorem withBank0_mmu (v : Bank) (s : State) : (s.withBank0 v).mmu = s.mmu := rfl
@[simp] theorem withBank0_run (v : Bank) (s : State) : (s.withBank0 v).run = s.run := rfl
@[simp] theorem withBank0_currentPc (v : Bank) (s : State) : (s.withBank0 v).currentPc = s.currentPc := rfl
@[simp] theorem withBank0_ram (v : Bank) (s : State) : (s.withBank0 v).ram = s.ram := rfl
@[simp] theorem withBank0_history (v : Bank) (s : State) : (s.withBank0 v).history = s.history := rfl
@[simp] theorem withBank0_offers (v : Bank) (s : State) : (s.withBank0 v).offers = s.offers := rfl
@[simp] theorem withBank0_cfg (v : Bank) (s : State) : (s.withBank0 v).cfg = s.cfg := rfl
@[simp] theorem withBank0_draws (v : Bank) (s : State) : (s.withBank0 v).draws = s.draws := rfl
@[simp] theorem withBank0_ir (v : Bank) (s : State) : (s.withBank0 v).ir = s.ir := rfl

/-! ### withBank1 -/

@[simp] theorem withBank1_bank0 (v : Bank) (s : State) : (s.withBank1 v).bank0 = s.bank0 := rfl
@[simp] theorem withBank1_bank1 (v : Bank) (s : State) : (s.withBank1 v).bank1 = v := rfl
@[simp] theorem withBank1_spk (v : Bank) (s : State) : (s.withBank1 v).spk = s.spk := rfl
@[simp] theorem withBank1_sps (v : Bank) (s : State) : (s.withBank1 v).sps = s.sps := rfl
@[simp] theorem withBank1_spu (v : Bank) (s : State) : (s.withBank1 v).spu = s.spu := rfl
@[simp] theorem withBank1_pcr (v : Bank) (s : State) : (s.withBank1 v).pcr = s.pcr := rfl
@[simp] theorem withBank1_psw (v : Bank) (s : State) : (s.withBank1 v).psw = s.psw := rfl
@[simp] theorem withBank1_mmu (v : Bank) (s : State) : (s.withBank1 v).mmu = s.mmu := rfl
@[simp] theorem withBank1_run (v : Bank) (s : State) : (s.withBank1 v).run = s.run := rfl
@[simp] theorem withBank1_currentPc (v : Bank) (s : State) : (s.withBank1 v).currentPc = s.currentPc := rfl
@[simp] theorem withBank1_ram (v : Bank) (s : State) : (s.withBank1 v).ram = s.ram := rfl
@[simp] theorem withBank1_history (v : Bank) (s : State) : (s.withBank1 v).history = s.history := rfl
@[simp] theorem withBank1_offers (v : Bank) (s : State) : (s.withBank1 v).offers = s.offers := rfl
@[simp] theorem withBank1_cfg (v : Bank) (s : State) : (s.withBank1 v).cfg = s.cfg := rfl
@[simp] theorem withBank1_draws (v : Bank) (s : State) : (s.withBank1 v).draws = s.draws := rfl
@[simp] theorem withBank1_ir (v : Bank) (s : State) : (s.withBank1 v).ir = s.ir := rfl

/-! ### withSpk -/

@[simp] theorem withSpk_bank0 (v : Word) (s : State) : (s.withSpk v).bank0 = s.bank0 := rfl
@[simp] theorem withSpk_bank1 (v : Word) (s : State) : (s.withSpk v).bank1 = s.bank1 := rfl
@[simp] theorem withSpk_spk (v : Word) (s : State) : (s.withSpk v).spk = v := rfl
@[simp] theorem withSpk_sps (v : Word) (s : State) : (s.withSpk v).sps = s.sps := rfl
@[simp] theorem withSpk_spu (v : Word) (s : State) : (s.withSpk v).spu = s.spu := rfl
@[simp] theorem withSpk_pcr (v : Word) (s : State) : (s.withSpk v).pcr = s.pcr := rfl
@[simp] theorem withSpk_psw (v : Word) (s : State) : (s.withSpk v).psw = s.psw := rfl
@[simp] theorem withSpk_mmu (v : Word) (s : State) : (s.withSpk v).mmu = s.mmu := rfl
@[simp] theorem withSpk_run (v : Word) (s : State) : (s.withSpk v).run = s.run := rfl
@[simp] theorem withSpk_currentPc (v : Word) (s : State) : (s.withSpk v).currentPc = s.currentPc := rfl
@[simp] theorem withSpk_ram (v : Word) (s : State) : (s.withSpk v).ram = s.ram := rfl
@[simp] theorem withSpk_history (v : Word) (s : State) : (s.withSpk v).history = s.history := rfl
@[simp] theorem withSpk_offers (v : Word) (s : State) : (s.withSpk v).offers = s.offers := rfl
@[simp] theorem withSpk_cfg (v : Word) (s : State) : (s.withSpk v).cfg = s.cfg := rfl
@[simp] theorem withSpk_draws (v : Word) (s : State) : (s.withSpk v).draws = s.draws := rfl
@[simp] theorem withSpk_ir (v : Word) (s : State) : (s.withSpk v).ir = s.ir := rfl

/-! ### withSps -/

@[simp] theorem withSps_bank0 (v : Word) (s : State) : (s.withSps v).bank0 = s.bank0 := rfl
@[simp] theorem withSps_bank1 (v : Word) (s : State) : (s.withSps v).bank1 = s.bank1 := rfl
@[simp] theorem withSps_spk (v : Word) (s : State) : (s.withSps v).spk = s.spk := rfl
@[simp] theorem withSps_sps (v : Word) (s : State) : (s.withSps v).sps = v := rfl
@[simp] theorem withSps_spu (v : Word) (s : State) : (s.withSps v).spu = s.spu := rfl
@[simp] theorem withSps_pcr (v : Word) (s : State) : (s.withSps v).pcr = s.pcr := rfl
@[simp] theorem withSps_psw (v : Word) (s : State) : (s.withSps v).psw = s.psw := rfl
@[simp] theorem withSps_mmu (v : Word) (s : State) : (s.withSps v).mmu = s.mmu := rfl
@[simp] theorem withSps_run (v : Word) (s : State) : (s.withSps v).run = s.run := rfl
@[simp] theorem withSps_currentPc (v : Word) (s : State) : (s.withSps v).currentPc = s.currentPc := rfl
@[simp] theorem withSps_ram (v : Word) (s : State) : (s.withSps v).ram = s.ram := rfl
@[simp] theorem withSps_history (v : Word) (s : State) : (s.withSps v).history = s.history := rfl
@[simp] theorem withSps_offers (v : Word) (s : State) : (s.withSps v).offers = s.offers := rfl
@[simp] theorem withSps_cfg (v : Word) (s : State) : (s.withSps v).cfg = s.cfg := rfl
@[simp] theorem withSps_draws (v : Word) (s : State) : (s.withSps v).draws = s.draws := rfl
@[simp] theorem withSps_ir (v : Word) (s : State) : (s.withSps v).ir = s.ir := rfl

/-! ### withSpu -/

@[simp] theorem withSpu_bank0 (v : Word) (s : State) : (s.withSpu v).bank0 = s.bank0 := rfl
@[simp] theorem withSpu_bank1 (v : Word) (s : State) : (s.withSpu v).bank1 = s.bank1 := rfl
@[simp] theorem withSpu_spk (v : Word) (s : State) : (s.withSpu v).spk = s.spk := rfl
@[simp] theorem withSpu_sps (v : Word) (s : State) : (s.withSpu v).sps = s.sps := rfl
@[simp] theorem withSpu_spu (v : Word) (s : State) : (s.withSpu v).spu = v := rfl
@[simp] theorem withSpu_pcr (v : Word) (s : State) : (s.withSpu v).pcr = s.pcr := rfl
@[simp] theorem withSpu_psw (v : Word) (s : State) : (s.withSpu v).psw = s.psw := rfl
@[simp] theorem withSpu_mmu (v : Word) (s : State) : (s.withSpu v).mmu = s.mmu := rfl
@[simp] theorem withSpu_run (v : Word) (s : State) : (s.withSpu v).run = s.run := rfl
@[simp] theorem withSpu_currentPc (v : Word) (s : State) : (s.withSpu v).currentPc = s.currentPc := rfl
@[simp] theorem withSpu_ram (v : Word) (s : State) : (s.withSpu v).ram = s.ram := rfl
@[simp] theorem withSpu_history (v : Word) (s : State) : (s.withSpu v).history = s.history := rfl
@[simp] theorem withSpu_offers (v : Word) (s : State) : (s.withSpu v).offers = s.offers := rfl
@[simp] theorem withSpu_cfg (v : Word) (s : State) : (s.withSpu v).cfg = s.cfg := rfl
@[simp] theorem withSpu_draws (v : Word) (s : State) : (s.withSpu v).draws = s.draws := rfl
@[simp] theorem withSpu_ir (v : Word) (s : State) : (s.withSpu v).ir = s.ir := rfl

/-! ### withPc -/

@[simp] theorem withPc_bank0 (v : Word) (s : State) : (s.withPc v).bank0 = s.bank0 := rfl
@[simp] theorem withPc_bank1 (v : Word) (s : State) : (s.withPc v).bank1 = s.bank1 := rfl
@[simp] theorem withPc_spk (v : Word) (s : State) : (s.withPc v).spk = s.spk := rfl
@[simp] theorem withPc_sps (v : Word) (s : State) : (s.withPc v).sps = s.sps := rfl
@[simp] theorem withPc_spu (v : Word) (s : State) : (s.withPc v).spu = s.spu := rfl
@[simp] theorem withPc_pcr (v : Word) (s : State) : (s.withPc v).pcr = v := rfl
@[simp] theorem withPc_psw (v : Word) (s : State) : (s.withPc v).psw = s.psw := rfl
@[simp] theorem withPc_mmu (v : Word) (s : State) : (s.withPc v).mmu = s.mmu := rfl
@[simp] theorem withPc_run (v : Word) (s : State) : (s.withPc v).run = s.run := rfl
@[simp] theorem withPc_currentPc (v : Word) (s : State) : (s.withPc v).currentPc = s.currentPc := rfl
@[simp] theorem withPc_ram (v : Word) (s : State) : (s.withPc v).ram = s.ram := rfl
@[simp] theorem withPc_history (v : Word) (s : State) : (s.withPc v).history = s.history := rfl
@[simp] theorem withPc_offers (v : Word) (s : State) : (s.withPc v).offers = s.offers := rfl
@[simp] theorem withPc_cfg (v : Word) (s : State) : (s.withPc v).cfg = s.cfg := rfl
@[simp] theorem withPc_draws (v : Word) (s : State) : (s.withPc v).draws = s.draws := rfl
@[simp] theorem withPc_ir (v : Word) (s : State) : (s.withPc v).ir = s.ir := rfl

/-! ### withPsw -/

@[simp] theorem withPsw_bank0 (v : Psw) (s : State) : (s.withPsw v).bank0 = s.bank0 := rfl
@[simp] theorem withPsw_bank1 (v : Psw) (s : State) : (s.withPsw v).bank1 = s.bank1 := rfl
@[simp] theorem withPsw_spk (v : Psw) (s : State) : (s.withPsw v).spk = s.spk := rfl
@[simp] theorem withPsw_sps (v : Psw) (s : State) : (s.withPsw v).sps = s.sps := rfl
@[simp] theorem withPsw_spu (v : Psw) (s : State) : (s.withPsw v).spu = s.spu := rfl
@[simp] theorem withPsw_pcr (v : Psw) (s : State) : (s.withPsw v).pcr = s.pcr := rfl
@[simp] theorem withPsw_psw (v : Psw) (s : State) : (s.withPsw v).psw = v := rfl
@[simp] theorem withPsw_mmu (v : Psw) (s : State) : (s.withPsw v).mmu = s.mmu := rfl
@[simp] theorem withPsw_run (v : Psw) (s : State) : (s.withPsw v).run = s.run := rfl
@[simp] theorem withPsw_currentPc (v : Psw) (s : State) : (s.withPsw v).currentPc = s.currentPc := rfl
@[simp] theorem withPsw_ram (v : Psw) (s : State) : (s.withPsw v).ram = s.ram := rfl
@[simp] theorem withPsw_history (v : Psw) (s : State) : (s.withPsw v).history = s.history := rfl
@[simp] theorem withPsw_offers (v : Psw) (s : State) : (s.withPsw v).offers = s.offers := rfl
@[simp] theorem withPsw_cfg (v : Psw) (s : State) : (s.withPsw v).cfg = s.cfg := rfl
@[simp] theorem withPsw_draws (v : Psw) (s : State) : (s.withPsw v).draws = s.draws := rfl
@[simp] theorem withPsw_ir (v : Psw) (s : State) : (s.withPsw v).ir = s.ir := rfl

/-! ### withMmu -/

@[simp] theorem withMmu_bank0 (v : Mmu) (s : State) : (s.withMmu v).bank0 = s.bank0 := rfl
@[simp] theorem withMmu_bank1 (v : Mmu) (s : State) : (s.withMmu v).bank1 = s.bank1 := rfl
@[simp] theorem withMmu_spk (v : Mmu) (s : State) : (s.withMmu v).spk = s.spk := rfl
@[simp] theorem withMmu_sps (v : Mmu) (s : State) : (s.withMmu v).sps = s.sps := rfl
@[simp] theorem withMmu_spu (v : Mmu) (s : State) : (s.withMmu v).spu = s.spu := rfl
@[simp] theorem withMmu_pcr (v : Mmu) (s : State) : (s.withMmu v).pcr = s.pcr := rfl
@[simp] theorem withMmu_psw (v : Mmu) (s : State) : (s.withMmu v).psw = s.psw := rfl
@[simp] theorem withMmu_mmu (v : Mmu) (s : State) : (s.withMmu v).mmu = v := rfl
@[simp] theorem withMmu_run (v : Mmu) (s : State) : (s.withMmu v).run = s.run := rfl
@[simp] theorem withMmu_currentPc (v : Mmu) (s : State) : (s.withMmu v).currentPc = s.currentPc := rfl
@[simp] theorem withMmu_ram (v : Mmu) (s : State) : (s.withMmu v).ram = s.ram := rfl
@[simp] theorem withMmu_history (v : Mmu) (s : State) : (s.withMmu v).history = s.history := rfl
@[simp] theorem withMmu_offers (v : Mmu) (s : State) : (s.withMmu v).offers = s.offers := rfl
@[simp] theorem withMmu_cfg (v : Mmu) (s : State) : (s.withMmu v).cfg = s.cfg := rfl
@[simp] theorem withMmu_draws (v : Mmu) (s : State) : (s.withMmu v).draws = s.draws := rfl
@[simp] theorem withMmu_ir (v : Mmu) (s : State) : (s.withMmu v).ir = s.ir := rfl

/-! ### withRun -/

@[simp] theorem withRun_bank0 (v : RunState) (s : State) : (s.withRun v).bank0 = s.bank0 := rfl
@[simp] theorem withRun_bank1 (v : RunState) (s : State) : (s.withRun v).bank1 = s.bank1 := rfl
@[simp] theorem withRun_spk (v : RunState) (s : State) : (s.withRun v).spk = s.spk := rfl
@[simp] theorem withRun_sps (v : RunState) (s : State) : (s.withRun v).sps = s.sps := rfl
@[simp] theorem withRun_spu (v : RunState) (s : State) : (s.withRun v).spu = s.spu := rfl
@[simp] theorem withRun_pcr (v : RunState) (s : State) : (s.withRun v).pcr = s.pcr := rfl
@[simp] theorem withRun_psw (v : RunState) (s : State) : (s.withRun v).psw = s.psw := rfl
@[simp] theorem withRun_mmu (v : RunState) (s : State) : (s.withRun v).mmu = s.mmu := rfl
@[simp] theorem withRun_run (v : RunState) (s : State) : (s.withRun v).run = v := rfl
@[simp] theorem withRun_currentPc (v : RunState) (s : State) : (s.withRun v).currentPc = s.currentPc := rfl
@[simp] theorem withRun_ram (v : RunState) (s : State) : (s.withRun v).ram = s.ram := rfl
@[simp] theorem withRun_history (v : RunState) (s : State) : (s.withRun v).history = s.history := rfl
@[simp] theorem withRun_offers (v : RunState) (s : State) : (s.withRun v).offers = s.offers := rfl
@[simp] theorem withRun_cfg (v : RunState) (s : State) : (s.withRun v).cfg = s.cfg := rfl
@[simp] theorem withRun_draws (v : RunState) (s : State) : (s.withRun v).draws = s.draws := rfl
@[simp] theorem withRun_ir (v : RunState) (s : State) : (s.withRun v).ir = s.ir := rfl

/-! ### withCurrentPc -/

@[simp] theorem withCurrentPc_bank0 (v : Word) (s : State) : (s.withCurrentPc v).bank0 = s.bank0 := rfl
@[simp] theorem withCurrentPc_bank1 (v : Word) (s : State) : (s.withCurrentPc v).bank1 = s.bank1 := rfl
@[simp] theorem withCurrentPc_spk (v : Word) (s : State) : (s.withCurrentPc v).spk = s.spk := rfl
@[simp] theorem withCurrentPc_sps (v : Word) (s : State) : (s.withCurrentPc v).sps = s.sps := rfl
@[simp] theorem withCurrentPc_spu (v : Word) (s : State) : (s.withCurrentPc v).spu = s.spu := rfl
@[simp] theorem withCurrentPc_pcr (v : Word) (s : State) : (s.withCurrentPc v).pcr = s.pcr := rfl
@[simp] theorem withCurrentPc_psw (v : Word) (s : State) : (s.withCurrentPc v).psw = s.psw := rfl
@[simp] theorem withCurrentPc_mmu (v : Word) (s : State) : (s.withCurrentPc v).mmu = s.mmu := rfl
@[simp] theorem withCurrentPc_run (v : Word) (s : State) : (s.withCurrentPc v).run = s.run := rfl
@[simp] theorem withCurrentPc_currentPc (v : Word) (s : State) : (s.withCurrentPc v).currentPc = v := rfl
@[simp] theorem withCurrentPc_ram (v : Word) (s : State) : (s.withCurrentPc v).ram = s.ram := rfl
@[simp] theorem withCurrentPc_history (v : Word) (s : State) : (s.withCurrentPc v).history = s.history := rfl
@[simp] theorem withCurrentPc_offers (v : Word) (s : State) : (s.withCurrentPc v).offers = s.offers := rfl
@[simp] theorem withCurrentPc_cfg (v : Word) (s : State) : (s.withCurrentPc v).cfg = s.cfg := rfl
@[simp] theorem withCurrentPc_draws (v : Word) (s : State) : (s.withCurrentPc v).draws = s.draws := rfl
@[simp] theorem withCurrentPc_ir (v : Word) (s : State) : (s.withCurrentPc v).ir = s.ir := rfl

/-! ### withRam -/

@[simp] theorem withRam_bank0 (v : List Host.Cell) (s : State) : (s.withRam v).bank0 = s.bank0 := rfl
@[simp] theorem withRam_bank1 (v : List Host.Cell) (s : State) : (s.withRam v).bank1 = s.bank1 := rfl
@[simp] theorem withRam_spk (v : List Host.Cell) (s : State) : (s.withRam v).spk = s.spk := rfl
@[simp] theorem withRam_sps (v : List Host.Cell) (s : State) : (s.withRam v).sps = s.sps := rfl
@[simp] theorem withRam_spu (v : List Host.Cell) (s : State) : (s.withRam v).spu = s.spu := rfl
@[simp] theorem withRam_pcr (v : List Host.Cell) (s : State) : (s.withRam v).pcr = s.pcr := rfl
@[simp] theorem withRam_psw (v : List Host.Cell) (s : State) : (s.withRam v).psw = s.psw := rfl
@[simp] theorem withRam_mmu (v : List Host.Cell) (s : State) : (s.withRam v).mmu = s.mmu := rfl
@[simp] theorem withRam_run (v : List Host.Cell) (s : State) : (s.withRam v).run = s.run := rfl
@[simp] theorem withRam_currentPc (v : List Host.Cell) (s : State) : (s.withRam v).currentPc = s.currentPc := rfl
@[simp] theorem withRam_ram (v : List Host.Cell) (s : State) : (s.withRam v).ram = v := rfl
@[simp] theorem withRam_history (v : List Host.Cell) (s : State) : (s.withRam v).history = s.history := rfl
@[simp] theorem withRam_offers (v : List Host.Cell) (s : State) : (s.withRam v).offers = s.offers := rfl
@[simp] theorem withRam_cfg (v : List Host.Cell) (s : State) : (s.withRam v).cfg = s.cfg := rfl
@[simp] theorem withRam_draws (v : List Host.Cell) (s : State) : (s.withRam v).draws = s.draws := rfl
@[simp] theorem withRam_ir (v : List Host.Cell) (s : State) : (s.withRam v).ir = s.ir := rfl

/-! ### withHistory -/

@[simp] theorem withHistory_bank0 (v : List BusEvent) (s : State) : (s.withHistory v).bank0 = s.bank0 := rfl
@[simp] theorem withHistory_bank1 (v : List BusEvent) (s : State) : (s.withHistory v).bank1 = s.bank1 := rfl
@[simp] theorem withHistory_spk (v : List BusEvent) (s : State) : (s.withHistory v).spk = s.spk := rfl
@[simp] theorem withHistory_sps (v : List BusEvent) (s : State) : (s.withHistory v).sps = s.sps := rfl
@[simp] theorem withHistory_spu (v : List BusEvent) (s : State) : (s.withHistory v).spu = s.spu := rfl
@[simp] theorem withHistory_pcr (v : List BusEvent) (s : State) : (s.withHistory v).pcr = s.pcr := rfl
@[simp] theorem withHistory_psw (v : List BusEvent) (s : State) : (s.withHistory v).psw = s.psw := rfl
@[simp] theorem withHistory_mmu (v : List BusEvent) (s : State) : (s.withHistory v).mmu = s.mmu := rfl
@[simp] theorem withHistory_run (v : List BusEvent) (s : State) : (s.withHistory v).run = s.run := rfl
@[simp] theorem withHistory_currentPc (v : List BusEvent) (s : State) : (s.withHistory v).currentPc = s.currentPc := rfl
@[simp] theorem withHistory_ram (v : List BusEvent) (s : State) : (s.withHistory v).ram = s.ram := rfl
@[simp] theorem withHistory_history (v : List BusEvent) (s : State) : (s.withHistory v).history = v := rfl
@[simp] theorem withHistory_offers (v : List BusEvent) (s : State) : (s.withHistory v).offers = s.offers := rfl
@[simp] theorem withHistory_cfg (v : List BusEvent) (s : State) : (s.withHistory v).cfg = s.cfg := rfl
@[simp] theorem withHistory_draws (v : List BusEvent) (s : State) : (s.withHistory v).draws = s.draws := rfl
@[simp] theorem withHistory_ir (v : List BusEvent) (s : State) : (s.withHistory v).ir = s.ir := rfl

/-! ### withOffers -/

@[simp] theorem withOffers_bank0 (v : List (Option Offer)) (s : State) : (s.withOffers v).bank0 = s.bank0 := rfl
@[simp] theorem withOffers_bank1 (v : List (Option Offer)) (s : State) : (s.withOffers v).bank1 = s.bank1 := rfl
@[simp] theorem withOffers_spk (v : List (Option Offer)) (s : State) : (s.withOffers v).spk = s.spk := rfl
@[simp] theorem withOffers_sps (v : List (Option Offer)) (s : State) : (s.withOffers v).sps = s.sps := rfl
@[simp] theorem withOffers_spu (v : List (Option Offer)) (s : State) : (s.withOffers v).spu = s.spu := rfl
@[simp] theorem withOffers_pcr (v : List (Option Offer)) (s : State) : (s.withOffers v).pcr = s.pcr := rfl
@[simp] theorem withOffers_psw (v : List (Option Offer)) (s : State) : (s.withOffers v).psw = s.psw := rfl
@[simp] theorem withOffers_mmu (v : List (Option Offer)) (s : State) : (s.withOffers v).mmu = s.mmu := rfl
@[simp] theorem withOffers_run (v : List (Option Offer)) (s : State) : (s.withOffers v).run = s.run := rfl
@[simp] theorem withOffers_currentPc (v : List (Option Offer)) (s : State) : (s.withOffers v).currentPc = s.currentPc := rfl
@[simp] theorem withOffers_ram (v : List (Option Offer)) (s : State) : (s.withOffers v).ram = s.ram := rfl
@[simp] theorem withOffers_history (v : List (Option Offer)) (s : State) : (s.withOffers v).history = s.history := rfl
@[simp] theorem withOffers_offers (v : List (Option Offer)) (s : State) : (s.withOffers v).offers = v := rfl
@[simp] theorem withOffers_cfg (v : List (Option Offer)) (s : State) : (s.withOffers v).cfg = s.cfg := rfl
@[simp] theorem withOffers_draws (v : List (Option Offer)) (s : State) : (s.withOffers v).draws = s.draws := rfl
@[simp] theorem withOffers_ir (v : List (Option Offer)) (s : State) : (s.withOffers v).ir = s.ir := rfl

/-! ### withCfg -/

@[simp] theorem withCfg_bank0 (v : Config) (s : State) : (s.withCfg v).bank0 = s.bank0 := rfl
@[simp] theorem withCfg_bank1 (v : Config) (s : State) : (s.withCfg v).bank1 = s.bank1 := rfl
@[simp] theorem withCfg_spk (v : Config) (s : State) : (s.withCfg v).spk = s.spk := rfl
@[simp] theorem withCfg_sps (v : Config) (s : State) : (s.withCfg v).sps = s.sps := rfl
@[simp] theorem withCfg_spu (v : Config) (s : State) : (s.withCfg v).spu = s.spu := rfl
@[simp] theorem withCfg_pcr (v : Config) (s : State) : (s.withCfg v).pcr = s.pcr := rfl
@[simp] theorem withCfg_psw (v : Config) (s : State) : (s.withCfg v).psw = s.psw := rfl
@[simp] theorem withCfg_mmu (v : Config) (s : State) : (s.withCfg v).mmu = s.mmu := rfl
@[simp] theorem withCfg_run (v : Config) (s : State) : (s.withCfg v).run = s.run := rfl
@[simp] theorem withCfg_currentPc (v : Config) (s : State) : (s.withCfg v).currentPc = s.currentPc := rfl
@[simp] theorem withCfg_ram (v : Config) (s : State) : (s.withCfg v).ram = s.ram := rfl
@[simp] theorem withCfg_history (v : Config) (s : State) : (s.withCfg v).history = s.history := rfl
@[simp] theorem withCfg_offers (v : Config) (s : State) : (s.withCfg v).offers = s.offers := rfl
@[simp] theorem withCfg_cfg (v : Config) (s : State) : (s.withCfg v).cfg = v := rfl
@[simp] theorem withCfg_draws (v : Config) (s : State) : (s.withCfg v).draws = s.draws := rfl
@[simp] theorem withCfg_ir (v : Config) (s : State) : (s.withCfg v).ir = s.ir := rfl

/-! ### withDraws -/

@[simp] theorem withDraws_bank0 (v : Nat) (s : State) : (s.withDraws v).bank0 = s.bank0 := rfl
@[simp] theorem withDraws_bank1 (v : Nat) (s : State) : (s.withDraws v).bank1 = s.bank1 := rfl
@[simp] theorem withDraws_spk (v : Nat) (s : State) : (s.withDraws v).spk = s.spk := rfl
@[simp] theorem withDraws_sps (v : Nat) (s : State) : (s.withDraws v).sps = s.sps := rfl
@[simp] theorem withDraws_spu (v : Nat) (s : State) : (s.withDraws v).spu = s.spu := rfl
@[simp] theorem withDraws_pcr (v : Nat) (s : State) : (s.withDraws v).pcr = s.pcr := rfl
@[simp] theorem withDraws_psw (v : Nat) (s : State) : (s.withDraws v).psw = s.psw := rfl
@[simp] theorem withDraws_mmu (v : Nat) (s : State) : (s.withDraws v).mmu = s.mmu := rfl
@[simp] theorem withDraws_run (v : Nat) (s : State) : (s.withDraws v).run = s.run := rfl
@[simp] theorem withDraws_currentPc (v : Nat) (s : State) : (s.withDraws v).currentPc = s.currentPc := rfl
@[simp] theorem withDraws_ram (v : Nat) (s : State) : (s.withDraws v).ram = s.ram := rfl
@[simp] theorem withDraws_history (v : Nat) (s : State) : (s.withDraws v).history = s.history := rfl
@[simp] theorem withDraws_offers (v : Nat) (s : State) : (s.withDraws v).offers = s.offers := rfl
@[simp] theorem withDraws_cfg (v : Nat) (s : State) : (s.withDraws v).cfg = s.cfg := rfl
@[simp] theorem withDraws_draws (v : Nat) (s : State) : (s.withDraws v).draws = v := rfl
@[simp] theorem withDraws_ir (v : Nat) (s : State) : (s.withDraws v).ir = s.ir := rfl

/-! ### withIr -/

@[simp] theorem withIr_bank0 (v : Option Word) (s : State) : (s.withIr v).bank0 = s.bank0 := rfl
@[simp] theorem withIr_bank1 (v : Option Word) (s : State) : (s.withIr v).bank1 = s.bank1 := rfl
@[simp] theorem withIr_spk (v : Option Word) (s : State) : (s.withIr v).spk = s.spk := rfl
@[simp] theorem withIr_sps (v : Option Word) (s : State) : (s.withIr v).sps = s.sps := rfl
@[simp] theorem withIr_spu (v : Option Word) (s : State) : (s.withIr v).spu = s.spu := rfl
@[simp] theorem withIr_pcr (v : Option Word) (s : State) : (s.withIr v).pcr = s.pcr := rfl
@[simp] theorem withIr_psw (v : Option Word) (s : State) : (s.withIr v).psw = s.psw := rfl
@[simp] theorem withIr_mmu (v : Option Word) (s : State) : (s.withIr v).mmu = s.mmu := rfl
@[simp] theorem withIr_run (v : Option Word) (s : State) : (s.withIr v).run = s.run := rfl
@[simp] theorem withIr_currentPc (v : Option Word) (s : State) : (s.withIr v).currentPc = s.currentPc := rfl
@[simp] theorem withIr_ram (v : Option Word) (s : State) : (s.withIr v).ram = s.ram := rfl
@[simp] theorem withIr_history (v : Option Word) (s : State) : (s.withIr v).history = s.history := rfl
@[simp] theorem withIr_offers (v : Option Word) (s : State) : (s.withIr v).offers = s.offers := rfl
@[simp] theorem withIr_cfg (v : Option Word) (s : State) : (s.withIr v).cfg = s.cfg := rfl
@[simp] theorem withIr_draws (v : Option Word) (s : State) : (s.withIr v).draws = s.draws := rfl
@[simp] theorem withIr_ir (v : Option Word) (s : State) : (s.withIr v).ir = v := rfl

end Sys2Proof.Machine
end

