-- ==== Sys2Proof/Laws/Registers.lean ====
section
/-! SUPPORT. Registers: what a write changes, what it leaves, and reading back. -/

namespace Sys2Proof.Machine

/-! ## Fields under the register updates -/

@[simp] theorem withBank_spk (b : Bank) (s : State) : (s.withBank b).spk = s.spk := by unfold State.withBank; split <;> rfl
@[simp] theorem withBank_sps (b : Bank) (s : State) : (s.withBank b).sps = s.sps := by unfold State.withBank; split <;> rfl
@[simp] theorem withBank_spu (b : Bank) (s : State) : (s.withBank b).spu = s.spu := by unfold State.withBank; split <;> rfl
@[simp] theorem withBank_pcr (b : Bank) (s : State) : (s.withBank b).pcr = s.pcr := by unfold State.withBank; split <;> rfl
@[simp] theorem withBank_psw (b : Bank) (s : State) : (s.withBank b).psw = s.psw := by unfold State.withBank; split <;> rfl
@[simp] theorem withBank_mmu (b : Bank) (s : State) : (s.withBank b).mmu = s.mmu := by unfold State.withBank; split <;> rfl
@[simp] theorem withBank_run (b : Bank) (s : State) : (s.withBank b).run = s.run := by unfold State.withBank; split <;> rfl
@[simp] theorem withBank_currentPc (b : Bank) (s : State) : (s.withBank b).currentPc = s.currentPc := by unfold State.withBank; split <;> rfl
@[simp] theorem withBank_ram (b : Bank) (s : State) : (s.withBank b).ram = s.ram := by unfold State.withBank; split <;> rfl
@[simp] theorem withBank_history (b : Bank) (s : State) : (s.withBank b).history = s.history := by unfold State.withBank; split <;> rfl
@[simp] theorem withBank_offers (b : Bank) (s : State) : (s.withBank b).offers = s.offers := by unfold State.withBank; split <;> rfl
@[simp] theorem withBank_cfg (b : Bank) (s : State) : (s.withBank b).cfg = s.cfg := by unfold State.withBank; split <;> rfl
@[simp] theorem withBank_draws (b : Bank) (s : State) : (s.withBank b).draws = s.draws := by unfold State.withBank; split <;> rfl
@[simp] theorem withBank_ir (b : Bank) (s : State) : (s.withBank b).ir = s.ir := by unfold State.withBank; split <;> rfl

@[simp] theorem withSpOf_bank0 (m : Mode) (v : Word) (s : State) : (s.withSpOf m v).bank0 = s.bank0 := by cases m <;> rfl
@[simp] theorem withSpOf_bank1 (m : Mode) (v : Word) (s : State) : (s.withSpOf m v).bank1 = s.bank1 := by cases m <;> rfl
@[simp] theorem withSpOf_pcr (m : Mode) (v : Word) (s : State) : (s.withSpOf m v).pcr = s.pcr := by cases m <;> rfl
@[simp] theorem withSpOf_psw (m : Mode) (v : Word) (s : State) : (s.withSpOf m v).psw = s.psw := by cases m <;> rfl
@[simp] theorem withSpOf_mmu (m : Mode) (v : Word) (s : State) : (s.withSpOf m v).mmu = s.mmu := by cases m <;> rfl
@[simp] theorem withSpOf_run (m : Mode) (v : Word) (s : State) : (s.withSpOf m v).run = s.run := by cases m <;> rfl
@[simp] theorem withSpOf_currentPc (m : Mode) (v : Word) (s : State) : (s.withSpOf m v).currentPc = s.currentPc := by cases m <;> rfl
@[simp] theorem withSpOf_ram (m : Mode) (v : Word) (s : State) : (s.withSpOf m v).ram = s.ram := by cases m <;> rfl
@[simp] theorem withSpOf_history (m : Mode) (v : Word) (s : State) : (s.withSpOf m v).history = s.history := by cases m <;> rfl
@[simp] theorem withSpOf_offers (m : Mode) (v : Word) (s : State) : (s.withSpOf m v).offers = s.offers := by cases m <;> rfl
@[simp] theorem withSpOf_cfg (m : Mode) (v : Word) (s : State) : (s.withSpOf m v).cfg = s.cfg := by cases m <;> rfl
@[simp] theorem withSpOf_draws (m : Mode) (v : Word) (s : State) : (s.withSpOf m v).draws = s.draws := by cases m <;> rfl
@[simp] theorem withSpOf_ir (m : Mode) (v : Word) (s : State) : (s.withSpOf m v).ir = s.ir := by cases m <;> rfl

@[simp] theorem writeReg_psw (r : Reg) (v : Word) (s : State) : (writeReg r v s).psw = s.psw := by cases r <;> simp [writeReg]
@[simp] theorem writeReg_mmu (r : Reg) (v : Word) (s : State) : (writeReg r v s).mmu = s.mmu := by cases r <;> simp [writeReg]
@[simp] theorem writeReg_run (r : Reg) (v : Word) (s : State) : (writeReg r v s).run = s.run := by cases r <;> simp [writeReg]
@[simp] theorem writeReg_currentPc (r : Reg) (v : Word) (s : State) : (writeReg r v s).currentPc = s.currentPc := by cases r <;> simp [writeReg]
@[simp] theorem writeReg_ram (r : Reg) (v : Word) (s : State) : (writeReg r v s).ram = s.ram := by cases r <;> simp [writeReg]
@[simp] theorem writeReg_history (r : Reg) (v : Word) (s : State) : (writeReg r v s).history = s.history := by cases r <;> simp [writeReg]
@[simp] theorem writeReg_offers (r : Reg) (v : Word) (s : State) : (writeReg r v s).offers = s.offers := by cases r <;> simp [writeReg]
@[simp] theorem writeReg_cfg (r : Reg) (v : Word) (s : State) : (writeReg r v s).cfg = s.cfg := by cases r <;> simp [writeReg]
@[simp] theorem writeReg_draws (r : Reg) (v : Word) (s : State) : (writeReg r v s).draws = s.draws := by cases r <;> simp [writeReg]
@[simp] theorem writeReg_ir (r : Reg) (v : Word) (s : State) : (writeReg r v s).ir = s.ir := by cases r <;> simp [writeReg]

@[simp] theorem withBank_bank (b : Bank) (s : State) : (s.withBank b).bank = b := by
  unfold State.withBank State.bank
  split <;> simp [*]

@[simp] theorem withSpOf_bank (m : Mode) (v : Word) (s : State) : (s.withSpOf m v).bank = s.bank := by
  simp [State.bank]

@[simp] theorem withPc_bank (v : Word) (s : State) : (s.withPc v).bank = s.bank := rfl

@[simp] theorem withBank_spOf (b : Bank) (s : State) (m : Mode) : (s.withBank b).spOf m = s.spOf m := by
  cases m <;> simp [State.spOf]

@[simp] theorem withPc_spOf (v : Word) (s : State) (m : Mode) : (s.withPc v).spOf m = s.spOf m := by
  cases m <;> rfl

@[simp] theorem withSpOf_spOf_same (m : Mode) (v : Word) (s : State) : (s.withSpOf m v).spOf m = v := by
  cases m <;> rfl

theorem withSpOf_spOf_other {m k : Mode} (h : k ≠ m) (v : Word) (s : State) : (s.withSpOf m v).spOf k = s.spOf k := by
  cases m <;> cases k <;> first | rfl | exact absurd rfl h

/-- Reading after a write (R22, R23). -/
theorem readReg_writeReg (r : Reg) (v : Word) (s : State) (q : Reg) :
    readReg (writeReg r v s) q = if q = r then v else readReg s q := by
  cases r <;> cases q <;> simp [readReg, writeReg]

@[simp] theorem readReg_writeReg_same (r : Reg) (v : Word) (s : State) : readReg (writeReg r v s) r = v := by
  rw [readReg_writeReg, if_pos rfl]

theorem readReg_writeReg_other {r q : Reg} (h : q ≠ r) (v : Word) (s : State) :
    readReg (writeReg r v s) q = readReg s q := by rw [readReg_writeReg, if_neg h]

@[simp] theorem readReg_pc (s : State) : readReg s .pc = s.pcr := rfl

@[simp] theorem writeReg_pc (v : Word) (s : State) : writeReg .pc v s = s.withPc v := rfl

theorem writeReg_pcr {r : Reg} (h : r ≠ .pc) (v : Word) (s : State) : (writeReg r v s).pcr = s.pcr :=
  readReg_writeReg_other (q := .pc) (fun e => h e.symm) v s

/-- Registers depend on the banks, the stack pointers, PC, and the two PSW fields that select. -/
theorem readReg_congr {s t : State} (h0 : t.bank0 = s.bank0) (h1 : t.bank1 = s.bank1) (hk : t.spk = s.spk)
    (hs : t.sps = s.sps) (hu : t.spu = s.spu) (hp : t.pcr = s.pcr) (hr : t.psw.rs = s.psw.rs)
    (hc : t.psw.cm = s.psw.cm) (q : Reg) : readReg t q = readReg s q := by
  cases q <;> simp [readReg, State.bank, State.spOf, h0, h1, hk, hs, hu, hp, hr, hc]

/-- A register write touches no slot another mode or bank names (R23, R25). -/
theorem hiddenSlotsSame_writeReg (r : Reg) (v : Word) (s : State) : hiddenSlotsSame s (writeReg r v s) := by
  refine ⟨?_, ?_⟩
  · cases hrs : s.psw.rs <;> cases r <;> simp [writeReg, State.withBank, hrs]
  · intro m hm
    cases r <;> simp [writeReg, withSpOf_spOf_other hm]

theorem registersSame_writeReg (r : Reg) (v : Word) (s : State) : registersSame (· = r) s (writeReg r v s) :=
  ⟨fun _ _ h => readReg_writeReg_other h v s, hiddenSlotsSame_writeReg r v s⟩

theorem registersSame_withPc (v : Word) (s : State) : registersSame (fun _ => False) s (s.withPc v) :=
  ⟨fun r hr _ => by cases r <;> first | rfl | exact absurd rfl hr, by simp [hiddenSlotsSame]⟩

theorem hiddenSlotsSame_trans {s t u : State} (hr : t.psw.rs = s.psw.rs) (hc : t.psw.cm = s.psw.cm)
    (h : hiddenSlotsSame s t) (h' : hiddenSlotsSame t u) : hiddenSlotsSame s u := by
  refine ⟨?_, fun m hm => ?_⟩
  · have h1 := h.1
    have h2 := h'.1
    rw [hr] at h2
    by_cases hb : s.psw.rs = true
    · simp only [hb, if_true] at h1 h2 ⊢
      rw [h2, h1]
    · simp only [hb] at h1 h2 ⊢
      exact h2.trans h1
  · rw [h'.2 m (by rw [hc]; exact hm), h.2 m hm]

theorem registersSame_trans {p q : Reg → Prop} {s t u : State} (hr : t.psw.rs = s.psw.rs) (hc : t.psw.cm = s.psw.cm)
    (h : registersSame p s t) (h' : registersSame q t u) : registersSame (fun r => p r ∨ q r) s u :=
  ⟨fun r hpc hn => by rw [h'.1 r hpc fun hq => hn (.inr hq), h.1 r hpc fun hp => hn (.inl hp)],
   hiddenSlotsSame_trans hr hc h.2 h'.2⟩

theorem registersSame_mono {p q : Reg → Prop} {s t : State} (hpq : ∀ r, p r → q r) (h : registersSame p s t) :
    registersSame q s t := ⟨fun r hpc hn => h.1 r hpc fun hp => hn (hpq r hp), h.2⟩

theorem registersSame_refl (p : Reg → Prop) (s : State) : registersSame p s s :=
  ⟨fun _ _ _ => rfl, by simp [hiddenSlotsSame]⟩

/-! ## Two writes, and a write of what is there -/

theorem writeReg_withRam (r : Reg) (v : Word) (m : List Host.Cell) (s : State) :
    writeReg r v (s.withRam m) = (writeReg r v s).withRam m := by
  obtain ⟨_, _, _, _, _, _, ⟨cm, _, rs, _, _, _, _, _, _⟩, _, _, _, _, _, _, _, _, _⟩ := s
  cases rs <;> cases cm <;> cases r <;> rfl

theorem writeReg_twice (r : Reg) (v w : Word) (s : State) : writeReg r v (writeReg r w s) = writeReg r v s := by
  obtain ⟨_, _, _, _, _, _, ⟨cm, _, rs, _, _, _, _, _, _⟩, _, _, _, _, _, _, _, _, _⟩ := s
  cases rs <;> cases cm <;> cases r <;> rfl

theorem writeReg_readReg (r : Reg) (s : State) : writeReg r (readReg s r) s = s := by
  obtain ⟨_, _, _, _, _, _, ⟨cm, _, rs, _, _, _, _, _, _⟩, _, _, _, _, _, _, _, _, _⟩ := s
  cases rs <;> cases cm <;> cases r <;> rfl

/-- Writes to two registers commute. -/
theorem writeReg_comm {r q : Reg} (h : r ≠ q) (v w : Word) (s : State) :
    writeReg r v (writeReg q w s) = writeReg q w (writeReg r v s) := by
  obtain ⟨_, _, _, _, _, _, ⟨cm, _, rs, _, _, _, _, _, _⟩, _, _, _, _, _, _, _, _, _⟩ := s
  cases rs <;> cases cm <;> cases r <;> cases q <;> first | rfl | exact absurd rfl h

theorem writeReg_withPc {r : Reg} (h : r ≠ .pc) (v w : Word) (s : State) :
    writeReg r v (s.withPc w) = (writeReg r v s).withPc w := writeReg_comm h v w s

end Sys2Proof.Machine
end

