-- ==== Sys2Proof/Laws/Res.lean ====
section
/-! SUPPORT. Sequencing: how a chain of operations ends. -/

namespace Sys2Proof.Machine

@[simp] theorem Res.bind_ok {α β : Type} (a : α) (s : State) (k : α → State → Res β) : (Res.ok a s).bind k = k a s := rfl

@[simp] theorem Res.bind_abort {α β : Type} (s : State) (k : α → State → Res β) : (Res.abort s).bind k = .abort s := rfl

@[simp] theorem Res.bind_fatal {α β : Type} (f : Fault) (k : α → State → Res β) : (Res.fatal f).bind k = .fatal f := rfl

/-- A chain succeeds when both parts do. -/
theorem Res.bind_eq_ok {α β : Type} {r : Res α} {k : α → State → Res β} {b : β} {t : State} :
    r.bind k = .ok b t ↔ ∃ a s, r = .ok a s ∧ k a s = .ok b t := by
  cases r <;> simp [Res.bind]

/-- A chain aborts in its first part, or in its second after the first has succeeded. -/
theorem Res.bind_eq_abort {α β : Type} {r : Res α} {k : α → State → Res β} {t : State} :
    r.bind k = .abort t ↔ r = .abort t ∨ ∃ a s, r = .ok a s ∧ k a s = .abort t := by
  cases r <;> simp [Res.bind]

/-- `P` holds of the state an operation leaves, whether it answers a value or aborts. -/
def Res.Post {α : Type} (P : State → Prop) : Res α → Prop
  | .ok _ s => P s
  | .abort s => P s
  | .fatal _ => True

theorem Res.Post.bind {α β : Type} {P Q : State → Prop} {r : Res α} {k : α → State → Res β} (h : r.Post P)
    (hPQ : ∀ s, P s → Q s) (hk : ∀ a s, P s → (k a s).Post Q) : (r.bind k).Post Q := by
  cases r with
  | ok a s => exact hk a s h
  | abort s => exact hPQ s h
  | fatal f => trivial

theorem Res.Post.mono {α : Type} {P Q : State → Prop} {r : Res α} (h : r.Post P) (hPQ : ∀ s, P s → Q s) :
    r.Post Q := by
  cases r with
  | ok a s => exact hPQ s h
  | abort s => exact hPQ s h
  | fatal f => trivial

theorem Res.Post.of_ok {α : Type} {P : State → Prop} {r : Res α} {a : α} {s : State} (h : r.Post P)
    (hr : r = .ok a s) : P s := by subst hr; exact h

theorem Res.Post.of_abort {α : Type} {P : State → Prop} {r : Res α} {s : State} (h : r.Post P)
    (hr : r = .abort s) : P s := by subst hr; exact h

/-! ## The end of a step's work -/

@[simp] theorem complete_ok (s : State) : complete (.ok () s) = .next s := rfl

@[simp] theorem complete_fatal (f : Fault) : complete (.fatal f) = .fault f := rfl

/-- A next state is either where the work ended, or where the bus-timeout trap led from an abort (R140, R403). -/
theorem complete_eq_next {r : Res Unit} {t : State} (h : complete r = .next t) :
    r = .ok () t ∨ ∃ s, r = .abort s ∧ trapEntry busTimeoutVector s = .ok () t := by
  cases r with
  | ok a s => left; simp [complete] at h; rw [h]
  | fatal f => simp [complete] at h
  | abort s =>
    right
    refine ⟨s, rfl, ?_⟩
    unfold complete at h
    cases htr : trapEntry busTimeoutVector s with
    | ok a u => simp [htr] at h; rw [h]
    | abort u => simp [htr] at h
    | fatal f => simp [htr] at h

/-- A trap entry never aborts (R406). -/
theorem trapEntry_ne_abort (vec : Word) (s t : State) : trapEntry vec s ≠ .abort t := by
  unfold trapEntry
  split <;> simp

theorem trapEntry_eq_ok {vec : Word} {s t : State} : trapEntry vec s = .ok () t ↔ trapSequence vec s = .ok () t := by
  unfold trapEntry
  cases trapSequence vec s <;> simp

end Sys2Proof.Machine
end

