-- ==== Sys2Proof/Laws/Effects.lean ====
section
/-! SUPPORT. What the shared operations change: one lemma per operation, for the state it leaves when it answers a value
and when it aborts. -/

namespace Sys2Proof.Machine

/-! ## Reads -/

/-- A bus read leaves everything but the bus history, which it may extend, and the draw counter. -/
structure ReadEffect (s t : State) : Prop where
  eq : t = (s.withDraws t.draws).withHistory t.history
  history : s.history <+: t.history

theorem ReadEffect.refl (s : State) : ReadEffect s s := ⟨rfl, List.prefix_refl _⟩

theorem ReadEffect.drawn (s : State) : ReadEffect s s.drawn := ⟨rfl, List.prefix_refl _⟩

theorem ReadEffect.trans {s t u : State} (h : ReadEffect s t) (h' : ReadEffect t u) : ReadEffect s u :=
  ⟨by rw [h'.eq, h.eq]; rfl, h.history.trans h'.history⟩

theorem busRead_effect (pa : Nat) (s : State) : (busRead pa s).Post (ReadEffect s) := by
  unfold busRead
  split
  · exact ReadEffect.refl s
  · split
    · rename_i r _
      cases r with
      | sr0 => exact ReadEffect.drawn s
      | sr1 => exact ReadEffect.refl s
      | sr2 => exact ReadEffect.refl s
      | pdr set page => exact ReadEffect.refl s
      | par set page => exact ReadEffect.refl s
    · split
      · exact ReadEffect.refl s
      · split
        · exact ⟨rfl, List.prefix_append _ _⟩
        · unfold busFault
          split
          · exact ReadEffect.refl s
          · trivial

theorem memReadWord_effect (va : Word) (m : Option Space) (s : State) :
    (memReadWord va m s).Post (ReadEffect s) := by
  unfold memReadWord
  split
  · trivial
  · cases m with
    | none => trivial
    | some sp => exact busRead_effect _ s

theorem memReadByte_effect (va : Word) (m : Option Space) (s : State) :
    (memReadByte va m s).Post (ReadEffect s) := by
  unfold memReadByte
  cases m with
  | none => trivial
  | some sp => exact (busRead_effect _ s).bind (fun _ h => h) fun _ _ h => h

/-! ## Evaluating an operand -/

/-- What resolving and reading an operand may change: the registers it steps, PC, the bus history and the draws. -/
structure EvalEffect (touched : Reg → Prop) (s t : State) : Prop where
  psw : t.psw = s.psw
  mmu : t.mmu = s.mmu
  ram : t.ram = s.ram
  control : controlSame s t
  regs : registersSame touched s t
  history : s.history <+: t.history

theorem EvalEffect.refl (p : Reg → Prop) (s : State) : EvalEffect p s s :=
  ⟨rfl, rfl, rfl, ⟨rfl, rfl, rfl, rfl, rfl⟩, registersSame_refl p s, List.prefix_refl _⟩

theorem EvalEffect.trans {p q : Reg → Prop} {s t u : State} (h : EvalEffect p s t) (h' : EvalEffect q t u) :
    EvalEffect (fun r => p r ∨ q r) s u :=
  ⟨h'.psw.trans h.psw, h'.mmu.trans h.mmu, h'.ram.trans h.ram,
   ⟨h'.control.1.trans h.control.1, h'.control.2.1.trans h.control.2.1, h'.control.2.2.1.trans h.control.2.2.1,
    h'.control.2.2.2.1.trans h.control.2.2.2.1, h'.control.2.2.2.2.trans h.control.2.2.2.2⟩,
   registersSame_trans (by rw [h.psw]) (by rw [h.psw]) h.regs h'.regs, h.history.trans h'.history⟩

theorem EvalEffect.mono {p q : Reg → Prop} {s t : State} (hpq : ∀ r, p r → q r) (h : EvalEffect p s t) :
    EvalEffect q s t := ⟨h.psw, h.mmu, h.ram, h.control, registersSame_mono hpq h.regs, h.history⟩

theorem ReadEffect.eval {s t : State} (h : ReadEffect s t) : EvalEffect (fun _ => False) s t := by
  have he := h.eq
  refine ⟨by rw [he]; rfl, by rw [he]; rfl, by rw [he]; rfl, ?_, ?_, h.history⟩
  · refine ⟨?_, ?_, ?_, ?_, ?_⟩ <;> rw [he] <;> rfl
  · refine ⟨fun r _ _ => ?_, ?_⟩
    · rw [he]; cases r <;> rfl
    · rw [he]
      refine ⟨?_, fun m _ => ?_⟩
      · simp
      · cases m <;> rfl

/-- A read keeps every register, PC too. -/
theorem ReadEffect.readReg {s t : State} (h : ReadEffect s t) (r : Reg) : readReg t r = Machine.readReg s r := by
  rw [h.eq]; cases r <;> rfl

theorem evalEffect_writeReg (r : Reg) (v : Word) (s : State) : EvalEffect (· = r) s (writeReg r v s) :=
  ⟨by simp, by simp, by simp, ⟨by simp, by simp, by simp, by simp, by simp⟩, registersSame_writeReg r v s, by simp⟩

theorem evalEffect_withPc (v : Word) (s : State) : EvalEffect (fun _ => False) s (s.withPc v) :=
  ⟨rfl, rfl, rfl, ⟨rfl, rfl, rfl, rfl, rfl⟩, registersSame_withPc v s, List.prefix_refl _⟩

theorem fetchWord_effect (s : State) : (fetchWord s).Post (EvalEffect (fun _ => False) s) := by
  refine ((memReadWord_effect s.pcr s.curSpace s).mono fun _ h => h.eval).bind (fun _ h => h) fun w t h => ?_
  exact (h.trans (evalEffect_withPc _ t)).mono (by simp)

/-- Resolving an operand steps at most its own register (R147-R150) and PC (R141). -/
theorem resolve_effect (o : Operand) (n : Size) (s : State) : (resolve o n s).Post (EvalEffect (steps o) s) := by
  obtain ⟨mode, reg⟩ := o
  have hread : ∀ {u t : State}, EvalEffect (fun r => r = reg) s u → ReadEffect u t →
      EvalEffect (fun r => r = reg) s t := fun h h' => (h.trans h'.eval).mono (by simp)
  cases mode with
  | register => exact EvalEffect.refl _ s
  | deferred => exact EvalEffect.refl _ s
  | autoInc => exact (evalEffect_writeReg reg _ s).mono (by simp [steps, eq_comm])
  | autoIncDeferred =>
    refine Res.Post.bind (P := EvalEffect (fun r => r = reg) s) ?_ (fun t h => h.mono (by simp [steps, eq_comm]))
      fun a t h => h.mono (by simp [steps, eq_comm])
    exact (memReadWord_effect _ _ _).mono fun t h => hread (evalEffect_writeReg reg _ s) h
  | autoDec => exact (evalEffect_writeReg reg _ s).mono (by simp [steps, eq_comm])
  | autoDecDeferred =>
    refine Res.Post.bind (P := EvalEffect (fun r => r = reg) s) ?_ (fun t h => h.mono (by simp [steps, eq_comm]))
      fun a t h => h.mono (by simp [steps, eq_comm])
    exact (memReadWord_effect _ _ _).mono fun t h => hread (evalEffect_writeReg reg _ s) h
  | index =>
    exact (fetchWord_effect s).bind (fun t h => h.mono (by simp)) fun x t h => h.mono (by simp)
  | indexDeferred =>
    refine (fetchWord_effect s).bind (fun t h => h.mono (by simp)) fun x t h => ?_
    refine Res.Post.bind (P := EvalEffect (fun _ => False) s) ?_ (fun t h => h.mono (by simp))
      fun a t h => h.mono (by simp)
    exact (memReadWord_effect _ _ _).mono fun u h' => (h.trans h'.eval).mono (by simp)

theorem loadWord_effect (l : Loc) (s : State) : (loadWord l s).Post (ReadEffect s) := by
  cases l with
  | reg r => exact ReadEffect.refl s
  | mem va => exact memReadWord_effect _ _ s

theorem loadByte_effect (l : Loc) (s : State) : (loadByte l s).Post (ReadEffect s) := by
  cases l with
  | reg r => exact ReadEffect.refl s
  | mem va => exact memReadByte_effect _ _ s

theorem sourceWord_effect (o : Operand) (s : State) : (sourceWord o s).Post (EvalEffect (steps o) s) :=
  (resolve_effect o .word s).bind (fun _ h => h) fun l t h =>
    (loadWord_effect l t).mono fun _ h' => (h.trans h'.eval).mono (by simp)

theorem sourceByte_effect (o : Operand) (s : State) : (sourceByte o s).Post (EvalEffect (steps o) s) :=
  (resolve_effect o .byte s).bind (fun _ h => h) fun l t h =>
    (loadByte_effect l t).mono fun _ h' => (h.trans h'.eval).mono (by simp)

theorem pop_effect (s : State) : (pop s).Post (EvalEffect (· = .sp) s) :=
  (memReadWord_effect _ _ _).mono fun _ h => ((evalEffect_writeReg .sp _ s).trans h.eval).mono (by simp)

/-! ## Stores -/

/-- What a store through the bus may change: RAM bytes of the word stored to, the MMU, the PSW when mapped, the
history, the draws; never a register slot or the control state. -/
structure BusEffect (bytes : Nat → Prop) (s t : State) : Prop where
  control : controlSame s t
  slots : t.bank0 = s.bank0 ∧ t.bank1 = s.bank1 ∧ t.spk = s.spk ∧ t.sps = s.sps ∧ t.spu = s.spu ∧ t.pcr = s.pcr
  ram : ramSameOutside bytes s t
  trace : t.psw.t = s.psw.t
  unmapped : s.cfg.pswMapped = false → t.psw = s.psw
  history : s.history <+: t.history

theorem BusEffect.ofRead {s t : State} (bytes : Nat → Prop) (h : ReadEffect s t) : BusEffect bytes s t := by
  have he := h.eq
  refine ⟨?_, ?_, ?_, ?_, ?_, h.history⟩
  · refine ⟨?_, ?_, ?_, ?_, ?_⟩ <;> rw [he] <;> rfl
  · refine ⟨?_, ?_, ?_, ?_, ?_, ?_⟩ <;> rw [he] <;> rfl
  · intro a _; rw [he]; rfl
  · rw [he]; rfl
  · intro _; rw [he]; rfl

theorem BusEffect.trans {bytes : Nat → Prop} {s t u : State} (h : BusEffect bytes s t) (h' : BusEffect bytes t u) :
    BusEffect bytes s u := by
  obtain ⟨c1, c2, c3, c4, c5⟩ := h.control
  obtain ⟨d1, d2, d3, d4, d5⟩ := h'.control
  obtain ⟨a1, a2, a3, a4, a5, a6⟩ := h.slots
  obtain ⟨b1, b2, b3, b4, b5, b6⟩ := h'.slots
  exact ⟨⟨d1.trans c1, d2.trans c2, d3.trans c3, d4.trans c4, d5.trans c5⟩,
    ⟨b1.trans a1, b2.trans a2, b3.trans a3, b4.trans a4, b5.trans a5, b6.trans a6⟩,
    fun a ha => (h'.ram a ha).trans (h.ram a ha), h'.trace.trans h.trace,
    fun hm => (h'.unmapped (by rw [c3]; exact hm)).trans (h.unmapped hm), h.history.trans h'.history⟩

theorem busWrite_effect (pa : Nat) (v : Word) (s : State) :
    (busWrite pa v s).Post (BusEffect (fun a => a = pa ∨ a = pa + 1) s) := by
  unfold busWrite
  split
  · refine ⟨⟨rfl, rfl, rfl, rfl, rfl⟩, ⟨rfl, rfl, rfl, rfl, rfl, rfl⟩, ?_, rfl, fun _ => rfl, List.prefix_refl _⟩
    intro a ha
    exact Memory.read_writeWord_other _ _ (fun h => ha (.inl h)) fun h => ha (.inr h)
  · split
    · rename_i r _
      have : ∀ m, BusEffect (fun a => a = pa ∨ a = pa + 1) s (s.withMmu m) := fun m =>
        ⟨⟨rfl, rfl, rfl, rfl, rfl⟩, ⟨rfl, rfl, rfl, rfl, rfl, rfl⟩, fun _ _ => rfl, rfl, fun _ => rfl,
          List.prefix_refl _⟩
      cases r with
      | sr0 => exact this _
      | sr1 => exact BusEffect.ofRead _ (ReadEffect.refl s)
      | sr2 => exact BusEffect.ofRead _ (ReadEffect.refl s)
      | pdr set page => exact this _
      | par set page => exact this _
    · split
      · rename_i hm
        unfold pswWrite
        split
        · refine ⟨⟨rfl, rfl, rfl, rfl, rfl⟩, ⟨rfl, rfl, rfl, rfl, rfl, rfl⟩, fun _ _ => rfl, rfl, fun h => ?_,
            List.prefix_refl _⟩
          simp [h] at hm
        · trivial
      · split
        · exact ⟨⟨rfl, rfl, rfl, rfl, rfl⟩, ⟨rfl, rfl, rfl, rfl, rfl, rfl⟩, fun _ _ => rfl, rfl, fun _ => rfl,
            List.prefix_append _ _⟩
        · unfold busFault
          split
          · exact BusEffect.ofRead _ (ReadEffect.refl s)
          · trivial

/-- A store to RAM changes nothing but RAM. -/
theorem busWrite_ram {pa : Nat} {s : State} (h : pa < s.cfg.ramSize) (v : Word) :
    busWrite pa v s = .ok false (s.withRam (Memory.writeWord s.ram pa v)) := if_pos h

theorem busRead_ram {pa : Nat} {s : State} (h : pa < s.cfg.ramSize) :
    busRead pa s = .ok (Memory.readWord s.ram pa) s := if_pos h

theorem memReadWord_ram {va : Word} {m : Option Space} {s : State} {pa : Nat} (h : ramWordAt s m va pa) :
    memReadWord va m s = .ok (Memory.readWord s.ram pa) s := by
  obtain ⟨ho, sp, rfl, rfl, hp⟩ := h
  simp only [memReadWord, ho]
  exact busRead_ram hp

theorem memWriteWord_ram {va : Word} {m : Option Space} {s : State} {pa : Nat} (h : ramWordAt s m va pa) (v : Word) :
    memWriteWord va v m s = .ok false (s.withRam (Memory.writeWord s.ram pa v)) := by
  obtain ⟨ho, sp, rfl, rfl, hp⟩ := h
  simp only [memWriteWord, ho]
  exact busWrite_ram hp v

theorem memWriteWord_effect (va : Word) (v : Word) (m : Option Space) (s : State) :
    (memWriteWord va v m s).Post (BusEffect (storedAt s m va .word) s) := by
  unfold memWriteWord
  split
  · trivial
  · cases m with
    | none => trivial
    | some sp => exact busWrite_effect _ v s

end Sys2Proof.Machine
end

