-- ==== Sys2Proof/Laws/Mmu.lean ====
section
/-! SUPPORT. Translation and the MMU registers: what a translation depends on, and reading a register after a write. -/

namespace Sys2Proof.Machine

/-! ## What an access depends on -/

theorem translate_congr {s t : State} (h : t.mmu = s.mmu) (sp : Space) (va : Word) :
    t.translate sp va = s.translate sp va := by
  cases sp <;> simp [State.translate, h]

theorem curSpace_congr {s t : State} (h : t.psw = s.psw) : t.curSpace = s.curSpace := by simp [State.curSpace, h]

theorem prevSpace_congr {s t : State} (h : t.psw = s.psw) : t.prevSpace = s.prevSpace := by simp [State.prevSpace, h]

/-- Which RAM word an address reaches depends on the MMU and the parameters only. -/
theorem ramWordAt_congr {s t : State} {m : Option Space} {va : Word} {pa : Nat} (hm : t.mmu = s.mmu)
    (hc : t.cfg = s.cfg) (h : ramWordAt s m va pa) : ramWordAt t m va pa := by
  obtain ⟨ho, sp, hsp, hp, hlt⟩ := h
  exact ⟨ho, sp, hsp, by rw [hp, translate_congr hm], by rw [hc]; exact hlt⟩

theorem fetchWord_ram {s : State} {pa : Nat} (h : ramWordAt s s.curSpace s.pcr pa) :
    fetchWord s = .ok (Memory.readWord s.ram pa) (s.withPc (s.pcr + 2)) := by
  simp [fetchWord, memReadWord_ram h]

theorem push_ram {s : State} {pa : Nat} (v : Word) (h : ramWordAt s s.curSpace (readReg s .sp - 2) pa) :
    push v s = .ok false ((writeReg .sp (readReg s .sp - 2) s).withRam (Memory.writeWord s.ram pa v)) := by
  have h' := ramWordAt_congr (t := writeReg .sp (readReg s .sp - 2) s) (by simp) (by simp) h
  simp only [push, readReg_writeReg_same, curSpace_congr (s := s) (writeReg_psw .sp (readReg s .sp - 2) s),
    memWriteWord_ram h', writeReg_ram]

theorem pop_ram {s : State} {pa : Nat} (h : ramWordAt s s.curSpace (readReg s .sp) pa) :
    pop s = .ok (Memory.readWord s.ram pa) (writeReg .sp (readReg s .sp + 2) s) := by
  have h' := ramWordAt_congr (t := writeReg .sp (readReg s .sp + 2) s) (by simp) (by simp) h
  simp only [pop, curSpace_congr (s := s) (writeReg_psw .sp (readReg s .sp + 2) s), memReadWord_ram h', writeReg_ram]

/-! ## Translation in numbers -/

/-- The OR of R74 is a sum on the addresses it is applied to. -/
theorem or_ioPage {n : Nat} (h : n < 65536) : n ||| 0o600000 = n + 0o600000 := by
  have e : (0o600000 : Nat) = 3 * 2 ^ 16 := by norm_num
  rw [e, ← Nat.shiftLeft_eq, Nat.or_comm, ← Nat.shiftLeft_add_eq_or_of_lt h, Nat.add_comm]

/-- An even virtual address reaches an even physical one. -/
theorem translate_even {s : State} {sp : Space} {va : Word} (h : isOdd va = false) : s.translate sp va % 2 = 0 := by
  have hv := va.isLt
  have h0 : (va.extractLsb' 0 13).toNat = va.toNat % 8192 := by simp [BitVec.extractLsb'_toNat]
  have he : va.toNat % 2 = 0 := by
    have : va.toNat.testBit 0 = false := h
    simpa using this
  unfold State.translate
  split
  · exact he
  · simp only [h0]
    split
    · omega
    · split
      · exact he
      · rw [or_ioPage hv]
        omega

/-! ## Page registers -/

theorem pdr_withPdr (m : Mmu) (set : PageSet) (page : BitVec 3) (v : Word) (k : PageSet) (q : BitVec 3) :
    (m.withPdr set page v).pdr k q = if (k, q) = (set, page) then v else m.pdr k q := by
  cases set <;> cases k <;> simp [Mmu.withPdr, Mmu.pdr, Vector.getElem_set, BitVec.toNat_inj, eq_comm]

theorem par_withPar (m : Mmu) (set : PageSet) (page : BitVec 3) (v : BitVec 12) (k : PageSet) (q : BitVec 3) :
    (m.withPar set page v).par k q = if (k, q) = (set, page) then v else m.par k q := by
  cases set <;> cases k <;> simp [Mmu.withPar, Mmu.par, Vector.getElem_set, BitVec.toNat_inj, eq_comm]

@[simp] theorem par_withPdr (m : Mmu) (set : PageSet) (page : BitVec 3) (v : Word) (k : PageSet) (q : BitVec 3) :
    (m.withPdr set page v).par k q = m.par k q := by
  cases set <;> cases k <;> rfl

@[simp] theorem pdr_withPar (m : Mmu) (set : PageSet) (page : BitVec 3) (v : BitVec 12) (k : PageSet) (q : BitVec 3) :
    (m.withPar set page v).pdr k q = m.pdr k q := by
  cases set <;> cases k <;> rfl

end Sys2Proof.Machine
end

