-- ==== Sys2Proof/Laws/Results.lean ====
section
/-! SUPPORT. How an instruction's work becomes its outcome: the flag update at completion, and the access that does not
answer. -/

namespace Sys2Proof.Machine

/-! ## Flags -/

theorem applyFlags_eq (u : FlagUpdate) (s : State) :
    s.applyFlags u =
      s.withFlags (u.n.getD s.psw.n) (u.z.getD s.psw.z) (u.v.getD s.psw.v) (u.c.getD s.psw.c) := rfl

theorem finishFlags_eq (wrote : Bool) (u : FlagUpdate) (s : State) :
    s.finishFlags wrote u =
      afterStore wrote s (u.n.getD s.psw.n) (u.z.getD s.psw.z) (u.v.getD s.psw.v) (u.c.getD s.psw.c) := rfl

/-- A store that says it did not write the PSW word left the PSW alone (R90). -/
theorem busWrite_psw {pa : Nat} {v : Word} {s t : State} (h : busWrite pa v s = .ok false t) : t.psw = s.psw := by
  unfold busWrite at h
  split at h
  · cases h; rfl
  · split at h
    · rename_i r _
      cases h
      cases r <;> rfl
    · split at h
      · unfold pswWrite at h
        split at h <;> simp at h
      · split at h
        · cases h; rfl
        · unfold busFault at h
          split at h <;> cases h

theorem memWriteWord_psw {va v : Word} {m : Option Space} {s t : State} (h : memWriteWord va v m s = .ok false t) :
    t.psw = s.psw := by
  unfold memWriteWord at h
  split at h
  · cases h
  · cases m with
    | none => cases h
    | some sp => exact busWrite_psw h

theorem memWriteByte_psw {va : Word} {v : Byte} {m : Option Space} {s t : State}
    (h : memWriteByte va v m s = .ok false t) : t.psw = s.psw := by
  unfold memWriteByte at h
  cases m with
  | none => cases h
  | some sp =>
    obtain ⟨w, u, hr, hw⟩ := Res.bind_eq_ok.1 h
    rw [busWrite_psw hw, ((busRead_effect _ s).of_ok hr).eval.psw]

theorem storeWord_psw {l : Loc} {v : Word} {s t : State} (h : storeWord l v s = .ok false t) : t.psw = s.psw := by
  cases l with
  | reg r => cases h; simp
  | mem va => exact memWriteWord_psw h

theorem storeByte_psw {l : Loc} {v : Byte} {s t : State} (h : storeByte l v s = .ok false t) : t.psw = s.psw := by
  cases l with
  | reg r => cases h; simp
  | mem va => exact memWriteByte_psw h

theorem storeByteExtended_psw {l : Loc} {v : Byte} {s t : State} (h : storeByteExtended l v s = .ok false t) :
    t.psw = s.psw := by
  cases l with
  | reg r => cases h; simp
  | mem va => exact memWriteByte_psw h

theorem push_psw {v : Word} {s t : State} (h : push v s = .ok false t) : t.psw = s.psw := by
  rw [memWriteWord_psw h]; simp

theorem storePrev_psw {l : Loc} {v : Word} {s t : State} (h : storePrev l v s = .ok false t) : t.psw = s.psw := by
  cases l with
  | reg r =>
    simp only [storePrev, writePrevReg] at h
    split at h
    · cases h
    · cases r <;> cases h <;> simp
  | mem va => exact memWriteWord_psw h

/-! ## The access that does not answer -/

theorem endsAs_bind {α : Type} (r : Res α) (k : α → State → Res Unit) : endsAs r (complete (r.bind k)) := by
  constructor
  · rintro u rfl; rfl
  · rintro f rfl; rfl

theorem complete_bind {α : Type} {r : Res α} {k : α → State → Res Unit} {a : α} {s : State} (h : r = .ok a s) :
    complete (r.bind k) = complete (k a s) := by rw [h]; rfl

/-! ## A word source read after its specifier is resolved -/

theorem sourceWord_eq_ok {o : Operand} {s t : State} {x : Word} :
    sourceWord o s = .ok x t ↔ ∃ l u, resolve o .word s = .ok l u ∧ loadWord l u = .ok x t := Res.bind_eq_ok

theorem sourceByte_eq_ok {o : Operand} {s t : State} {x : Byte} :
    sourceByte o s = .ok x t ↔ ∃ l u, resolve o .byte s = .ok l u ∧ loadByte l u = .ok x t := Res.bind_eq_ok

theorem sourceWord_psw {o : Operand} {s t : State} {x : Word} (h : sourceWord o s = .ok x t) : t.psw = s.psw :=
  ((sourceWord_effect o s).of_ok h).psw

theorem sourceByte_psw {o : Operand} {s t : State} {x : Byte} (h : sourceByte o s = .ok x t) : t.psw = s.psw :=
  ((sourceByte_effect o s).of_ok h).psw

theorem resolve_psw {o : Operand} {n : Size} {s t : State} {l : Loc} (h : resolve o n s = .ok l t) :
    t.psw = s.psw := ((resolve_effect o n s).of_ok h).psw

theorem loadWord_psw {l : Loc} {s t : State} {d : Word} (h : loadWord l s = .ok d t) : t.psw = s.psw :=
  ((loadWord_effect l s).of_ok h).eval.psw

theorem loadByte_psw {l : Loc} {s t : State} {d : Byte} (h : loadByte l s = .ok d t) : t.psw = s.psw :=
  ((loadByte_effect l s).of_ok h).eval.psw

/-! ## The access patterns (R159): everything each can do -/

/-- The flags of an update applied after a store: taken from the PSW before it, since a store that changes the PSW
skips them. -/
theorem finishFlags_after {wrote : Bool} {u : FlagUpdate} {s : State} {p : Psw} (h : wrote = false → s.psw = p) :
    s.finishFlags wrote u = afterStore wrote s (u.n.getD p.n) (u.z.getD p.z) (u.v.getD p.v) (u.c.getD p.c) := by
  rw [finishFlags_eq]
  cases wrote with
  | false => rw [h rfl]
  | true => rfl

theorem modifyWord_spec (dst : Operand) (g : Word → Word × FlagUpdate) (t : State) :
    modifiesWord (complete (modifyWord dst g t)) dst t fun d =>
      ((g d).1, (g d).2.n.getD t.psw.n, (g d).2.z.getD t.psw.z, (g d).2.v.getD t.psw.v, (g d).2.c.getD t.psw.c) := by
  refine ⟨endsAs_bind _ _, fun l u hl => ?_⟩
  rw [modifyWord, complete_bind hl]
  refine ⟨endsAs_bind _ _, fun d w hd => ?_⟩
  rw [complete_bind hd]
  refine ⟨endsAs_bind _ _, fun wrote v hv => ?_⟩
  rw [complete_bind hv, complete_ok, finishFlags_after (p := t.psw)]
  rintro rfl
  rw [storeWord_psw hv, loadWord_psw hd, resolve_psw hl]

theorem modifyByte_spec (dst : Operand) (g : Byte → Byte × FlagUpdate) (t : State) :
    modifiesByte (complete (modifyByte dst g t)) dst t fun d =>
      ((g d).1, (g d).2.n.getD t.psw.n, (g d).2.z.getD t.psw.z, (g d).2.v.getD t.psw.v, (g d).2.c.getD t.psw.c) := by
  refine ⟨endsAs_bind _ _, fun l u hl => ?_⟩
  rw [modifyByte, complete_bind hl]
  refine ⟨endsAs_bind _ _, fun d w hd => ?_⟩
  rw [complete_bind hd]
  refine ⟨endsAs_bind _ _, fun wrote v hv => ?_⟩
  rw [complete_bind hv, complete_ok, finishFlags_after (p := t.psw)]
  rintro rfl
  rw [storeByte_psw hv, loadByte_psw hd, resolve_psw hl]

theorem putWord_spec (dst : Operand) (x : Word) (f : FlagUpdate) (t : State) :
    putsWord (complete (putWord dst x f t)) dst t x (f.n.getD t.psw.n) (f.z.getD t.psw.z) (f.v.getD t.psw.v)
      (f.c.getD t.psw.c) := by
  refine ⟨endsAs_bind _ _, fun l u hl => ?_⟩
  rw [putWord, complete_bind hl]
  refine ⟨endsAs_bind _ _, fun wrote v hv => ?_⟩
  rw [complete_bind hv, complete_ok, finishFlags_after (p := t.psw)]
  rintro rfl
  rw [storeWord_psw hv, resolve_psw hl]

theorem putByte_spec (dst : Operand) (x : Byte) (f : FlagUpdate) (t : State) :
    putsByte (complete (putByte dst x f t)) dst t x (f.n.getD t.psw.n) (f.z.getD t.psw.z) (f.v.getD t.psw.v)
      (f.c.getD t.psw.c) := by
  refine ⟨endsAs_bind _ _, fun l u hl => ?_⟩
  rw [putByte, complete_bind hl]
  refine ⟨endsAs_bind _ _, fun wrote v hv => ?_⟩
  rw [complete_bind hv, complete_ok, finishFlags_after (p := t.psw)]
  rintro rfl
  rw [storeByte_psw hv, resolve_psw hl]

/-! ## A store that does not answer, whatever it stores -/

/-- Whether a word store aborts, and where, does not depend on the value. -/
theorem busWrite_abort {pa : Nat} {v x : Word} {s u : State} (h : busWrite pa v s = .abort u) :
    busWrite pa x s = .abort u := by
  unfold busWrite at h ⊢
  split at h
  · cases h
  · rename_i hr
    rw [if_neg hr]
    split at h
    · cases h
    · split at h
      · unfold pswWrite at h
        split at h <;> simp at h
      · rename_i hp
        rw [if_neg hp]
        split at h
        · cases h
        · rename_i hd
          rw [if_neg hd]
          exact h

theorem memWriteWord_abort {va v x : Word} {m : Option Space} {s u : State} (h : memWriteWord va v m s = .abort u) :
    memWriteWord va x m s = .abort u := by
  unfold memWriteWord at h ⊢
  split at h
  · cases h
  · rename_i ho
    rw [if_neg ho]
    cases m with
    | none => cases h
    | some sp => exact busWrite_abort h

theorem memWriteByte_abort {va : Word} {v x : Byte} {m : Option Space} {s u : State}
    (h : memWriteByte va v m s = .abort u) : memWriteByte va x m s = .abort u := by
  unfold memWriteByte at h ⊢
  cases m with
  | none => cases h
  | some sp =>
    rcases Res.bind_eq_abort.1 h with h | ⟨w, t, hr, hw⟩
    · exact Res.bind_eq_abort.2 (.inl h)
    · exact Res.bind_eq_abort.2 (.inr ⟨w, t, hr, busWrite_abort hw⟩)

theorem storeWord_abort {l : Loc} {v x : Word} {s u : State} (h : storeWord l v s = .abort u) :
    storeWord l x s = .abort u := by
  cases l with
  | reg r => cases h
  | mem va => exact memWriteWord_abort h

theorem storeByte_abort {l : Loc} {v x : Byte} {s u : State} (h : storeByte l v s = .abort u) :
    storeByte l x s = .abort u := by
  cases l with
  | reg r => cases h
  | mem va => exact memWriteByte_abort h

theorem endsAtAnyStore_word {l : Loc} {w : State} {x : Word} {o : Host.Outcome State Fault Refusal}
    (h : endsAs (storeWord l x w) o) : endsAtStore l .word w o :=
  ⟨fun _ u hu => h.1 u (storeWord_abort hu), fun f hf => h.2 f (hf x)⟩

theorem endsAtAnyStore_byte {l : Loc} {w : State} {x : Byte} {o : Host.Outcome State Fault Refusal}
    (h : endsAs (storeByte l x w) o) : endsAtStore l .byte w o :=
  ⟨fun _ u hu => h.1 u (storeByte_abort hu), fun f hf => h.2 f (hf x)⟩

end Sys2Proof.Machine
end

