-- ==== Sys2Proof/Laws/Keeps.lean ====
section
/-! SUPPORT. What no instruction changes, and the form of RAM every operation keeps: stated once per shared operation,
then once for all instructions. -/

namespace Sys2Proof.Machine

/-- RAM is in its canonical form and lists no byte at or beyond `RAM_SIZE`. -/
def RamOk (s : State) : Prop := Memory.wf s.ram = true ∧ ∀ cell ∈ s.ram, cell.1 < s.cfg.ramSize

/-- What every operation of an instruction keeps. -/
structure Keeps (s t : State) : Prop where
  cfg : t.cfg = s.cfg
  offers : t.offers = s.offers
  currentPc : t.currentPc = s.currentPc
  ir : t.ir = s.ir
  run : t.run = s.run
  history : s.history <+: t.history
  ram : s.cfg.ramSize % 2 = 0 → RamOk s → RamOk t

theorem Keeps.refl (s : State) : Keeps s s := ⟨rfl, rfl, rfl, rfl, rfl, List.prefix_refl _, fun _ h => h⟩

theorem Keeps.trans {s t u : State} (h : Keeps s t) (h' : Keeps t u) : Keeps s u :=
  ⟨h'.cfg.trans h.cfg, h'.offers.trans h.offers, h'.currentPc.trans h.currentPc, h'.ir.trans h.ir, h'.run.trans h.run,
   h.history.trans h'.history, fun hc hr => h'.ram (by rw [h.cfg]; exact hc) (h.ram hc hr)⟩

/-- A change of registers, PSW, MMU or draws only. -/
theorem Keeps.of_same {s t : State} (hc : t.cfg = s.cfg) (ho : t.offers = s.offers) (hp : t.currentPc = s.currentPc)
    (hi : t.ir = s.ir) (hr : t.run = s.run) (hh : s.history <+: t.history) (hm : t.ram = s.ram) : Keeps s t :=
  ⟨hc, ho, hp, hi, hr, hh, fun _ h => by unfold RamOk; rw [hm, hc]; exact h⟩

theorem Keeps.bind {α β : Type} {s : State} {r : Res α} {k : α → State → Res β} (h : r.Post (Keeps s))
    (hk : ∀ a t, (k a t).Post (Keeps t)) : (r.bind k).Post (Keeps s) :=
  Res.Post.bind h (fun _ h => h) fun a t ht => (hk a t).mono fun _ hu => ht.trans hu

theorem ReadEffect.keeps {s t : State} (h : ReadEffect s t) : Keeps s t := by
  have he := h.eq
  exact Keeps.of_same (by rw [he]; rfl) (by rw [he]; rfl) (by rw [he]; rfl) (by rw [he]; rfl) (by rw [he]; rfl) h.history
    (by rw [he]; rfl)

theorem EvalEffect.keeps {p : Reg → Prop} {s t : State} (h : EvalEffect p s t) : Keeps s t :=
  Keeps.of_same h.control.2.2.1 h.control.2.2.2.1 h.control.2.1 h.control.2.2.2.2 h.control.1 h.history h.ram

theorem keeps_writeReg (r : Reg) (v : Word) (s : State) : Keeps s (writeReg r v s) := (evalEffect_writeReg r v s).keeps

theorem keeps_withPc (v : Word) (s : State) : Keeps s (s.withPc v) := (evalEffect_withPc v s).keeps

theorem keeps_withPsw (p : Psw) (s : State) : Keeps s (s.withPsw p) :=
  Keeps.of_same rfl rfl rfl rfl rfl (List.prefix_refl _) rfl

theorem keeps_finishFlags (b : Bool) (u : FlagUpdate) (s : State) : Keeps s (s.finishFlags b u) := by
  unfold State.finishFlags
  split
  · exact Keeps.refl s
  · exact keeps_withPsw _ s

/-! ## Writes keep the form of RAM -/

theorem RamOk.writeWord {s : State} (hc : s.cfg.ramSize % 2 = 0) (h : RamOk s) {pa : Nat} (he : pa % 2 = 0)
    (hp : pa < s.cfg.ramSize) (v : Word) : RamOk (s.withRam (Memory.writeWord s.ram pa v)) := by
  refine ⟨Memory.writeWord_wf h.1 pa v, fun cell hcell => ?_⟩
  show cell.1 < s.cfg.ramSize
  rcases Memory.mem_writeWord hcell with h' | h' | h'
  · exact h.2 cell h'
  · omega
  · omega

theorem busWrite_keeps {pa : Nat} (he : pa % 2 = 0) (v : Word) (s : State) : (busWrite pa v s).Post (Keeps s) := by
  have hb := busWrite_effect pa v s
  have hr : (busWrite pa v s).Post fun t => s.cfg.ramSize % 2 = 0 → RamOk s → RamOk t := by
    unfold busWrite
    split
    · rename_i hp
      exact fun hc h => h.writeWord hc he hp v
    · split
      · rename_i r _
        intro _ h
        cases r <;> exact h
      · split
        · unfold pswWrite
          split
          · exact fun _ h => h
          · trivial
        · split
          · exact fun _ h => h
          · unfold busFault
            split
            · exact fun _ h => h
            · trivial
  cases hres : busWrite pa v s with
  | ok a t =>
    rw [hres] at hb hr
    obtain ⟨c1, c2, c3, c4, c5⟩ := BusEffect.control hb
    exact ⟨c3, c4, c2, c5, c1, BusEffect.history hb, hr⟩
  | abort t =>
    rw [hres] at hb hr
    obtain ⟨c1, c2, c3, c4, c5⟩ := BusEffect.control hb
    exact ⟨c3, c4, c2, c5, c1, BusEffect.history hb, hr⟩
  | fatal f => trivial

theorem memWriteWord_keeps (va v : Word) (m : Option Space) (s : State) : (memWriteWord va v m s).Post (Keeps s) := by
  unfold memWriteWord
  split
  · trivial
  · rename_i ho
    cases m with
    | none => trivial
    | some sp => exact busWrite_keeps (translate_even (by simpa using ho)) v s

theorem memWriteByte_keeps (va : Word) (v : Byte) (m : Option Space) (s : State) :
    (memWriteByte va v m s).Post (Keeps s) := by
  unfold memWriteByte
  cases m with
  | none => trivial
  | some sp =>
    exact Keeps.bind ((busRead_effect _ s).mono fun _ h => h.keeps) fun w t =>
      busWrite_keeps (by unfold evenPa; omega) _ t

/-! ## Every shared operation -/

theorem memReadWord_keeps (va : Word) (m : Option Space) (s : State) : (memReadWord va m s).Post (Keeps s) :=
  (memReadWord_effect va m s).mono fun _ h => h.keeps

theorem fetchWord_keeps (s : State) : (fetchWord s).Post (Keeps s) := (fetchWord_effect s).mono fun _ h => h.keeps

theorem push_keeps (v : Word) (s : State) : (push v s).Post (Keeps s) :=
  (memWriteWord_keeps _ _ _ _).mono fun _ h => (keeps_writeReg _ _ s).trans h

theorem pop_keeps (s : State) : (pop s).Post (Keeps s) := (pop_effect s).mono fun _ h => h.keeps

theorem loadPsw_keeps (w : Word) (s : State) : (loadPsw w s).Post (Keeps s) := by
  unfold loadPsw
  split
  · exact keeps_withPsw _ s
  · trivial

theorem trapSequence_keeps (vec : Word) (s : State) : (trapSequence vec s).Post (Keeps s) := by
  refine Keeps.bind (memReadWord_keeps _ _ _) fun newPc t => ?_
  refine Keeps.bind (memReadWord_keeps _ _ _) fun newPsw t => ?_
  refine Keeps.bind (loadPsw_keeps _ _) fun _ t => ?_
  refine Keeps.bind ((push_keeps _ _).mono fun _ h => (keeps_withPsw _ t).trans h) fun _ t => ?_
  exact Keeps.bind (push_keeps _ _) fun _ t => keeps_withPc _ t

theorem trapEntry_keeps {vec : Word} {s t : State} (h : trapEntry vec s = .ok () t) : Keeps s t :=
  (trapSequence_keeps vec s).of_ok (trapEntry_eq_ok.1 h)

theorem resolve_keeps (o : Operand) (n : Size) (s : State) : (resolve o n s).Post (Keeps s) :=
  (resolve_effect o n s).mono fun _ h => h.keeps

theorem loadWord_keeps (l : Loc) (s : State) : (loadWord l s).Post (Keeps s) :=
  (loadWord_effect l s).mono fun _ h => h.keeps

theorem loadByte_keeps (l : Loc) (s : State) : (loadByte l s).Post (Keeps s) :=
  (loadByte_effect l s).mono fun _ h => h.keeps

theorem sourceWord_keeps (o : Operand) (s : State) : (sourceWord o s).Post (Keeps s) :=
  (sourceWord_effect o s).mono fun _ h => h.keeps

theorem sourceByte_keeps (o : Operand) (s : State) : (sourceByte o s).Post (Keeps s) :=
  (sourceByte_effect o s).mono fun _ h => h.keeps

theorem storeWord_keeps (l : Loc) (v : Word) (s : State) : (storeWord l v s).Post (Keeps s) := by
  cases l with
  | reg r => exact keeps_writeReg r v s
  | mem va => exact memWriteWord_keeps va v _ s

theorem storeByte_keeps (l : Loc) (v : Byte) (s : State) : (storeByte l v s).Post (Keeps s) := by
  cases l with
  | reg r => exact keeps_writeReg r _ s
  | mem va => exact memWriteByte_keeps va v _ s

theorem storeByteExtended_keeps (l : Loc) (v : Byte) (s : State) : (storeByteExtended l v s).Post (Keeps s) := by
  cases l with
  | reg r => exact keeps_writeReg r _ s
  | mem va => exact memWriteByte_keeps va v _ s

theorem testWord_keeps (dd : Operand) (f : Word → FlagUpdate) (s : State) : (testWord dd f s).Post (Keeps s) :=
  Keeps.bind (sourceWord_keeps dd s) fun _ t => keeps_withPsw _ t

theorem testByte_keeps (dd : Operand) (f : Byte → FlagUpdate) (s : State) : (testByte dd f s).Post (Keeps s) :=
  Keeps.bind (sourceByte_keeps dd s) fun _ t => keeps_withPsw _ t

theorem putWord_keeps (dd : Operand) (v : Word) (u : FlagUpdate) (s : State) : (putWord dd v u s).Post (Keeps s) :=
  Keeps.bind (resolve_keeps dd _ s) fun l t => Keeps.bind (storeWord_keeps l v t) fun b t => keeps_finishFlags b u t

theorem putByte_keeps (dd : Operand) (v : Byte) (u : FlagUpdate) (s : State) : (putByte dd v u s).Post (Keeps s) :=
  Keeps.bind (resolve_keeps dd _ s) fun l t => Keeps.bind (storeByte_keeps l v t) fun b t => keeps_finishFlags b u t

theorem putByteExtended_keeps (dd : Operand) (v : Byte) (u : FlagUpdate) (s : State) :
    (putByteExtended dd v u s).Post (Keeps s) :=
  Keeps.bind (resolve_keeps dd _ s) fun l t =>
    Keeps.bind (storeByteExtended_keeps l v t) fun b t => keeps_finishFlags b u t

theorem modifyWord_keeps (dd : Operand) (f : Word → Word × FlagUpdate) (s : State) :
    (modifyWord dd f s).Post (Keeps s) :=
  Keeps.bind (resolve_keeps dd _ s) fun l t => Keeps.bind (loadWord_keeps l t) fun _ t =>
    Keeps.bind (storeWord_keeps l _ t) fun b t => keeps_finishFlags b _ t

theorem modifyByte_keeps (dd : Operand) (f : Byte → Byte × FlagUpdate) (s : State) :
    (modifyByte dd f s).Post (Keeps s) :=
  Keeps.bind (resolve_keeps dd _ s) fun l t => Keeps.bind (loadByte_keeps l t) fun _ t =>
    Keeps.bind (storeByte_keeps l _ t) fun b t => keeps_finishFlags b _ t

theorem jumpTarget_keeps (dd : Operand) (s : State) : (jumpTarget dd s).Post (Keeps s) := by
  unfold jumpTarget
  split
  · refine Keeps.bind (resolve_keeps dd _ s) fun l t => ?_
    cases l with
    | reg r => trivial
    | mem va => exact Keeps.refl t
  · trivial

theorem keeps_withSpOf (m : Mode) (v : Word) (s : State) : Keeps s (s.withSpOf m v) :=
  Keeps.of_same (by simp) (by simp) (by simp) (by simp) (by simp) (by simp) (by simp)

theorem loadPrev_effect (l : Loc) (s : State) : (loadPrev l s).Post (ReadEffect s) := by
  cases l with
  | mem va => exact memReadWord_effect _ _ s
  | reg r =>
    simp only [loadPrev, readPrevReg]
    split
    · trivial
    · cases r <;> exact ReadEffect.refl s

theorem storePrev_keeps (l : Loc) (v : Word) (s : State) : (storePrev l v s).Post (Keeps s) := by
  cases l with
  | mem va => exact memWriteWord_keeps _ _ _ s
  | reg r =>
    simp only [storePrev, writePrevReg]
    split
    · trivial
    · cases r <;> first
        | exact keeps_writeReg _ v s
        | exact keeps_withSpOf _ v s

theorem moveFromPrevious_keeps (ss : Operand) (s : State) : (moveFromPrevious ss s).Post (Keeps s) :=
  Keeps.bind (resolve_keeps ss _ s) fun l t =>
    Keeps.bind ((loadPrev_effect l t).mono fun _ h => h.keeps) fun v t =>
      Keeps.bind (push_keeps v t) fun b t => keeps_finishFlags b _ t

theorem moveToPrevious_keeps (dd : Operand) (s : State) : (moveToPrevious dd s).Post (Keeps s) :=
  Keeps.bind (pop_keeps s) fun v t => Keeps.bind (resolve_keeps dd _ t) fun l t =>
    Keeps.bind (storePrev_keeps l v t) fun b t => keeps_finishFlags b _ t

theorem returnFromTrap_keeps (s : State) : (returnFromTrap s).Post (Keeps s) :=
  Keeps.bind (pop_keeps s) fun newPc t =>
    Keeps.bind ((pop_keeps _).mono fun _ h => (keeps_withPc newPc t).trans h) fun w t => loadPsw_keeps w t

/-! ## Every instruction -/

theorem keeps_branch (c : Bool) (offset : BitVec 8) (s : State) : Keeps s (branch c offset s) := by
  unfold branch
  split
  · exact keeps_withPc _ s
  · exact Keeps.refl s

theorem keeps_divide (r : Reg) (b : Int) (s : State) : Keeps s (divide r b s) := by
  unfold divide
  simp only
  split
  · exact keeps_withPsw _ s
  · split
    · exact ((keeps_writeReg _ _ s).trans (keeps_writeReg _ _ _)).trans (keeps_withPsw _ _)
    · exact Keeps.of_same rfl rfl rfl rfl rfl (List.prefix_refl _) rfl

theorem keeps_writePair (hi lo : Reg) (v : BitVec 32) (s : State) : Keeps s (writePair hi lo v s) :=
  (keeps_writeReg _ _ s).trans (keeps_writeReg _ _ _)

/-- The outcome comes from work that keeps what every instruction keeps, or from a trap entry of the same state. -/
def WorkKeeps (s : State) (o : Host.Outcome State Fault Refusal) : Prop :=
  ∃ r : Res Unit, o = complete r ∧ r.Post (Keeps s)

theorem WorkKeeps.ok {s t : State} (h : Keeps s t) : WorkKeeps s (complete (.ok () t)) := ⟨_, rfl, h⟩

theorem trapEntry_work (vec : Word) (s : State) : WorkKeeps s (complete (trapEntry vec s)) := by
  refine ⟨_, rfl, ?_⟩
  cases h : trapEntry vec s with
  | ok a t => exact trapEntry_keeps h
  | abort t => exact absurd h (trapEntry_ne_abort vec s t)
  | fatal f => trivial

/-- Every instruction but HALT and WAIT, which write the run state. -/
theorem exec_work (i : Instr) (s : State) (h0 : i ≠ .halt) (h1 : i ≠ .wait) : WorkKeeps s (exec i s) := by
  cases i with
  | halt => exact absurd rfl h0
  | wait => exact absurd rfl h1
  | mov src dst => exact ⟨_, rfl, Keeps.bind (sourceWord_keeps src s) fun x t => putWord_keeps dst x _ t⟩
  | cmp src dst => exact ⟨_, rfl, Keeps.bind (sourceWord_keeps src s) fun x t => testWord_keeps dst _ t⟩
  | bit src dst => exact ⟨_, rfl, Keeps.bind (sourceWord_keeps src s) fun x t => testWord_keeps dst _ t⟩
  | bic src dst => exact ⟨_, rfl, Keeps.bind (sourceWord_keeps src s) fun x t => modifyWord_keeps dst _ t⟩
  | bis src dst => exact ⟨_, rfl, Keeps.bind (sourceWord_keeps src s) fun x t => modifyWord_keeps dst _ t⟩
  | add src dst => exact ⟨_, rfl, Keeps.bind (sourceWord_keeps src s) fun x t => modifyWord_keeps dst _ t⟩
  | sub src dst => exact ⟨_, rfl, Keeps.bind (sourceWord_keeps src s) fun x t => modifyWord_keeps dst _ t⟩
  | movb src dst => exact ⟨_, rfl, Keeps.bind (sourceByte_keeps src s) fun x t => putByteExtended_keeps dst x _ t⟩
  | cmpb src dst => exact ⟨_, rfl, Keeps.bind (sourceByte_keeps src s) fun x t => testByte_keeps dst _ t⟩
  | bitb src dst => exact ⟨_, rfl, Keeps.bind (sourceByte_keeps src s) fun x t => testByte_keeps dst _ t⟩
  | bicb src dst => exact ⟨_, rfl, Keeps.bind (sourceByte_keeps src s) fun x t => modifyByte_keeps dst _ t⟩
  | bisb src dst => exact ⟨_, rfl, Keeps.bind (sourceByte_keeps src s) fun x t => modifyByte_keeps dst _ t⟩
  | jsr r dst =>
    exact ⟨_, rfl, Keeps.bind (jumpTarget_keeps dst s) fun ea t => Keeps.bind (push_keeps _ t) fun _ t =>
      (keeps_writeReg r _ t).trans (keeps_withPc ea _)⟩
  | jmp dst => exact ⟨_, rfl, Keeps.bind (jumpTarget_keeps dst s) fun ea t => keeps_withPc ea t⟩
  | rts r =>
    exact ⟨_, rfl, Keeps.bind ((pop_keeps _).mono fun _ h => (keeps_withPc _ s).trans h) fun v t => keeps_writeReg r v t⟩
  | mark nn =>
    exact ⟨_, rfl, Keeps.bind ((pop_keeps _).mono fun _ h => ((keeps_writeReg .sp _ s).trans (keeps_withPc _ _)).trans h)
      fun v t => keeps_writeReg .r5 v t⟩
  | mul r src =>
    exact ⟨_, rfl, Keeps.bind (sourceWord_keeps src s) fun x t => (keeps_writePair _ _ _ t).trans (keeps_withPsw _ _)⟩
  | div r src => exact ⟨_, rfl, Keeps.bind (sourceWord_keeps src s) fun x t => keeps_divide r _ t⟩
  | ash r src =>
    exact ⟨_, rfl, Keeps.bind (sourceWord_keeps src s) fun x t => (keeps_writeReg r _ t).trans (keeps_withPsw _ _)⟩
  | ashc r src =>
    exact ⟨_, rfl, Keeps.bind (sourceWord_keeps src s) fun x t => (keeps_writePair _ _ _ t).trans (keeps_withPsw _ _)⟩
  | xor r dst => exact ⟨_, rfl, modifyWord_keeps dst _ s⟩
  | sob r nn =>
    refine WorkKeeps.ok ?_
    split
    · exact keeps_writeReg r _ s
    · exact (keeps_writeReg r _ s).trans (keeps_withPc _ _)
  | br o | bne o | beq o | bge o | blt o | bgt o | bpl o | bhi o | blos o | bcc o | bcs o | ble o | bmi o | bvc o
  | bvs o => exact WorkKeeps.ok (keeps_branch _ o s)
  | clr dst => exact ⟨_, rfl, putWord_keeps dst _ _ s⟩
  | sxt dst => exact ⟨_, rfl, putWord_keeps dst _ _ s⟩
  | clrb dst => exact ⟨_, rfl, putByte_keeps dst _ _ s⟩
  | tst dst => exact ⟨_, rfl, testWord_keeps dst _ s⟩
  | tstb dst => exact ⟨_, rfl, testByte_keeps dst _ s⟩
  | inc dst | swab dst | asl dst | com dst | neg dst | dec dst | adc dst | sbc dst | ror dst | rol dst | asr dst =>
    exact ⟨_, rfl, modifyWord_keeps dst _ s⟩
  | incb dst | comb dst | negb dst | decb dst | adcb dst | sbcb dst | rorb dst | rolb dst | asrb dst | aslb dst =>
    exact ⟨_, rfl, modifyByte_keeps dst _ s⟩
  | mfpi src | mfpd src => exact ⟨_, rfl, moveFromPrevious_keeps src s⟩
  | mtpi dst | mtpd dst => exact ⟨_, rfl, moveToPrevious_keeps dst s⟩
  | rtt | rti => exact ⟨_, rfl, returnFromTrap_keeps s⟩
  | reset =>
    have h : Keeps s (s.record .busInit) := Keeps.of_same rfl rfl rfl rfl rfl (List.prefix_append _ _) rfl
    refine WorkKeeps.ok ?_
    split
    · exact h.trans (Keeps.of_same rfl rfl rfl rfl rfl (List.prefix_refl _) rfl)
    · exact h
  | spl n =>
    refine WorkKeeps.ok ?_
    split
    · exact keeps_withPsw _ s
    · exact Keeps.refl s
  | ccc m | scc m => exact WorkKeeps.ok (keeps_withPsw _ s)
  | emt k | trap k | bpt | iot => exact trapEntry_work _ s

/-- A next state keeps what the work keeps, the bus-timeout trap included. -/
theorem WorkKeeps.keeps {s t : State} {o : Host.Outcome State Fault Refusal} (h : WorkKeeps s o) (ho : o = .next t) :
    Keeps s t := by
  obtain ⟨r, hr, hp⟩ := h
  rw [hr] at ho
  rcases complete_eq_next ho with h | ⟨u, h, ht⟩
  · exact hp.of_ok h
  · exact (hp.of_abort h).trans (trapEntry_keeps ht)

end Sys2Proof.Machine
end

