-- ==== Sys2Proof/Laws/PerInstr.lean ====
section
/-! SUPPORT. Per instruction: the encoded word is accepted by the instruction's own row of spec/opcode_table.json. -/

namespace Sys2Proof.Laws.OpcodeRow

/-- The match and the mask of the instruction's row, written out from spec/opcode_table.json (R121, R122). -/
def row : Instr → Word × Word
  | .mov _ _ => (0o010000, 0o170000)
  | .cmp _ _ => (0o020000, 0o170000)
  | .bit _ _ => (0o030000, 0o170000)
  | .bic _ _ => (0o040000, 0o170000)
  | .bis _ _ => (0o050000, 0o170000)
  | .add _ _ => (0o060000, 0o170000)
  | .movb _ _ => (0o110000, 0o170000)
  | .cmpb _ _ => (0o120000, 0o170000)
  | .bitb _ _ => (0o130000, 0o170000)
  | .bicb _ _ => (0o140000, 0o170000)
  | .bisb _ _ => (0o150000, 0o170000)
  | .sub _ _ => (0o160000, 0o170000)
  | .jsr _ _ => (0o004000, 0o177000)
  | .mul _ _ => (0o070000, 0o177000)
  | .div _ _ => (0o071000, 0o177000)
  | .ash _ _ => (0o072000, 0o177000)
  | .sob _ _ => (0o077000, 0o177000)
  | .br _ => (0o000400, 0o177400)
  | .bne _ => (0o001000, 0o177400)
  | .beq _ => (0o001400, 0o177400)
  | .bge _ => (0o002000, 0o177400)
  | .blt _ => (0o002400, 0o177400)
  | .bgt _ => (0o003000, 0o177400)
  | .bpl _ => (0o100000, 0o177400)
  | .bhi _ => (0o101000, 0o177400)
  | .blos _ => (0o101400, 0o177400)
  | .bcc _ => (0o103000, 0o177400)
  | .bcs _ => (0o103400, 0o177400)
  | .jmp _ => (0o000100, 0o177700)
  | .swab _ => (0o000300, 0o177700)
  | .clr _ => (0o005000, 0o177700)
  | .inc _ => (0o005200, 0o177700)
  | .tst _ => (0o005700, 0o177700)
  | .asl _ => (0o006300, 0o177700)
  | .mfpi _ => (0o006500, 0o177700)
  | .mtpi _ => (0o006600, 0o177700)
  | .sxt _ => (0o006700, 0o177700)
  | .clrb _ => (0o105000, 0o177700)
  | .incb _ => (0o105200, 0o177700)
  | .tstb _ => (0o105700, 0o177700)
  | .rts _ => (0o000200, 0o177770)
  | .halt => (0o000000, 0o177777)
  | .wait => (0o000001, 0o177777)
  | .reset => (0o000005, 0o177777)
  | .rtt => (0o000006, 0o177777)
  | .com _ => (0o005100, 0o177700)
  | .comb _ => (0o105100, 0o177700)
  | .neg _ => (0o005400, 0o177700)
  | .negb _ => (0o105400, 0o177700)
  | .dec _ => (0o005300, 0o177700)
  | .decb _ => (0o105300, 0o177700)
  | .adc _ => (0o005500, 0o177700)
  | .adcb _ => (0o105500, 0o177700)
  | .sbc _ => (0o005600, 0o177700)
  | .sbcb _ => (0o105600, 0o177700)
  | .ror _ => (0o006000, 0o177700)
  | .rorb _ => (0o106000, 0o177700)
  | .rol _ => (0o006100, 0o177700)
  | .rolb _ => (0o106100, 0o177700)
  | .asr _ => (0o006200, 0o177700)
  | .asrb _ => (0o106200, 0o177700)
  | .aslb _ => (0o106300, 0o177700)
  | .ble _ => (0o003400, 0o177400)
  | .bmi _ => (0o100400, 0o177400)
  | .bvc _ => (0o102000, 0o177400)
  | .bvs _ => (0o102400, 0o177400)
  | .xor _ _ => (0o074000, 0o177000)
  | .ashc _ _ => (0o073000, 0o177000)
  | .mark _ => (0o006400, 0o177700)
  | .spl _ => (0o000230, 0o177770)
  | .ccc _ => (0o000240, 0o177760)
  | .scc _ => (0o000260, 0o177760)
  | .mfpd _ => (0o106500, 0o177700)
  | .mtpd _ => (0o106600, 0o177700)
  | .emt _ => (0o104000, 0o177400)
  | .trap _ => (0o104400, 0o177400)
  | .bpt => (0o000003, 0o177777)
  | .iot => (0o000004, 0o177777)
  | .rti => (0o000002, 0o177777)

/-- `w AND mask = match` for the encoded word (R117, R120). -/
def Statement (i : Instr) : Prop := encode i &&& (row i).2 = (row i).1

theorem mov (src dst : Operand) : Statement (.mov src dst) := (encDop_mask _ _ _).trans rfl
theorem cmp (src dst : Operand) : Statement (.cmp src dst) := (encDop_mask _ _ _).trans rfl
theorem bit (src dst : Operand) : Statement (.bit src dst) := (encDop_mask _ _ _).trans rfl
theorem bic (src dst : Operand) : Statement (.bic src dst) := (encDop_mask _ _ _).trans rfl
theorem bis (src dst : Operand) : Statement (.bis src dst) := (encDop_mask _ _ _).trans rfl
theorem add (src dst : Operand) : Statement (.add src dst) := (encDop_mask _ _ _).trans rfl
theorem movb (src dst : Operand) : Statement (.movb src dst) := (encDop_mask _ _ _).trans rfl
theorem cmpb (src dst : Operand) : Statement (.cmpb src dst) := (encDop_mask _ _ _).trans rfl
theorem bitb (src dst : Operand) : Statement (.bitb src dst) := (encDop_mask _ _ _).trans rfl
theorem bicb (src dst : Operand) : Statement (.bicb src dst) := (encDop_mask _ _ _).trans rfl
theorem bisb (src dst : Operand) : Statement (.bisb src dst) := (encDop_mask _ _ _).trans rfl
theorem sub (src dst : Operand) : Statement (.sub src dst) := (encDop_mask _ _ _).trans rfl
theorem jsr (r : Reg) (dst : Operand) : Statement (.jsr r dst) := (encReg_mask _ _ _).trans rfl
theorem mul (r : Reg) (src : Operand) : Statement (.mul r src) := (encReg_mask _ _ _).trans rfl
theorem div (r : Reg) (src : Operand) : Statement (.div r src) := (encReg_mask _ _ _).trans rfl
theorem ash (r : Reg) (src : Operand) : Statement (.ash r src) := (encReg_mask _ _ _).trans rfl
theorem sob (r : Reg) (nn : BitVec 6) : Statement (.sob r nn) := (encReg_mask _ _ _).trans rfl
theorem br (o : BitVec 8) : Statement (.br o) := (encByte_mask _ _).trans rfl
theorem bne (o : BitVec 8) : Statement (.bne o) := (encByte_mask _ _).trans rfl
theorem beq (o : BitVec 8) : Statement (.beq o) := (encByte_mask _ _).trans rfl
theorem bge (o : BitVec 8) : Statement (.bge o) := (encByte_mask _ _).trans rfl
theorem blt (o : BitVec 8) : Statement (.blt o) := (encByte_mask _ _).trans rfl
theorem bgt (o : BitVec 8) : Statement (.bgt o) := (encByte_mask _ _).trans rfl
theorem bpl (o : BitVec 8) : Statement (.bpl o) := (encByte_mask _ _).trans rfl
theorem bhi (o : BitVec 8) : Statement (.bhi o) := (encByte_mask _ _).trans rfl
theorem blos (o : BitVec 8) : Statement (.blos o) := (encByte_mask _ _).trans rfl
theorem bcc (o : BitVec 8) : Statement (.bcc o) := (encByte_mask _ _).trans rfl
theorem bcs (o : BitVec 8) : Statement (.bcs o) := (encByte_mask _ _).trans rfl
theorem jmp (dst : Operand) : Statement (.jmp dst) := (encOperand_mask _ _).trans rfl
theorem swab (dst : Operand) : Statement (.swab dst) := (encOperand_mask _ _).trans rfl
theorem clr (dst : Operand) : Statement (.clr dst) := (encOperand_mask _ _).trans rfl
theorem inc (dst : Operand) : Statement (.inc dst) := (encOperand_mask _ _).trans rfl
theorem tst (dst : Operand) : Statement (.tst dst) := (encOperand_mask _ _).trans rfl
theorem asl (dst : Operand) : Statement (.asl dst) := (encOperand_mask _ _).trans rfl
theorem mfpi (src : Operand) : Statement (.mfpi src) := (encOperand_mask _ _).trans rfl
theorem mtpi (dst : Operand) : Statement (.mtpi dst) := (encOperand_mask _ _).trans rfl
theorem sxt (dst : Operand) : Statement (.sxt dst) := (encOperand_mask _ _).trans rfl
theorem clrb (dst : Operand) : Statement (.clrb dst) := (encOperand_mask _ _).trans rfl
theorem incb (dst : Operand) : Statement (.incb dst) := (encOperand_mask _ _).trans rfl
theorem tstb (dst : Operand) : Statement (.tstb dst) := (encOperand_mask _ _).trans rfl
theorem rts (r : Reg) : Statement (.rts r) := (encLow3_mask _ _).trans rfl
theorem halt : Statement (.halt) := by unfold Statement; decide
theorem wait : Statement (.wait) := by unfold Statement; decide
theorem reset : Statement (.reset) := by unfold Statement; decide
theorem rtt : Statement (.rtt) := by unfold Statement; decide
theorem com (dst : Operand) : Statement (.com dst) := (encOperand_mask _ _).trans rfl
theorem comb (dst : Operand) : Statement (.comb dst) := (encOperand_mask _ _).trans rfl
theorem neg (dst : Operand) : Statement (.neg dst) := (encOperand_mask _ _).trans rfl
theorem negb (dst : Operand) : Statement (.negb dst) := (encOperand_mask _ _).trans rfl
theorem dec (dst : Operand) : Statement (.dec dst) := (encOperand_mask _ _).trans rfl
theorem decb (dst : Operand) : Statement (.decb dst) := (encOperand_mask _ _).trans rfl
theorem adc (dst : Operand) : Statement (.adc dst) := (encOperand_mask _ _).trans rfl
theorem adcb (dst : Operand) : Statement (.adcb dst) := (encOperand_mask _ _).trans rfl
theorem sbc (dst : Operand) : Statement (.sbc dst) := (encOperand_mask _ _).trans rfl
theorem sbcb (dst : Operand) : Statement (.sbcb dst) := (encOperand_mask _ _).trans rfl
theorem ror (dst : Operand) : Statement (.ror dst) := (encOperand_mask _ _).trans rfl
theorem rorb (dst : Operand) : Statement (.rorb dst) := (encOperand_mask _ _).trans rfl
theorem rol (dst : Operand) : Statement (.rol dst) := (encOperand_mask _ _).trans rfl
theorem rolb (dst : Operand) : Statement (.rolb dst) := (encOperand_mask _ _).trans rfl
theorem asr (dst : Operand) : Statement (.asr dst) := (encOperand_mask _ _).trans rfl
theorem asrb (dst : Operand) : Statement (.asrb dst) := (encOperand_mask _ _).trans rfl
theorem aslb (dst : Operand) : Statement (.aslb dst) := (encOperand_mask _ _).trans rfl
theorem ble (o : BitVec 8) : Statement (.ble o) := (encByte_mask _ _).trans rfl
theorem bmi (o : BitVec 8) : Statement (.bmi o) := (encByte_mask _ _).trans rfl
theorem bvc (o : BitVec 8) : Statement (.bvc o) := (encByte_mask _ _).trans rfl
theorem bvs (o : BitVec 8) : Statement (.bvs o) := (encByte_mask _ _).trans rfl
theorem xor (r : Reg) (dst : Operand) : Statement (.xor r dst) := (encReg_mask _ _ _).trans rfl
theorem ashc (r : Reg) (src : Operand) : Statement (.ashc r src) := (encReg_mask _ _ _).trans rfl
theorem mark (nn : BitVec 6) : Statement (.mark nn) := (encOperand_mask _ _).trans rfl
theorem spl (n : BitVec 3) : Statement (.spl n) := (encLow3_mask _ _).trans rfl
theorem ccc (m : BitVec 4) : Statement (.ccc m) := (encMask_mask _ _).trans rfl
theorem scc (m : BitVec 4) : Statement (.scc m) := (encMask_mask _ _).trans rfl
theorem mfpd (src : Operand) : Statement (.mfpd src) := (encOperand_mask _ _).trans rfl
theorem mtpd (dst : Operand) : Statement (.mtpd dst) := (encOperand_mask _ _).trans rfl
theorem emt (k : BitVec 8) : Statement (.emt k) := (encByte_mask _ _).trans rfl
theorem trap (k : BitVec 8) : Statement (.trap k) := (encByte_mask _ _).trans rfl
theorem bpt : Statement (.bpt) := by unfold Statement; decide
theorem iot : Statement (.iot) := by unfold Statement; decide
theorem rti : Statement (.rti) := by unfold Statement; decide

end Sys2Proof.Laws.OpcodeRow
end

