-- ==== Sys2Proof/Laws/Stores.lean ====
section
/-! SUPPORT. Everything a store that answers may change, stated once for a bus write, a store to a location and a store
through the previous space; and when an access cannot time out. -/

namespace Sys2Proof.Machine

/-- The bus write to the word `pa`, answering `wrote`, leads from `s` to `t`. -/
structure BusWritten (pa : Nat) (wrote : Bool) (s t : State) : Prop where
  control : controlSame s t
  slots : slotsSame s t
  trace : t.psw.t = s.psw.t
  psw : wrote = false → t.psw = s.psw
  atPsw : wrote = true ↔ pa = pswAddress ∧ s.cfg.pswMapped = true ∧ s.cfg.ramSize ≤ pa
  mmu : (∀ r, s.cfg.ramSize ≤ pa → mmuRegAt pa ≠ some r) → t.mmu = s.mmu
  history : s.history <+: t.history
  ram : t.ram = s.ram ∨ ∃ v, pa < s.cfg.ramSize ∧ t.ram = Memory.writeWord s.ram pa v

theorem mmuRegAt_pswAddress : mmuRegAt pswAddress = none := by decide

theorem busWrite_written {pa : Nat} {v : Word} {s t : State} {wrote : Bool} (h : busWrite pa v s = .ok wrote t) :
    BusWritten pa wrote s t ∧ (pa < s.cfg.ramSize → t = s.withRam (Memory.writeWord s.ram pa v)) := by
  have hb := (busWrite_effect pa v s).of_ok h
  refine ⟨⟨hb.control, hb.slots, hb.trace, ?_, ?_, ?_, hb.history, ?_⟩, ?_⟩
  · rintro rfl
    exact busWrite_psw h
  all_goals
    unfold busWrite at h
    split at h
    · rename_i hp
      cases h
      first
        | exact ⟨fun h => by simp at h, fun ⟨_, _, h⟩ => by omega⟩
        | exact fun _ => rfl
        | exact .inr ⟨v, hp, rfl⟩
    · rename_i hp
      split at h
      · rename_i r hr
        cases h
        first
          | exact ⟨fun h => by simp at h, fun ⟨h, _, _⟩ => by rw [h, mmuRegAt_pswAddress] at hr; cases hr⟩
          | exact fun h => absurd hr (h r (by omega))
          | exact fun h => absurd h hp
          | (left; cases r <;> rfl)
      · split at h
        · rename_i hm
          unfold pswWrite at h
          split at h
          · cases h
            first
              | exact ⟨fun _ => ⟨hm.2, hm.1, by omega⟩, fun _ => rfl⟩
              | exact fun _ => rfl
              | exact fun h => absurd h hp
              | exact .inl rfl
          · cases h
        · rename_i hm
          split at h
          · cases h
            first
              | exact ⟨fun h => by simp at h, fun ⟨h, h', _⟩ => absurd ⟨h', h⟩ hm⟩
              | exact fun _ => rfl
              | exact fun h => absurd h hp
              | exact .inl rfl
          · unfold busFault at h
            split at h <;> cases h

theorem BusWritten.ram_outside {pa : Nat} {wrote : Bool} {s t : State} (h : BusWritten pa wrote s t) :
    ramSameOutside (fun a => a = pa ∨ a = pa + 1) s t := by
  intro a ha
  rcases h.ram with he | ⟨v, _, he⟩ <;> rw [he]
  exact Memory.read_writeWord_other _ _ (fun h => ha (.inl h)) fun h => ha (.inr h)

/-- The store of a word or byte through a space at a virtual address, answering `wrote`, leads from `s` to `t`. -/
structure MemWritten (m : Option Space) (va : Word) (n : Size) (wrote : Bool) (s t : State) : Prop where
  control : controlSame s t
  slots : slotsSame s t
  trace : t.psw.t = s.psw.t
  psw : wrote = false → t.psw = s.psw
  atPsw : wrote = true ↔ ∃ sp, m = some sp ∧ (if n = .word then s.translate sp va else evenPa (s.translate sp va)) =
    pswAddress ∧ s.cfg.pswMapped = true ∧ s.cfg.ramSize ≤ pswAddress
  mmu : (∀ sp r, m = some sp → s.cfg.ramSize ≤ (if n = .word then s.translate sp va else evenPa (s.translate sp va)) →
    mmuRegAt (if n = .word then s.translate sp va else evenPa (s.translate sp va)) ≠ some r) → t.mmu = s.mmu
  history : s.history <+: t.history
  ram : ramSameOutside (storedAt s m va n) s t

theorem memWriteWord_written {va v : Word} {m : Option Space} {s t : State} {wrote : Bool}
    (h : memWriteWord va v m s = .ok wrote t) : MemWritten m va .word wrote s t := by
  unfold memWriteWord at h
  split at h
  · cases h
  · cases m with
    | none => cases h
    | some sp =>
      have hb := (busWrite_written h).1
      refine ⟨hb.control, hb.slots, hb.trace, hb.psw, ?_, ?_, hb.history, hb.ram_outside⟩
      · rw [hb.atPsw]
        constructor
        · rintro ⟨h1, h2, h3⟩
          exact ⟨sp, rfl, h1, h2, h1 ▸ h3⟩
        · rintro ⟨_, h0, h1, h2, h3⟩
          cases h0
          exact ⟨h1, h2, (show s.translate sp va = pswAddress from h1) ▸ h3⟩
      · exact fun hr => hb.mmu fun r => hr sp r rfl

/-- The bus read of a byte store reads RAM, when the word is RAM, as it is. -/
theorem busRead_ok {pa : Nat} {s t : State} {w : Word} (h : busRead pa s = .ok w t) :
    ReadEffect s t ∧ (pa < s.cfg.ramSize → w = Memory.readWord s.ram pa) := by
  refine ⟨(busRead_effect pa s).of_ok h, fun hp => ?_⟩
  rw [busRead_ram hp] at h
  cases h
  rfl

/-- A byte merged into the RAM word that holds it changes that byte only (R81). -/
theorem Memory.read_mergeByte {m : List Host.Cell} (hm : Memory.wf m = true) {pa a : Nat} (v : Byte) (ha : a ≠ pa) :
    Memory.read (Memory.writeWord m (evenPa pa) (mergeByte pa v (Memory.readWord m (evenPa pa)))) a =
      Memory.read m a := by
  unfold Memory.writeWord
  by_cases h1 : a = evenPa pa + 1
  · subst h1
    rw [Memory.read_write_same (Memory.write_wf hm _ _)]
    have : pa % 2 = 0 := by unfold evenPa at ha; omega
    simp [mergeByte, this, Memory.readWord]
  · rw [Memory.read_write_other _ _ h1]
    by_cases h0 : a = evenPa pa
    · subst h0
      rw [Memory.read_write_same hm]
      have : ¬pa % 2 = 0 := by unfold evenPa at ha; omega
      simp [mergeByte, this, Memory.readWord]
    · exact Memory.read_write_other _ _ h0

theorem memWriteByte_written {va : Word} {v : Byte} {m : Option Space} {s t : State} {wrote : Bool}
    (hw : Memory.wf s.ram = true) (h : memWriteByte va v m s = .ok wrote t) : MemWritten m va .byte wrote s t := by
  unfold memWriteByte at h
  cases m with
  | none => cases h
  | some sp =>
    obtain ⟨w, u, hr, hu⟩ := Res.bind_eq_ok.1 h
    obtain ⟨he, hv⟩ := busRead_ok hr
    obtain ⟨hb, hram⟩ := busWrite_written hu
    have e := he.eq
    have hcfg : u.cfg = s.cfg := by rw [e]; rfl
    have hmem : u.ram = s.ram := by rw [e]; rfl
    have hpsw : u.psw = s.psw := by rw [e]; rfl
    have hmmu : u.mmu = s.mmu := by rw [e]; rfl
    obtain ⟨c1, c2, c3, c4, c5⟩ := hb.control
    obtain ⟨b1, b2, b3, b4, b5, b6⟩ := hb.slots
    refine ⟨⟨c1.trans ?_, c2.trans ?_, c3.trans hcfg, c4.trans ?_, c5.trans ?_⟩,
      ⟨b1.trans ?_, b2.trans ?_, b3.trans ?_, b4.trans ?_, b5.trans ?_, b6.trans ?_⟩,
      hb.trace.trans (by rw [hpsw]), fun hf => (hb.psw hf).trans hpsw, ?_, ?_, he.history.trans hb.history, ?_⟩
    all_goals try (rw [e]; rfl)
    · rw [hb.atPsw, hcfg]
      constructor
      · rintro ⟨h1, h2, h3⟩
        exact ⟨sp, rfl, h1, h2, h1 ▸ h3⟩
      · rintro ⟨_, h0, h1, h2, h3⟩
        cases h0
        exact ⟨h1, h2, (show evenPa (s.translate sp va) = pswAddress from h1) ▸ h3⟩
    · intro hr'
      rw [← hmmu]
      exact hb.mmu fun r hle => hr' sp r rfl (hcfg ▸ hle)
    · intro a ha
      have ha : a ≠ s.translate sp va := ha
      rcases hb.ram with h' | ⟨_, hp, _⟩
      · rw [h', hmem]
      · rw [hram hp, hv (hcfg ▸ hp)]
        show Memory.read (Memory.writeWord u.ram _ _) a = _
        rw [hmem]
        exact Memory.read_mergeByte hw v ha

/-! ## Stores to a location -/

/-- The store to a location, answering `wrote`, leads from `s` to `t`. -/
structure Stored (l : Loc) (n : Size) (wrote : Bool) (s t : State) : Prop where
  control : controlSame s t
  regs : ∀ r, l = .reg r → ∃ x, t = writeReg r x s
  slots : ∀ va, l = .mem va → slotsSame s t
  trace : t.psw.t = s.psw.t
  psw : wrote = false → t.psw = s.psw
  atPsw : wrote = true ↔ storesPsw l n s
  mmu : ¬storesMmu l n s → t.mmu = s.mmu
  history : s.history <+: t.history
  ram : ramSameOutside (storedBytes l n s) s t

theorem stored_reg (r : Reg) (n : Size) (x : Word) (s : State) : Stored (.reg r) n false s (writeReg r x s) :=
  ⟨⟨by simp, by simp, by simp, by simp, by simp⟩, (fun _ h => by cases h; exact ⟨x, rfl⟩), (fun _ h => by cases h),
   by simp, (fun _ => by simp), by simp [storesPsw, targetWord], (fun _ => by simp), by simp, (fun _ _ => by simp)⟩

theorem MemWritten.stored {va : Word} {n : Size} {wrote : Bool} {s t : State}
    (h : MemWritten s.curSpace va n wrote s t) : Stored (.mem va) n wrote s t := by
  refine ⟨h.control, (fun _ h => by cases h), fun _ _ => h.slots, h.trace, h.psw, ?_, ?_, h.history, h.ram⟩
  · rw [h.atPsw]
    cases hc : s.curSpace with
    | none => simp [storesPsw, targetWord, hc]
    | some sp => cases n <;> simp [storesPsw, targetWord, hc]
  · intro hm
    refine h.mmu fun sp r hs hle hr => hm ⟨_, r, ?_, hle, hr⟩
    cases n <;> simp [targetWord, hs]

theorem storeWord_stored {l : Loc} {v : Word} {s t : State} {wrote : Bool} (h : storeWord l v s = .ok wrote t) :
    Stored l .word wrote s t := by
  cases l with
  | reg r => cases h; exact stored_reg r _ _ s
  | mem va => exact (memWriteWord_written h).stored

theorem storeByte_stored {l : Loc} {v : Byte} {s t : State} {wrote : Bool} (hw : Memory.wf s.ram = true)
    (h : storeByte l v s = .ok wrote t) : Stored l .byte wrote s t := by
  cases l with
  | reg r => cases h; exact stored_reg r _ _ s
  | mem va => exact (memWriteByte_written hw h).stored

theorem storeByteExtended_stored {l : Loc} {v : Byte} {s t : State} {wrote : Bool} (hw : Memory.wf s.ram = true)
    (h : storeByteExtended l v s = .ok wrote t) : Stored l .byte wrote s t := by
  cases l with
  | reg r => cases h; exact stored_reg r _ _ s
  | mem va => exact (memWriteByte_written hw h).stored

/-! ## Accesses that cannot time out -/

theorem busRead_ne_abort {pa : Nat} {s : State} (h : ¬(unclaimed s pa ∧ pa < Config.ioBase)) (t : State) :
    busRead pa s ≠ .abort t := by
  intro hr
  unfold busRead at hr
  split at hr
  · cases hr
  · rename_i h1
    split at hr
    · rename_i r _
      cases r <;> cases hr
    · rename_i h2
      split at hr
      · cases hr
      · rename_i h3
        split at hr
        · cases hr
        · rename_i h4
          unfold busFault at hr
          split at hr
          · exact h ⟨⟨by omega, h2, h3, h4⟩, by assumption⟩
          · cases hr

theorem busWrite_ne_abort {pa : Nat} {s : State} (h : ¬(unclaimed s pa ∧ pa < Config.ioBase)) (v : Word) (t : State) :
    busWrite pa v s ≠ .abort t := by
  intro hr
  unfold busWrite at hr
  split at hr
  · cases hr
  · rename_i h1
    split at hr
    · cases hr
    · rename_i h2
      split at hr
      · unfold pswWrite at hr
        split at hr <;> cases hr
      · rename_i h3
        split at hr
        · cases hr
        · rename_i h4
          unfold busFault at hr
          split at hr
          · exact h ⟨⟨by omega, h2, h3, h4⟩, by assumption⟩
          · cases hr

/-- A bus read that answers was of an address some unit claims. -/
theorem claimed_of_busRead {pa : Nat} {s t : State} {w : Word} (h : busRead pa s = .ok w t) : ¬unclaimed s pa := by
  rintro ⟨h1, h2, h3, h4⟩
  unfold busRead at h
  rw [if_neg (by omega), h2] at h
  simp only at h
  rw [if_neg h3, if_neg h4] at h
  unfold busFault at h
  split at h <;> cases h

/-- A bus read of an address some unit claims answers. -/
theorem busRead_claimed {pa : Nat} {s : State} (h : ¬unclaimed s pa) : ∃ w t, busRead pa s = .ok w t := by
  unfold busRead
  split
  · exact ⟨_, _, rfl⟩
  · rename_i h1
    split
    · rename_i r _
      cases r <;> exact ⟨_, _, rfl⟩
    · rename_i h2
      split
      · exact ⟨_, _, rfl⟩
      · rename_i h3
        split
        · exact ⟨_, _, rfl⟩
        · rename_i h4
          exact absurd ⟨by omega, h2, h3, h4⟩ h

/-- A bus write to an address some unit claims answers, unless it loads mode 0b10 into the mapped PSW (R28, R90). -/
theorem busWrite_claimed {pa : Nat} {s : State} (h : ¬unclaimed s pa) (v : Word) :
    (∃ wrote t, busWrite pa v s = .ok wrote t) ∨
      (pa = pswAddress ∧ s.cfg.pswMapped = true ∧ s.cfg.ramSize ≤ pswAddress) ∧
        busWrite pa v s = .fatal (.invalidMode s.annotation) := by
  unfold busWrite
  split
  · exact .inl ⟨_, _, rfl⟩
  · rename_i h1
    split
    · exact .inl ⟨_, _, rfl⟩
    · rename_i h2
      split
      · rename_i h3
        unfold pswWrite
        split
        · exact .inl ⟨_, _, rfl⟩
        · exact .inr ⟨⟨h3.2, h3.1, by rw [← h3.2]; omega⟩, rfl⟩
      · rename_i h3
        split
        · exact .inl ⟨_, _, rfl⟩
        · rename_i h4
          exact absurd ⟨by omega, h2, h3, h4⟩ h

theorem unclaimed_congr {s t : State} (h : t.cfg = s.cfg) (pa : Nat) : unclaimed t pa ↔ unclaimed s pa := by
  simp [unclaimed, h]

theorem memWriteWord_ne_abort {va : Word} {m : Option Space} {s : State}
    (h : ∀ sp, m = some sp → ¬(unclaimed s (s.translate sp va) ∧ s.translate sp va < Config.ioBase)) (v : Word)
    (t : State) : memWriteWord va v m s ≠ .abort t := by
  intro hr
  unfold memWriteWord at hr
  split at hr
  · cases hr
  · cases m with
    | none => cases hr
    | some sp => exact busWrite_ne_abort (h sp rfl) v t hr

theorem memWriteByte_ne_abort {va : Word} {m : Option Space} {s : State}
    (h : ∀ sp, m = some sp →
      ¬(unclaimed s (evenPa (s.translate sp va)) ∧ evenPa (s.translate sp va) < Config.ioBase)) (v : Byte)
    (t : State) : memWriteByte va v m s ≠ .abort t := by
  intro hr
  unfold memWriteByte at hr
  cases m with
  | none => cases hr
  | some sp =>
    rcases Res.bind_eq_abort.1 hr with hr | ⟨w, u, hu, hr⟩
    · exact busRead_ne_abort (h sp rfl) t hr
    · refine busWrite_ne_abort ?_ _ t hr
      rw [unclaimed_congr ((busRead_ok hu).1.eval.control.2.2.1)]
      exact h sp rfl

theorem loadWord_ne_abort {l : Loc} {s : State} (h : answered l .word s) (t : State) : loadWord l s ≠ .abort t := by
  intro hr
  cases l with
  | reg r => cases hr
  | mem va =>
    unfold loadWord memReadWord at hr
    simp only at hr
    split at hr
    · cases hr
    · cases hc : s.curSpace with
      | none => rw [hc] at hr; cases hr
      | some sp =>
        rw [hc] at hr
        exact busRead_ne_abort (h _ (by simp [targetWord, hc])) t hr

theorem loadByte_ne_abort {l : Loc} {s : State} (h : answered l .byte s) (t : State) : loadByte l s ≠ .abort t := by
  intro hr
  cases l with
  | reg r => cases hr
  | mem va =>
    unfold loadByte memReadByte at hr
    cases hc : s.curSpace with
    | none => rw [hc] at hr; cases hr
    | some sp =>
      rw [hc] at hr
      rcases Res.bind_eq_abort.1 hr with hr | ⟨w, u, _, hr⟩
      · exact busRead_ne_abort (h _ (by simp [targetWord, hc])) t hr
      · cases hr

theorem storeWord_ne_abort {l : Loc} {s : State} (h : answered l .word s) (v : Word) (t : State) :
    storeWord l v s ≠ .abort t := by
  cases l with
  | reg r => intro hr; cases hr
  | mem va => exact memWriteWord_ne_abort (fun sp hs => h _ (by simp [targetWord, hs])) v t

theorem storeByte_ne_abort {l : Loc} {s : State} (h : answered l .byte s) (v : Byte) (t : State) :
    storeByte l v s ≠ .abort t := by
  cases l with
  | reg r => intro hr; cases hr
  | mem va => exact memWriteByte_ne_abort (fun sp hs => h _ (by simp [targetWord, hs])) v t

theorem storeByteExtended_ne_abort {l : Loc} {s : State} (h : answered l .byte s) (v : Byte) (t : State) :
    storeByteExtended l v s ≠ .abort t := by
  cases l with
  | reg r => intro hr; cases hr
  | mem va => exact memWriteByte_ne_abort (fun sp hs => h _ (by simp [targetWord, hs])) v t

/-- A read before a store leaves the location's word and its answering as they were. -/
theorem targetWord_congr {s t : State} (hp : t.psw = s.psw) (hm : t.mmu = s.mmu) (l : Loc) (n : Size) :
    targetWord l n t = targetWord l n s := by
  cases l with
  | reg r => rfl
  | mem va =>
    simp only [targetWord, curSpace_congr hp]
    cases s.curSpace with
    | none => rfl
    | some sp => cases n <;> simp [translate_congr hm]

theorem answered_congr {s t : State} (hp : t.psw = s.psw) (hm : t.mmu = s.mmu) (hc : t.cfg = s.cfg) {l : Loc}
    {n : Size} (h : answered l n s) : answered l n t := by
  intro pa ht
  rw [unclaimed_congr hc]
  exact h pa (by rw [← targetWord_congr hp hm]; exact ht)

theorem storesPsw_congr {s t : State} (hp : t.psw = s.psw) (hm : t.mmu = s.mmu) (hc : t.cfg = s.cfg) (l : Loc)
    (n : Size) : storesPsw l n t ↔ storesPsw l n s := by
  simp [storesPsw, targetWord_congr hp hm, hc]

theorem storesMmu_congr {s t : State} (hp : t.psw = s.psw) (hm : t.mmu = s.mmu) (hc : t.cfg = s.cfg) (l : Loc)
    (n : Size) : storesMmu l n t ↔ storesMmu l n s := by
  simp [storesMmu, targetWord_congr hp hm, hc]

theorem storedAt_congr {s t : State} (hm : t.mmu = s.mmu) (m : Option Space) (va : Word) (n : Size) :
    storedAt t m va n = storedAt s m va n := by
  funext a
  cases m with
  | none => rfl
  | some sp => cases n <;> simp [storedAt, translate_congr hm]

theorem storedBytes_congr {s t : State} (hp : t.psw = s.psw) (hm : t.mmu = s.mmu) (l : Loc) (n : Size) :
    storedBytes l n t = storedBytes l n s := by
  cases l with
  | reg r => rfl
  | mem va =>
    funext a
    simp [storedBytes, curSpace_congr hp, storedAt_congr hm]

/-! ## A location that has been read answers its store -/

theorem ReadEffect.annotation {s t : State} (h : ReadEffect s t) : t.annotation = s.annotation := by rw [h.eq]; rfl

theorem storeAnswers_word {l : Loc} {u w : State} {d : Word} (h : loadWord l u = .ok d w) :
    storeAnswers l .word w := by
  intro x
  cases l with
  | reg r => exact .inl ⟨_, _, rfl⟩
  | mem va =>
    have e := (loadWord_effect _ u).of_ok h
    have hc : w.curSpace = u.curSpace := congrArg (fun p => p.cm.space) e.eval.psw
    unfold loadWord memReadWord at h
    simp only at h
    split at h
    · cases h
    · rename_i ho
      cases hm : u.curSpace with
      | none => rw [hm] at h; cases h
      | some sp =>
        rw [hm] at h
        have ht : w.translate sp va = u.translate sp va := translate_congr e.eval.mmu sp va
        have hn : ¬unclaimed w (w.translate sp va) := by
          rw [unclaimed_congr e.eval.control.2.2.1, ht]; exact claimed_of_busRead h
        have hs : storeWord (.mem va) x w = busWrite (w.translate sp va) x w := by
          simp only [storeWord, memWriteWord, hc, hm]
          rw [if_neg ho]
        rw [hs]
        refine (busWrite_claimed hn x).imp id fun ⟨⟨h1, h2, h3⟩, h4⟩ => ⟨⟨?_, h2, h3⟩, h4⟩
        simp only [targetWord, hc, hm, Option.map_some, h1]

theorem storeAnswers_byte {l : Loc} {u w : State} {d : Byte} (h : loadByte l u = .ok d w) :
    storeAnswers l .byte w := by
  intro x
  cases l with
  | reg r => exact .inl ⟨_, _, rfl⟩
  | mem va =>
    have e := (loadByte_effect _ u).of_ok h
    have hc : w.curSpace = u.curSpace := congrArg (fun p => p.cm.space) e.eval.psw
    unfold loadByte memReadByte at h
    cases hm : u.curSpace with
    | none => simp [hm] at h
    | some sp =>
      simp only [hm] at h
      obtain ⟨y, z, hr, _⟩ := Res.bind_eq_ok.1 h
      have ht : w.translate sp va = u.translate sp va := translate_congr e.eval.mmu sp va
      have hn : ¬unclaimed w (evenPa (w.translate sp va)) := by
        rw [unclaimed_congr e.eval.control.2.2.1, ht]; exact claimed_of_busRead hr
      have hs : storeByte (.mem va) x w =
          (busRead (evenPa (w.translate sp va)) w).bind fun y z =>
            busWrite (evenPa (w.translate sp va)) (mergeByte (w.translate sp va) x y) z := by
        simp only [storeByte, memWriteByte, hc, hm]
      obtain ⟨y, z, hy⟩ := busRead_claimed hn
      have ez := (busRead_effect _ w).of_ok hy
      rw [hs, hy, Res.bind_ok]
      have hz : ¬unclaimed z (evenPa (w.translate sp va)) := by
        rw [unclaimed_congr ez.eval.control.2.2.1]; exact hn
      refine (busWrite_claimed hz _).imp id fun ⟨⟨h1, h2, h3⟩, h4⟩ => ⟨⟨?_, ?_, ?_⟩, ?_⟩
      · simp only [targetWord, hc, hm, Option.map_some, h1]
      · rw [← ez.eval.control.2.2.1]; exact h2
      · rw [← ez.eval.control.2.2.1]; exact h3
      · rw [h4, ez.annotation]; rfl

end Sys2Proof.Machine
end

