-- ==== Sys2Proof/Tests/Slice0.lean ====
section
/-! SUPPORT. The model's own tests: well-formedness, decoding from words written out from the spec's encodings, one step
of each instruction with the result a vector of 95_test_vectors.md or 96_test_vectors_part2.md gives, and a state that
meets the hypotheses of each statement. -/

namespace Sys2Proof.Tests

open Sys2Proof.Machine

set_option maxRecDepth 4000

/-! ## Well-formedness: an ill-formed term for each check -/

theorem wf_jmp_modes :
    [AddrMode.register, .autoInc, .autoIncDeferred, .autoDec, .autoDecDeferred].all
      (fun m => !(Instr.jmp ⟨m, .r1⟩).wellFormed .doc && !(Instr.jsr .r5 ⟨m, .pc⟩).wellFormed .ext) = true := by decide

theorem wf_profile : Instr.wellFormed .doc .rti = false ∧ Instr.wellFormed .doc (.com ⟨.register, .r0⟩) = false := by
  decide

theorem wf_accepts :
    Instr.wellFormed .doc (.jmp ⟨.deferred, .r1⟩) = true ∧ Instr.wellFormed .ext (.jsr .pc ⟨.index, .pc⟩) = true ∧
    Instr.wellFormed .ext .rti = true := by decide

/-! ## Decoding -/

/-- Format DOP: each row's word, its fixed bits as the encoding gives them, its fields spelled out. -/
theorem decode_dop :
    decodeWord 0b0001_111_100_101_010#16 = some (.mov ⟨.indexDeferred, .r4⟩ ⟨.autoDecDeferred, .r2⟩) ∧
    decodeWord 0b0010_010_001_000_111#16 = some (.cmp ⟨.autoInc, .r1⟩ ⟨.register, .pc⟩) ∧
    decodeWord 0b0011_101_110_011_100#16 = some (.bit ⟨.autoDecDeferred, .sp⟩ ⟨.autoIncDeferred, .r4⟩) ∧
    decodeWord 0b0100_000_011_110_001#16 = some (.bic ⟨.register, .r3⟩ ⟨.index, .r1⟩) ∧
    decodeWord 0b0101_011_000_001_110#16 = some (.bis ⟨.autoIncDeferred, .r0⟩ ⟨.deferred, .sp⟩) ∧
    decodeWord 0b0110_110_101_100_011#16 = some (.add ⟨.index, .r5⟩ ⟨.autoDec, .r3⟩) ∧
    decodeWord 0b1001_001_010_111_000#16 = some (.movb ⟨.deferred, .r2⟩ ⟨.indexDeferred, .r0⟩) ∧
    decodeWord 0b1010_100_111_010_101#16 = some (.cmpb ⟨.autoDec, .pc⟩ ⟨.autoInc, .r5⟩) ∧
    decodeWord 0b1011_111_100_101_010#16 = some (.bitb ⟨.indexDeferred, .r4⟩ ⟨.autoDecDeferred, .r2⟩) ∧
    decodeWord 0b1100_010_001_000_111#16 = some (.bicb ⟨.autoInc, .r1⟩ ⟨.register, .pc⟩) ∧
    decodeWord 0b1101_101_110_011_100#16 = some (.bisb ⟨.autoDecDeferred, .sp⟩ ⟨.autoIncDeferred, .r4⟩) ∧
    decodeWord 0b1110_000_011_110_001#16 = some (.sub ⟨.register, .r3⟩ ⟨.index, .r1⟩) := by decide

/-- Format RDD: each row's word, its fixed bits as the encoding gives them, its fields spelled out. -/
theorem decode_rdd :
    decodeWord 0b0000100_000_001_110#16 = some (.jsr .r0 ⟨.deferred, .sp⟩) ∧
    decodeWord 0b0111100_010_011_100#16 = some (.xor .r2 ⟨.autoIncDeferred, .r4⟩) := by decide

/-- Format RSS: each row's word, its fixed bits as the encoding gives them, its fields spelled out. -/
theorem decode_rss :
    decodeWord 0b0111000_011_100_011#16 = some (.mul .r3 ⟨.autoDec, .r3⟩) ∧
    decodeWord 0b0111001_110_111_000#16 = some (.div .sp ⟨.indexDeferred, .r0⟩) ∧
    decodeWord 0b0111010_001_010_101#16 = some (.ash .r1 ⟨.autoInc, .r5⟩) ∧
    decodeWord 0b0111011_101_110_001#16 = some (.ashc .r5 ⟨.index, .r1⟩) := by decide

/-- Format SOB: each row's word, its fixed bits as the encoding gives them, its fields spelled out. -/
theorem decode_sob :
    decodeWord 0b0111111_100_001000#16 = some (.sob .r4 0b001000) := by decide

/-- Format BR: each row's word, its fixed bits as the encoding gives them, its fields spelled out. -/
theorem decode_br :
    decodeWord 0b00000001_11101101#16 = some (.br 0b11101101) ∧
    decodeWord 0b00000010_10010010#16 = some (.bne 0b10010010) ∧
    decodeWord 0b00000011_00110111#16 = some (.beq 0b00110111) ∧
    decodeWord 0b00000100_11011100#16 = some (.bge 0b11011100) ∧
    decodeWord 0b00000101_10000001#16 = some (.blt 0b10000001) ∧
    decodeWord 0b00000110_00100110#16 = some (.bgt 0b00100110) ∧
    decodeWord 0b10000000_11001011#16 = some (.bpl 0b11001011) ∧
    decodeWord 0b10000010_01110000#16 = some (.bhi 0b01110000) ∧
    decodeWord 0b10000011_00010101#16 = some (.blos 0b00010101) ∧
    decodeWord 0b10000110_10111010#16 = some (.bcc 0b10111010) ∧
    decodeWord 0b10000111_01011111#16 = some (.bcs 0b01011111) ∧
    decodeWord 0b00000111_11101110#16 = some (.ble 0b11101110) ∧
    decodeWord 0b10000001_10010011#16 = some (.bmi 0b10010011) ∧
    decodeWord 0b10000100_00111000#16 = some (.bvc 0b00111000) ∧
    decodeWord 0b10000101_11011101#16 = some (.bvs 0b11011101) := by decide

/-- Format SOP: each row's word, its fixed bits as the encoding gives them, its fields spelled out. -/
theorem decode_sop_1 :
    decodeWord 0b0000000001_001_110#16 = some (.jmp ⟨.deferred, .sp⟩) ∧
    decodeWord 0b0000000011_100_011#16 = some (.swab ⟨.autoDec, .r3⟩) ∧
    decodeWord 0b0000101000_111_000#16 = some (.clr ⟨.indexDeferred, .r0⟩) ∧
    decodeWord 0b0000101010_010_101#16 = some (.inc ⟨.autoInc, .r5⟩) ∧
    decodeWord 0b0000101111_101_010#16 = some (.tst ⟨.autoDecDeferred, .r2⟩) ∧
    decodeWord 0b0000110011_000_111#16 = some (.asl ⟨.register, .pc⟩) ∧
    decodeWord 0b0000110110_110_001#16 = some (.mtpi ⟨.index, .r1⟩) ∧
    decodeWord 0b0000110111_001_110#16 = some (.sxt ⟨.deferred, .sp⟩) ∧
    decodeWord 0b1000101000_100_011#16 = some (.clrb ⟨.autoDec, .r3⟩) ∧
    decodeWord 0b1000101010_111_000#16 = some (.incb ⟨.indexDeferred, .r0⟩) ∧
    decodeWord 0b1000101111_010_101#16 = some (.tstb ⟨.autoInc, .r5⟩) ∧
    decodeWord 0b0000101001_100_011#16 = some (.com ⟨.autoDec, .r3⟩) ∧
    decodeWord 0b1000101001_111_000#16 = some (.comb ⟨.indexDeferred, .r0⟩) ∧
    decodeWord 0b0000101100_010_101#16 = some (.neg ⟨.autoInc, .r5⟩) ∧
    decodeWord 0b1000101100_101_010#16 = some (.negb ⟨.autoDecDeferred, .r2⟩) ∧
    decodeWord 0b0000101011_000_111#16 = some (.dec ⟨.register, .pc⟩) := by decide

/-- Format SOP: each row's word, its fixed bits as the encoding gives them, its fields spelled out. -/
theorem decode_sop_2 :
    decodeWord 0b1000101011_011_100#16 = some (.decb ⟨.autoIncDeferred, .r4⟩) ∧
    decodeWord 0b0000101101_110_001#16 = some (.adc ⟨.index, .r1⟩) ∧
    decodeWord 0b1000101101_001_110#16 = some (.adcb ⟨.deferred, .sp⟩) ∧
    decodeWord 0b0000101110_100_011#16 = some (.sbc ⟨.autoDec, .r3⟩) ∧
    decodeWord 0b1000101110_111_000#16 = some (.sbcb ⟨.indexDeferred, .r0⟩) ∧
    decodeWord 0b0000110000_010_101#16 = some (.ror ⟨.autoInc, .r5⟩) ∧
    decodeWord 0b1000110000_101_010#16 = some (.rorb ⟨.autoDecDeferred, .r2⟩) ∧
    decodeWord 0b0000110001_000_111#16 = some (.rol ⟨.register, .pc⟩) ∧
    decodeWord 0b1000110001_011_100#16 = some (.rolb ⟨.autoIncDeferred, .r4⟩) ∧
    decodeWord 0b0000110010_110_001#16 = some (.asr ⟨.index, .r1⟩) ∧
    decodeWord 0b1000110010_001_110#16 = some (.asrb ⟨.deferred, .sp⟩) ∧
    decodeWord 0b1000110011_100_011#16 = some (.aslb ⟨.autoDec, .r3⟩) ∧
    decodeWord 0b1000110110_000_111#16 = some (.mtpd ⟨.register, .pc⟩) := by decide

/-- Format SOPS: each row's word, its fixed bits as the encoding gives them, its fields spelled out. -/
theorem decode_sops :
    decodeWord 0b0000110101_011_100#16 = some (.mfpi ⟨.autoIncDeferred, .r4⟩) ∧
    decodeWord 0b1000110101_101_010#16 = some (.mfpd ⟨.autoDecDeferred, .r2⟩) := by decide

/-- Format RTS: each row's word, its fixed bits as the encoding gives them, its fields spelled out. -/
theorem decode_rts :
    decodeWord 0b0000000010000_100#16 = some (.rts .r4) := by decide

/-- Format ZOP: each row's word, its fixed bits as the encoding gives them, its fields spelled out. -/
theorem decode_zop :
    decodeWord 0b0000000000000000#16 = some .halt ∧
    decodeWord 0b0000000000000001#16 = some .wait ∧
    decodeWord 0b0000000000000101#16 = some .reset ∧
    decodeWord 0b0000000000000110#16 = some .rtt ∧
    decodeWord 0b0000000000000011#16 = some .bpt ∧
    decodeWord 0b0000000000000100#16 = some .iot ∧
    decodeWord 0b0000000000000010#16 = some .rti := by decide

/-- Format MARK: each row's word, its fixed bits as the encoding gives them, its fields spelled out. -/
theorem decode_mark :
    decodeWord 0b0000110100_001100#16 = some (.mark 0b001100) := by decide

/-- Format SPL: each row's word, its fixed bits as the encoding gives them, its fields spelled out. -/
theorem decode_spl :
    decodeWord 0b0000000010011_001#16 = some (.spl 0b001) := by decide

/-- Format CC: each row's word, its fixed bits as the encoding gives them, its fields spelled out. -/
theorem decode_cc :
    decodeWord 0b000000001010_0110#16 = some (.ccc 0b0110) ∧
    decodeWord 0b000000001011_1010#16 = some (.scc 0b1010) := by decide

/-- Format TRAPF: each row's word, its fixed bits as the encoding gives them, its fields spelled out. -/
theorem decode_trapf :
    decodeWord 0b10001000_10101010#16 = some (.emt 0b10101010) ∧
    decodeWord 0b10001001_01001111#16 = some (.trap 0b01001111) := by decide

/-! ## The machines of the tests -/

/-- The start state of the vectors: the words at 0o1000, PC there, profile EXT, which has every row (R5). -/
def machine (ws : List Word) : State :=
  let rec place : Nat → List Word → State → State
    | _, [], s => s
    | a, w :: rest, s => place (a + 2) rest (s.withRam (Memory.writeWord s.ram a w))
  place 0o1000 ws ((State.reset.withPc 0o1000).withCfg { Config.atReset with profile := .ext })

/-- A word of RAM set. -/
def word (pa : Nat) (v : Word) (s : State) : State := s.withRam (Memory.writeWord s.ram pa v)
/-- The PSW word loaded. -/
def psw (w : Word) (s : State) : State := s.withPsw ((Psw.unpack w).getD s.psw)
/-- N, Z, V and C set from `nzvc`. -/
def flags (f : BitVec 4) (s : State) : State := s.withFlags (f.getLsbD 3) (f.getLsbD 2) (f.getLsbD 1) (f.getLsbD 0)
/-- Translation on. -/
def mmuOn (s : State) : State := s.withMmu { s.mmu with enabled := true }
/-- Other parameters. -/
def params (f : Config → Config) (s : State) : State := { s with cfg := f s.cfg }
/-- The flags as the number `nzvc`. -/
def nzvc (s : State) : Nat := (s.psw.pack.extractLsb' 0 4).toNat
/-- What `f` picks from the state one step leads to. -/
def after (s : State) (f : State → List Nat) : Option (List Nat) :=
  match step s with
  | .next t => some (f t)
  | .fault _ | .refused _ => none

/-! ## One step of each instruction -/

/-- Vector E2: MOV R0,R1. -/
theorem test_mov_E2 :
    after (machine [0o010001] |> writeReg .r0 0x8000)
      (fun t => [(readReg t .r1).toNat, nzvc t]) = some [0x8000, 0b1000] := by decide

/-- Vector B2: MOVB @#2001,R0. -/
theorem test_movb_B2 :
    after (machine [0o113700, 0o002001] |> word 0o2000 0x8034)
      (fun t => [(readReg t .r0).toNat, nzvc t]) = some [0xFF80, 0b1000] := by decide

/-- Vector E9: CMP R0,R1. -/
theorem test_cmp_E9 :
    after (machine [0o020001] |> writeReg .r0 0x0001 |> writeReg .r1 0x8000)
      (fun t => [t.pcr.toNat, nzvc t]) = some [0o1002, 0b1011] := by decide

/-- Vector E11: CMPB R0,R1. -/
theorem test_cmpb_E11 :
    after (machine [0o120001] |> writeReg .r0 0x0080 |> writeReg .r1 0x0001)
      (fun t => [t.pcr.toNat, nzvc t]) = some [0o1002, 0b0010] := by decide

/-- Vector E14: BIT R0,R1. -/
theorem test_bit_E14 :
    after (machine [0o030001] |> writeReg .r0 0x8001 |> writeReg .r1 0x8000)
      (fun t => [t.pcr.toNat, nzvc t]) = some [0o1002, 0b1000] := by decide

/-- Vector E16: BITB R0,R1. -/
theorem test_bitb_E16 :
    after (machine [0o130001] |> writeReg .r0 0xFF00 |> writeReg .r1 0xFFFF)
      (fun t => [t.pcr.toNat, nzvc t]) = some [0o1002, 0b0100] := by decide

/-- Vector E17: BIC R0,R1. -/
theorem test_bic_E17 :
    after (machine [0o040001] |> flags 0b0001 |> writeReg .r0 0x00FF |> writeReg .r1 0x1234)
      (fun t => [(readReg t .r1).toNat, nzvc t]) = some [0x1200, 0b0001] := by decide

/-- Vector E20: BICB R0,@#2001. -/
theorem test_bicb_E20 :
    after (machine [0o140037, 0o002001] |> writeReg .r0 0x00FF |> word 0o2000 0x1234)
      (fun t => [(Memory.readWord t.ram 0o2000).toNat, nzvc t]) = some [0x0034, 0b0100] := by decide

/-- Vector E21: BIS R0,R1. -/
theorem test_bis_E21 :
    after (machine [0o050001] |> writeReg .r0 0x00FF |> writeReg .r1 0x0F0F)
      (fun t => [(readReg t .r1).toNat, nzvc t]) = some [0x0FF0, 0b0000] := by decide

/-- Vector E27: BISB R0,R1. -/
theorem test_bisb_E27 :
    after (machine [0o150001] |> writeReg .r0 0x0081 |> writeReg .r1 0x1201)
      (fun t => [(readReg t .r1).toNat, nzvc t]) = some [0x1280, 0b1000] := by decide

/-- Vector E31: ADD R0,R1. -/
theorem test_add_E31 :
    after (machine [0o060001] |> writeReg .r0 0x8000 |> writeReg .r1 0x8000)
      (fun t => [(readReg t .r1).toNat, nzvc t]) = some [0x0000, 0b0111] := by decide

/-- Vector E36: SUB R0,R1. -/
theorem test_sub_E36 :
    after (machine [0o160001] |> writeReg .r0 0x8000 |> writeReg .r1 0x0001)
      (fun t => [(readReg t .r1).toNat, nzvc t]) = some [0x8001, 0b1011] := by decide

/-- Vector F7: MUL R2,R1. -/
theorem test_mul_F7 :
    after (machine [0o070102] |> writeReg .r0 0x5555 |> writeReg .r1 0x0100 |> writeReg .r2 0x0100)
      (fun t => [(readReg t .r0).toNat, (readReg t .r1).toNat, nzvc t]) = some [0x0001, 0x0000, 0b0001] := by decide

/-- Vector F17: DIV R2,R0. -/
theorem test_div_F17 :
    after (machine [0o071002] |> writeReg .r0 0x0000 |> writeReg .r1 0x0007 |> writeReg .r2 0xFFFE)
      (fun t => [(readReg t .r0).toNat, (readReg t .r1).toNat, nzvc t]) = some [0xFFFD, 0x0001, 0b1000] := by decide

/-- Vector F24: ASH #16.,R0. -/
theorem test_ash_F24 :
    after (machine [0o072027, 0o000020] |> writeReg .r0 0x0001)
      (fun t => [(readReg t .r0).toNat, nzvc t]) = some [0x0000, 0b0101] := by decide

/-- Vector W34: SOB R1,.-4. -/
theorem test_sob_W34 :
    after (machine [0o077103] |> flags 0b1111 |> writeReg .r1 0o3)
      (fun t => [(readReg t .r1).toNat, t.pcr.toNat, nzvc t]) = some [0o2, 0o774, 0b1111] := by decide

/-- Vector W27: BR .-254.. -/
theorem test_br_W27 :
    after (machine [0o000600])
      (fun t => [t.pcr.toNat, nzvc t]) = some [0o402, 0b0000] := by decide

/-- Vector W2: BNE .+6. -/
theorem test_bne_W2 :
    after (machine [0o001002])
      (fun t => [t.pcr.toNat, nzvc t]) = some [0o1006, 0b0000] := by decide

/-- Vector W4: BEQ .+6. -/
theorem test_beq_W4 :
    after (machine [0o001402] |> flags 0b0100)
      (fun t => [t.pcr.toNat, nzvc t]) = some [0o1006, 0b0100] := by decide

/-- Vector W7: BGE .+6. -/
theorem test_bge_W7 :
    after (machine [0o002002] |> flags 0b1000)
      (fun t => [t.pcr.toNat, nzvc t]) = some [0o1002, 0b1000] := by decide

/-- Vector W8: BLT .+6. -/
theorem test_blt_W8 :
    after (machine [0o002402] |> flags 0b0010)
      (fun t => [t.pcr.toNat, nzvc t]) = some [0o1006, 0b0010] := by decide

/-- Vector W11: BGT .+6. -/
theorem test_bgt_W11 :
    after (machine [0o003002] |> flags 0b0100)
      (fun t => [t.pcr.toNat, nzvc t]) = some [0o1002, 0b0100] := by decide

/-- Vector W14: BPL .+6. -/
theorem test_bpl_W14 :
    after (machine [0o100002] |> flags 0b1000)
      (fun t => [t.pcr.toNat, nzvc t]) = some [0o1002, 0b1000] := by decide

/-- Vector W16: BHI .+6. -/
theorem test_bhi_W16 :
    after (machine [0o101002] |> flags 0b0001)
      (fun t => [t.pcr.toNat, nzvc t]) = some [0o1002, 0b0001] := by decide

/-- Vector W19: BLOS .+6. -/
theorem test_blos_W19 :
    after (machine [0o101402] |> flags 0b0001)
      (fun t => [t.pcr.toNat, nzvc t]) = some [0o1006, 0b0001] := by decide

/-- Vector W22: BCC .+6. -/
theorem test_bcc_W22 :
    after (machine [0o103002] |> flags 0b0001)
      (fun t => [t.pcr.toNat, nzvc t]) = some [0o1002, 0b0001] := by decide

/-- Vector W23: BCS .+6. -/
theorem test_bcs_W23 :
    after (machine [0o103402] |> flags 0b0001)
      (fun t => [t.pcr.toNat, nzvc t]) = some [0o1006, 0b0001] := by decide

/-- Vector H3: JMP @4(R1). -/
theorem test_jmp_H3 :
    after (machine [0o000171, 0o000004] |> writeReg .r1 0o2000 |> writeReg .sp 0o700 |> word 0o2004 0o3000)
      (fun t => [t.pcr.toNat, nzvc t]) = some [0o3000, 0b0000] := by decide

/-- Vector H13: JSR SP,(R1). -/
theorem test_jsr_H13 :
    after (machine [0o004611] |> writeReg .r1 0o2000 |> writeReg .sp 0o700)
      (fun t => [t.spk.toNat, (Memory.readWord t.ram 0o676).toNat, t.pcr.toNat, nzvc t]) = some [0o1002, 0o700, 0o2000, 0b0000] := by decide

/-- Vector H18: RTS SP. -/
theorem test_rts_H18 :
    after (machine [0o000206] |> writeReg .sp 0o700 |> word 0o700 0o4444)
      (fun t => [t.spk.toNat, t.pcr.toNat, nzvc t]) = some [0o4444, 0o700, 0b0000] := by decide

/-- Vector I1: CLR R1. -/
theorem test_clr_I1 :
    after (machine [0o005001] |> flags 0b1011 |> writeReg .r1 0x1234)
      (fun t => [(readReg t .r1).toNat, nzvc t]) = some [0x0000, 0b0100] := by decide

/-- Vector I4: CLRB @#2001. -/
theorem test_clrb_I4 :
    after (machine [0o105037, 0o002001] |> word 0o2000 0x1234)
      (fun t => [(Memory.readWord t.ram 0o2000).toNat, nzvc t]) = some [0x0034, 0b0100] := by decide

/-- Vector I5: INC R1. -/
theorem test_inc_I5 :
    after (machine [0o005201] |> writeReg .r1 0x7FFF)
      (fun t => [(readReg t .r1).toNat, nzvc t]) = some [0x8000, 0b1010] := by decide

/-- Vector I7: INCB R1. -/
theorem test_incb_I7 :
    after (machine [0o105201] |> writeReg .r1 0x12FF)
      (fun t => [(readReg t .r1).toNat, nzvc t]) = some [0x1200, 0b0100] := by decide

/-- Vector I9: TST R1. -/
theorem test_tst_I9 :
    after (machine [0o005701] |> flags 0b0011 |> writeReg .r1 0x8000)
      (fun t => [t.pcr.toNat, nzvc t]) = some [0o1002, 0b1000] := by decide

/-- Vector I13: TSTB R1. -/
theorem test_tstb_I13 :
    after (machine [0o105701] |> writeReg .r1 0x0080)
      (fun t => [t.pcr.toNat, nzvc t]) = some [0o1002, 0b1000] := by decide

/-- Vector I15: SWAB R1. -/
theorem test_swab_I15 :
    after (machine [0o000301] |> flags 0b0011 |> writeReg .r1 0x0012)
      (fun t => [(readReg t .r1).toNat, nzvc t]) = some [0x1200, 0b0100] := by decide

/-- Vector I17: SXT R1. -/
theorem test_sxt_I17 :
    after (machine [0o006701] |> flags 0b1000 |> writeReg .r1 0x1234)
      (fun t => [(readReg t .r1).toNat, nzvc t]) = some [0xFFFF, 0b1000] := by decide

/-- Vector I21: ASL R1. -/
theorem test_asl_I21 :
    after (machine [0o006301] |> writeReg .r1 0x8000)
      (fun t => [(readReg t .r1).toNat, nzvc t]) = some [0x0000, 0b0111] := by decide

/-- Vector K2: HALT. -/
theorem test_halt_K2 :
    after (machine [0o000000] |> psw 0o170000 |> State.withSpu 0o500)
      (fun t => [(if t.run = .halted then 1 else 0), nzvc t]) = some [1, 0b0000] := by decide

/-- Vector K3: WAIT. -/
theorem test_wait_K3 :
    after (machine [0o000001])
      (fun t => [(if t.run = .waiting then 1 else 0), nzvc t]) = some [1, 0b0000] := by decide

/-- Vector K7: RESET. -/
theorem test_reset_K7 :
    after (machine [0o000005] |> mmuOn |> params (fun c => { c with resetClearsMmu := true }))
      (fun t => [t.mmu.enabled.toNat, nzvc t]) = some [0, 0b0000] := by decide

/-- Vector K8: RTT. -/
theorem test_rtt_K8 :
    after (machine [0o000006] |> writeReg .sp 0o674 |> word 0o674 0o2000 |> word 0o676 0o170000)
      (fun t => [t.spk.toNat, t.psw.cm.toBits.toNat, t.pcr.toNat, nzvc t]) = some [0o700, 3, 0o2000, 0b0000] := by decide

/-- Vector K13: MFPI SP. -/
theorem test_mfpi_K13 :
    after (machine [0o006506] |> psw 0o030000 |> writeReg .sp 0o700 |> State.withSpu 0o4000)
      (fun t => [t.spk.toNat, (Memory.readWord t.ram 0o676).toNat, nzvc t]) = some [0o676, 0o4000, 0b0000] := by decide

/-- Vector K20: MTPI (SP)+. -/
theorem test_mtpi_K20 :
    after (machine [0o006626] |> psw 0o000000 |> writeReg .sp 0o674 |> word 0o674 0o1111 |> word 0o676 0o2222)
      (fun t => [t.spk.toNat, (Memory.readWord t.ram 0o676).toNat, nzvc t]) = some [0o700, 0o1111, 0b0000] := by decide

/-- Vector Y1: COM R1. -/
theorem test_com_Y1 :
    after (machine [0o005101] |> writeReg .r1 0x00FF)
      (fun t => [(readReg t .r1).toNat, nzvc t]) = some [0xFF00, 0b1001] := by decide

/-- Vector Y2: COMB R1. -/
theorem test_comb_Y2 :
    after (machine [0o105101] |> writeReg .r1 0x12F0)
      (fun t => [(readReg t .r1).toNat, nzvc t]) = some [0x120F, 0b0001] := by decide

/-- Vector Y4: NEG R1. -/
theorem test_neg_Y4 :
    after (machine [0o005401] |> writeReg .r1 0x8000)
      (fun t => [t.pcr.toNat, nzvc t]) = some [0o1002, 0b1011] := by decide

/-- Vector Y6: NEGB R1. -/
theorem test_negb_Y6 :
    after (machine [0o105401] |> writeReg .r1 0x0080)
      (fun t => [t.pcr.toNat, nzvc t]) = some [0o1002, 0b1011] := by decide

/-- Vector Y7: DEC R1. -/
theorem test_dec_Y7 :
    after (machine [0o005301] |> flags 0b0001 |> writeReg .r1 0x8000)
      (fun t => [(readReg t .r1).toNat, nzvc t]) = some [0x7FFF, 0b0011] := by decide

/-- Vector Y9: DECB R1. -/
theorem test_decb_Y9 :
    after (machine [0o105301] |> writeReg .r1 0x1200)
      (fun t => [(readReg t .r1).toNat, nzvc t]) = some [0x12FF, 0b1000] := by decide

/-- Vector Y11: ADC R1. -/
theorem test_adc_Y11 :
    after (machine [0o005501] |> flags 0b0001 |> writeReg .r1 0x7FFF)
      (fun t => [(readReg t .r1).toNat, nzvc t]) = some [0x8000, 0b1010] := by decide

/-- Vector Y13: ADCB R1. -/
theorem test_adcb_Y13 :
    after (machine [0o105501] |> flags 0b0001 |> writeReg .r1 0x007F)
      (fun t => [(readReg t .r1).toNat, nzvc t]) = some [0x0080, 0b1010] := by decide

/-- Vector Y15: SBC R1. -/
theorem test_sbc_Y15 :
    after (machine [0o005601] |> flags 0b0001 |> writeReg .r1 0x8000)
      (fun t => [(readReg t .r1).toNat, nzvc t]) = some [0x7FFF, 0b0010] := by decide

/-- Vector Y16: SBCB R1. -/
theorem test_sbcb_Y16 :
    after (machine [0o105601] |> flags 0b0001 |> writeReg .r1 0x0080)
      (fun t => [(readReg t .r1).toNat, nzvc t]) = some [0x007F, 0b0010] := by decide

/-- Vector Y18: ROR R1. -/
theorem test_ror_Y18 :
    after (machine [0o006001] |> flags 0b0001 |> writeReg .r1 0x0000)
      (fun t => [(readReg t .r1).toNat, nzvc t]) = some [0x8000, 0b1010] := by decide

/-- Vector Y19: RORB R1. -/
theorem test_rorb_Y19 :
    after (machine [0o106001] |> flags 0b0001 |> writeReg .r1 0x0101)
      (fun t => [(readReg t .r1).toNat, nzvc t]) = some [0x0180, 0b1001] := by decide

/-- Vector Y20: ROL R1. -/
theorem test_rol_Y20 :
    after (machine [0o006101] |> writeReg .r1 0x8000)
      (fun t => [(readReg t .r1).toNat, nzvc t]) = some [0x0000, 0b0111] := by decide

/-- Vector Y21: ROLB R1. -/
theorem test_rolb_Y21 :
    after (machine [0o106101] |> flags 0b0001 |> writeReg .r1 0x0080)
      (fun t => [(readReg t .r1).toNat, nzvc t]) = some [0x0001, 0b0011] := by decide

/-- Vector Y22: ASR R1. -/
theorem test_asr_Y22 :
    after (machine [0o006201] |> writeReg .r1 0x8001)
      (fun t => [(readReg t .r1).toNat, nzvc t]) = some [0xC000, 0b1001] := by decide

/-- Vector Y24: ASRB R1. -/
theorem test_asrb_Y24 :
    after (machine [0o106201] |> writeReg .r1 0x0081)
      (fun t => [(readReg t .r1).toNat, nzvc t]) = some [0x00C0, 0b1001] := by decide

/-- Vector Y26: ASLB R1. -/
theorem test_aslb_Y26 :
    after (machine [0o106301] |> writeReg .r1 0x12C0)
      (fun t => [(readReg t .r1).toNat, nzvc t]) = some [0x1280, 0b1001] := by decide

/-- Vector Y27: XOR R0,R1. -/
theorem test_xor_Y27 :
    after (machine [0o074001] |> flags 0b0001 |> writeReg .r0 0x00FF |> writeReg .r1 0x0F0F)
      (fun t => [(readReg t .r1).toNat, nzvc t]) = some [0x0FF0, 0b0001] := by decide

/-- Vector Y30: ASHC #-1,R0. -/
theorem test_ashc_Y30 :
    after (machine [0o073027, 0o000077] |> writeReg .r0 0x8000 |> writeReg .r1 0x0001)
      (fun t => [(readReg t .r0).toNat, (readReg t .r1).toNat, nzvc t]) = some [0xC000, 0x0000, 0b1001] := by decide

/-- Vector Y34: MARK 2. -/
theorem test_mark_Y34 :
    after (machine [0o006402] |> writeReg .r5 0o3000 |> word 0o1006 0o4444)
      (fun t => [(readReg t .r5).toNat, t.spk.toNat, t.pcr.toNat, nzvc t]) = some [0o4444, 0o1010, 0o3000, 0b0000] := by decide

/-- Vector Y36: SPL 7. -/
theorem test_spl_Y36 :
    after (machine [0o000237] |> psw 0o170000 |> State.withSpu 0o500)
      (fun t => [t.pcr.toNat, nzvc t]) = some [0o1002, 0b0000] := by decide

/-- Vector Y37: CLC. -/
theorem test_ccc_Y37 :
    after (machine [0o000241] |> flags 0b1111)
      (fun t => [t.pcr.toNat, nzvc t]) = some [0o1002, 0b1110] := by decide

/-- Vector Y41: SCC. -/
theorem test_scc_Y41 :
    after (machine [0o000277])
      (fun t => [t.pcr.toNat, nzvc t]) = some [0o1002, 0b1111] := by decide

/-- Vector Y43: BLE .+4. -/
theorem test_ble_Y43 :
    after (machine [0o003401] |> flags 0b1010)
      (fun t => [t.pcr.toNat, nzvc t]) = some [0o1002, 0b1010] := by decide

/-- Vector Y44: BMI .+4. -/
theorem test_bmi_Y44 :
    after (machine [0o100401] |> flags 0b1000)
      (fun t => [t.pcr.toNat, nzvc t]) = some [0o1004, 0b1000] := by decide

/-- Vector Y45: BVC .+4. -/
theorem test_bvc_Y45 :
    after (machine [0o102001] |> flags 0b0010)
      (fun t => [t.pcr.toNat, nzvc t]) = some [0o1002, 0b0010] := by decide

/-- Vector Y46: BVS .+4. -/
theorem test_bvs_Y46 :
    after (machine [0o102401] |> flags 0b0010)
      (fun t => [t.pcr.toNat, nzvc t]) = some [0o1004, 0b0010] := by decide

/-- Vector Y47: MFPD (R1). -/
theorem test_mfpd_Y47 :
    after (machine [0o106511] |> psw 0o030000 |> writeReg .sp 0o700 |> writeReg .r1 0o2000 |> word 0o2000 0o1234)
      (fun t => [t.spk.toNat, (Memory.readWord t.ram 0o676).toNat, nzvc t]) = some [0o676, 0o1234, 0b0000] := by decide

/-- Vector Y48: MTPD SP. -/
theorem test_mtpd_Y48 :
    after (machine [0o106606] |> psw 0o030000 |> writeReg .sp 0o676 |> word 0o676 0o4000)
      (fun t => [t.spk.toNat, t.spu.toNat, nzvc t]) = some [0o700, 0o4000, 0b0000] := by decide

/-- Vector Y49: EMT 5. -/
theorem test_emt_Y49 :
    after (machine [0o104005] |> writeReg .sp 0o700 |> word 0o30 0o3000 |> word 0o32 0o340)
      (fun t => [t.spk.toNat, t.psw.pri.toNat, t.pcr.toNat, nzvc t]) = some [0o674, 7, 0o3000, 0b0000] := by decide

/-- Vector Y50: TRAP 0. -/
theorem test_trap_Y50 :
    after (machine [0o104400] |> psw 0o000011 |> writeReg .sp 0o700 |> word 0o34 0o3100 |> word 0o36 0o0)
      (fun t => [t.spk.toNat, (Memory.readWord t.ram 0o674).toNat, t.pcr.toNat, nzvc t]) = some [0o674, 0o1002, 0o3100, 0b0000] := by decide

/-- Vector Y51: BPT. -/
theorem test_bpt_Y51 :
    after (machine [0o000003] |> writeReg .sp 0o700 |> word 0o14 0o3200 |> word 0o16 0o340)
      (fun t => [t.spk.toNat, t.psw.pri.toNat, t.pcr.toNat, nzvc t]) = some [0o674, 7, 0o3200, 0b0000] := by decide

/-- Vector Y52: IOT. -/
theorem test_iot_Y52 :
    after (machine [0o000004] |> writeReg .sp 0o700 |> word 0o20 0o3300 |> word 0o22 0o340)
      (fun t => [t.spk.toNat, t.psw.pri.toNat, t.pcr.toNat, nzvc t]) = some [0o674, 7, 0o3300, 0b0000] := by decide

/-- Vector Y53: RTI. -/
theorem test_rti_Y53 :
    after (machine [0o000002] |> writeReg .sp 0o674 |> word 0o674 0o2000 |> word 0o676 0o170017)
      (fun t => [t.spk.toNat, t.psw.cm.toBits.toNat, t.pcr.toNat, nzvc t]) = some [0o700, 3, 0o2000, 0b1111] := by decide

/-- Vector F20: DIV R2,R1. -/
theorem test_div_F20 :
    after (machine [0o071102] |> writeReg .r0 0x0000 |> writeReg .r1 0x0064 |> writeReg .r2 0x0007)
      (fun t => [(readReg t .r0).toNat, (readReg t .r1).toNat, nzvc t]) = some [0x000E, 0x0002, 0b0000] := by decide

/-- Vector M9: MOVB -(R2),R3. -/
theorem test_movb_M9 :
    after (machine [0o114203] |> writeReg .r2 0o2002 |> word 0o2000 0o100111)
      (fun t => [(readReg t .r2).toNat, (readReg t .r3).toNat, nzvc t]) = some [0o2001, 0o177600, 0b1000] := by decide

/-- Vector E23: BIS R0,R1. -/
theorem test_bis_E23 :
    after (machine [0o050001] |> writeReg .r0 0x00FF |> writeReg .r1 0x0F0F |> params (fun c => { c with bisMode := .orValueXorFlags }))
      (fun t => [(readReg t .r1).toNat, nzvc t]) = some [0x0FFF, 0b0000] := by decide

/-- Vector X3: MOV (R2)+,R3. -/
theorem test_mov_X3 :
    after (machine [0o012203] |> writeReg .r2 0o100000 |> writeReg .sp 0o700 |> word 0o4 0o3000 |> word 0o6 0o340)
      (fun t => [(readReg t .r2).toNat, t.spk.toNat, nzvc t]) = some [0o100002, 0o674, 0b0000] := by decide

/-- Vector X4: ADD R0,@#100000. -/
theorem test_add_X4 :
    after (machine [0o060037, 0o100000] |> flags 0b1000 |> writeReg .r0 0o1 |> writeReg .sp 0o700 |> word 0o4 0o3000 |> word 0o6 0o340)
      (fun t => [t.spk.toNat, t.psw.pri.toNat, nzvc t]) = some [0o674, 7, 0b0000] := by decide

/-- Vector B15: MOV #17,@#177776. -/
theorem test_mov_B15 :
    after (machine [0o012737, 0o000017, 0o177776] |> params (fun c => { c with pswMapped := true }))
      (fun t => [t.pcr.toNat, nzvc t]) = some [0o1006, 0b1111] := by decide

/-- Vector Y31: ASHC #1,R1. -/
theorem test_ashc_Y31 :
    after (machine [0o073127, 0o000001] |> writeReg .r1 0x4000)
      (fun t => [(readReg t .r1).toNat, nzvc t]) = some [0x8000, 0b1010] := by decide

/-- The first step after reset, with nothing placed, fetches the 0 at address 0: HALT. -/
theorem test_reset_halts : after State.reset (fun t => [if t.run = .halted then 1 else 0, t.pcr.toNat]) = some [1, 2] := by
  decide

/-- A placed instruction is the one the next step runs, as after reset and in user mode with a pending offer. -/
theorem test_withFetchWord :
    after (State.reset.withFetchWord 16 0o005201) (fun t => [t.bank0.r1.toNat]) = some [1] ∧
    after (((machine [] |> psw 0o140020).withOffers [some ⟨7, 0o4⟩]).withFetchWord 16 0o005201)
      (fun t => [t.bank0.r1.toNat, t.pcr.toNat]) = some [1, 0o1002] := by decide

/-- A word that only profile EXT has is placed under that profile, another under the profile in force (R5): COM R1 and
INC R1 from reset. -/
theorem test_withFetchWord_profile :
    after (State.reset.withFetchWord 16 0o005101)
      (fun t => [t.bank0.r1.toNat, if t.cfg.profile = .ext then 1 else 0]) = some [0xFFFF, 1] ∧
    after (State.reset.withFetchWord 16 0o005201)
      (fun t => [t.bank0.r1.toNat, if t.cfg.profile = .doc then 1 else 0]) = some [1, 1] := by decide

/-- After reset, under DOC, the same word is unknown: its annotation is the word and the PC at fetch (R5, R123). -/
theorem test_com_unknown_after_reset :
    step (State.reset.withRam (Memory.writeWord [] 0 0o005101)) = .fault (.unknownInstruction ⟨some 0o005101, 0⟩) := by
  rfl

/-- A host access outside the index map carries `currentPc` and no word (R402, log 19). -/
theorem test_invalidRegisterIndex :
    writeRegister 16 1 (machine [] |> State.withCurrentPc 0o776) = .fault (.invalidRegisterIndex 16 ⟨none, 0o776⟩) := by
  rfl

/-! ## A state that meets the hypotheses of each statement -/

/-- The state the witnesses start from: data in RAM, a stack at 0o700, a vector for each trap, R2 at an address no unit
claims, R3 in the I/O page. -/
def base : State :=
  machine [0o010001, 0o000004] |> writeReg .r0 5 |> writeReg .r1 0o2000 |> writeReg .r2 0o100000 |>
    writeReg .r3 0o177776 |> writeReg .r4 1 |> writeReg .sp 0o700 |> word 0o2000 0o2004 |> word 0o2004 0x1234 |>
    word 0o700 0o4000 |> word 0o702 0o000017 |> word 0o4 0o3000 |> word 0o6 0o340 |> word 0o14 0o3100 |>
    word 0o20 0o3200 |> word 0o22 0o140000 |> word 0o30 0o3300 |> word 0o34 0o3400

/-- The base with the PSW on the bus. -/
def mapped : State := base |> params (fun c => { c with pswMapped := true })

/-- The base with one device, at the first word of the I/O page. -/
def withDevice : State := base |> params (fun c => { c with deviceClaims := [0o760000] })

def user : State := base |> psw 0o174000 |> State.withSpu 0o500
def supervisor : State := base |> psw 0o054000

theorem at_ (s : State) (m : Option Space) (sp : Space) (va : Word) (pa : Nat) (hm : m = some sp)
    (ho : isOdd va = false) (ht : pa = s.translate sp va) (hp : pa < s.cfg.ramSize) : ramWordAt s m va pa :=
  ⟨ho, sp, hm, ht, hp⟩

/-- The word at an even address below 0o100000 of a state like `base`. -/
theorem baseAt (va : Word) (h : isOdd va = false ∧ va.toNat < 0o100000) : ramWordAt base base.curSpace va va.toNat := by
  refine at_ base _ (.paged .kernel) va _ rfl h.1 ?_ h.2
  have : base.translate (.paged .kernel) va = if va.toNat < 0o160000 then va.toNat else va.toNat ||| 0o600000 := rfl
  rw [this, if_pos (by omega)]

theorem witness_DecodeOfEncode :
    (Instr.mov ⟨.index, .pc⟩ ⟨.autoDecDeferred, .r5⟩).inProfile .doc = true ∧ Instr.rti.inProfile .ext = true := by
  decide

theorem witness_EncodeOfDecode :
    decode .doc 0 = .ok .halt ∧ decode .doc 0o167777 = .ok (.sub ⟨.indexDeferred, .pc⟩ ⟨.indexDeferred, .pc⟩) := by
  decide

theorem witness_UnknownWords :
    decode .doc 0o007777 = .error (.unknownInstruction 0o007777) ∧ (∃ i, decode .doc 0o010000 = .ok i) ∧
    decode .ext 0o177777 = .error (.unknownInstruction 0o177777) :=
  ⟨by decide, ⟨_, rfl⟩, by decide⟩

theorem witness_LogicalRegistersFollowThePsw :
    (base.psw.rs = false ∧ base.psw.cm = .kernel) ∧ (supervisor.psw.rs = true ∧ supervisor.psw.cm = .supervisor) ∧
    user.psw.cm = .user := by decide

theorem witness_RegisterWriteTouchesOneSlot : Reg.pc ≠ .sp ∧ Reg.r0 ≠ .r5 := by decide

theorem witness_BankIsolation :
    (∃ t, loadPsw 0o174000 base = .ok () t) ∧ user.psw.cm ≠ base.psw.cm ∧ user.psw.rs ≠ base.psw.rs ∧ Reg.sp ≠ .pc :=
  ⟨⟨_, rfl⟩, by decide, by decide, by decide⟩

theorem witness_PswPacking :
    (∃ p, Psw.unpack 0o177777 = some p) ∧ Psw.unpack 0o100000 = none ∧ Psw.unpack 0o137777 = none ∧
    (∃ p, Psw.unpack 0o140000 = some p) :=
  ⟨⟨_, rfl⟩, by decide, by decide, ⟨_, rfl⟩⟩

theorem witness_HostRegisterAccess : 15 ≤ 15 ∧ 15 < 16 := by decide

theorem witness_TranslationWithTheMmuOff :
    base.mmu.enabled = false ∧ (0o157777 : Word).toNat < 0o160000 ∧ 0o160000 ≤ (0o160000 : Word).toNat ∧
    0o160000 ≤ (0o177777 : Word).toNat := by decide

theorem witness_TranslationWithTheMmuOn :
    (mmuOn base).mmu.enabled = true ∧ base.psw.cm = .kernel ∧ user.psw.cm = .user ∧ supervisor.psw.cm = .supervisor := by
  decide

theorem witness_StatusRegistersAndDescriptors :
    base.cfg.ramSize ≤ Config.ioBase ∧ (params (fun c => { c with ramSize := 0o760000 }) base).cfg.ramSize ≤ Config.ioBase ∧
    (PageSet.kernel, (0 : BitVec 3)) ≠ (PageSet.user, (7 : BitVec 3)) := by decide

theorem witness_PageAddressesAndEnable :
    base.cfg.ramSize ≤ Config.ioBase ∧ (mmuOn base).cfg.ramSize ≤ Config.ioBase ∧ (mmuOn base).mmu.enabled = true ∧
    (0o177777 : Word).extractLsb' 13 3 = 7#3 ∧ (PageSet.kernel, 0#3) ≠ (PageSet.kernel, 7#3) := by decide

theorem witness_RamWordRoundTrip :
    Memory.wf base.ram = true ∧ 0o77776 < base.cfg.ramSize ∧ ¬0o100000 < base.cfg.ramSize := by decide

theorem witness_ByteStoreReplacesOneByte :
    Memory.wf base.ram = true ∧ base.cfg.ramSize % 2 = 0 ∧
    base.translate (.paged .kernel) 0o77777 < base.cfg.ramSize ∧ base.translate .direct 0 < base.cfg.ramSize := by decide

theorem witness_StopsAndDeviceAccesses :
    isOdd 0o1001 = true ∧ isOdd 0o1000 = false ∧
    (unclaimed base 0o100000 ∧ 0o100000 < 0o760000) ∧ (unclaimed base 0o757776 ∧ 0o757776 < 0o760000) ∧
    (unclaimed base 0o760000 ∧ 0o760000 ≤ 0o760000) ∧ (unclaimed base 0o777776 ∧ 0o760000 ≤ 0o777776) ∧
    (0o760000 ∈ withDevice.cfg.deviceClaims ∧ withDevice.cfg.ramSize ≤ 0o760000 ∧ mmuRegAt 0o760000 = none ∧
      ¬(withDevice.cfg.pswMapped = true ∧ 0o760000 = pswAddress)) := by
  unfold unclaimed; decide

theorem witness_MappedPsw :
    (mapped.cfg.ramSize ≤ Config.ioBase ∧ 0o777776 ∉ mapped.cfg.deviceClaims ∧ mapped.cfg.pswMapped = true) ∧
    (base.cfg.ramSize ≤ Config.ioBase ∧ 0o777776 ∉ base.cfg.deviceClaims ∧ base.cfg.pswMapped = false) ∧
    (∃ p, Psw.unpack 0o17 = some p) ∧ Psw.unpack 0o100000 = none :=
  ⟨by decide, by decide, ⟨_, rfl⟩, by decide⟩

theorem witness_RegisterModes : (Size.byte = .byte ∧ Reg.r5 ≠ .sp ∧ Reg.r5 ≠ .pc) ∧ ¬(Reg.sp ≠ .sp) := by decide

theorem witness_PointerAndIndexModes :
    ramWordAt base base.curSpace (readReg base .r1) 0o2000 ∧
    ramWordAt base base.curSpace (readReg base .r1 - 2) 0o1776 ∧
    ramWordAt base base.curSpace base.pcr 0o1000 ∧
    ramWordAt (base.withPc 0o1002) (base.withPc 0o1002).curSpace
      (readReg ((base.withPc 0o1002).withPc 0o1004) .r1 + Memory.readWord base.ram 0o1002) 0o2004 :=
  ⟨baseAt 0o2000 (by decide), baseAt 0o1776 (by decide), baseAt 0o1000 (by decide),
    at_ _ _ (.paged .kernel) _ _ rfl (by decide) (by decide) (by decide)⟩

theorem witness_PushThenPop :
    Memory.wf base.ram = true ∧ ramWordAt base base.curSpace (readReg base .sp - 2) 0o676 :=
  ⟨by decide, baseAt 0o676 (by decide)⟩

/-- R2 leads to an address that no unit claims: a source, a resolution, a load and a store that abort, words and bytes;
R3 leads to one in the I/O page, where they are fatal whatever is stored. -/
theorem witness_OperandAccessEndsTheInstruction :
    (storesTo (.mov ⟨.deferred, .r2⟩ ⟨.register, .r0⟩) = some (some ⟨.deferred, .r2⟩, ⟨.register, .r0⟩, .word) ∧
      (∃ u, sourceWord ⟨.deferred, .r2⟩ base = .abort u) ∧ ∃ u, sourceByte ⟨.deferred, .r2⟩ base = .abort u) ∧
    (storesTo (.add ⟨.register, .r0⟩ ⟨.autoIncDeferred, .r2⟩) =
        some (some ⟨.register, .r0⟩, ⟨.autoIncDeferred, .r2⟩, .word) ∧
      sourceRead (some ⟨.register, .r0⟩) .word base base ∧ ∃ u, resolve ⟨.autoIncDeferred, .r2⟩ .word base = .abort u) ∧
    (resolve ⟨.deferred, .r2⟩ .word base = .ok (.mem 0o100000) base ∧
      (writesOnly (.clr ⟨.deferred, .r2⟩) ∧ ∃ u, storeWord (.mem 0o100000) 0 base = .abort u) ∧
      ¬writesOnly (.inc ⟨.deferred, .r2⟩) ∧ ∃ u, loadWord (.mem 0o100000) base = .abort u) ∧
    (resolve ⟨.deferred, .r3⟩ .byte base = .ok (.mem 0o177776) base ∧
      (∃ f, ∀ x, storeByte (.mem 0o177776) x base = .fatal f) ∧ ∃ f, loadByte (.mem 0o177776) base = .fatal f) ∧
    (loaded (.mem 0o2000) .word base base ∧ loaded (.mem 0o2001) .byte base base ∧
      loaded (.mem 0o177776) .word mapped mapped) ∧
    (∃ f, sourceWord ⟨.autoDec, .r4⟩ (base.withPc 0o1002 |> writeReg .r4 3) = .fatal f) :=
  ⟨⟨rfl, ⟨_, rfl⟩, _, rfl⟩, ⟨rfl, ⟨_, rfl⟩, _, rfl⟩,
    ⟨rfl, ⟨.inr ⟨_, .inl rfl⟩, _, rfl⟩, by simp [writesOnly], _, rfl⟩, ⟨rfl, ⟨_, fun _ => rfl⟩, _, rfl⟩,
    ⟨⟨_, rfl⟩, ⟨_, rfl⟩, _, rfl⟩, ⟨_, rfl⟩⟩

theorem witness_AbortedOperandKeepsTheRest :
    (∃ u, resolve ⟨.autoIncDeferred, .r2⟩ .byte base = .abort u) ∧ (∃ u, sourceWord ⟨.autoInc, .r2⟩ base = .abort u) ∧
    (∃ u, sourceByte ⟨.autoInc, .r2⟩ base = .abort u) := ⟨⟨_, rfl⟩, ⟨_, rfl⟩, ⟨_, rfl⟩⟩

theorem witness_MovMovesTheWord :
    (∃ x t, sourceWord ⟨.autoInc, .r1⟩ base = .ok x t ∧ ∃ l u, resolve ⟨.autoDec, .sp⟩ .word t = .ok l u ∧
      ∃ w v, storeWord l x u = .ok w v) ∧
    (∃ u, sourceWord ⟨.deferred, .r2⟩ base = .abort u) ∧ (∃ f, sourceWord ⟨.deferred, .r3⟩ base = .fatal f) :=
  ⟨⟨_, _, rfl, _, _, rfl, _, _, rfl⟩, ⟨_, rfl⟩, ⟨_, rfl⟩⟩

theorem witness_CompareSetsTheFlags :
    (∃ x t, sourceWord ⟨.register, .r0⟩ base = .ok x t ∧ ∃ d u, sourceWord ⟨.autoInc, .r1⟩ t = .ok d u) ∧
    (∃ x t, sourceByte ⟨.register, .r0⟩ base = .ok x t ∧ ∃ d u, sourceByte ⟨.autoInc, .r1⟩ t = .ok d u) ∧
    (∃ u, sourceWord ⟨.deferred, .r2⟩ base = .abort u) ∧ (∃ u, sourceByte ⟨.deferred, .r2⟩ base = .abort u) :=
  ⟨⟨_, _, rfl, _, _, rfl⟩, ⟨_, _, rfl, _, _, rfl⟩, ⟨_, rfl⟩, ⟨_, rfl⟩⟩

theorem witness_BitTestSetsTheFlags :
    (∃ x t, sourceWord ⟨.deferred, .r1⟩ base = .ok x t ∧ ∃ d u, sourceWord ⟨.register, .r0⟩ t = .ok d u) ∧
    (∃ x t, sourceByte ⟨.deferred, .r1⟩ base = .ok x t ∧ ∃ d u, sourceByte ⟨.register, .r0⟩ t = .ok d u) ∧
    (∃ x t, sourceWord ⟨.register, .r0⟩ base = .ok x t ∧ ∃ u, sourceWord ⟨.deferred, .r2⟩ t = .abort u) :=
  ⟨⟨_, _, rfl, _, _, rfl⟩, ⟨_, _, rfl, _, _, rfl⟩, ⟨_, _, rfl, _, rfl⟩⟩

theorem witness_AddAndSubtract :
    (∃ x t, sourceWord ⟨.register, .r0⟩ base = .ok x t ∧ ∃ l u, resolve ⟨.autoInc, .r1⟩ .word t = .ok l u ∧
      ∃ d w, loadWord l u = .ok d w ∧ (∃ b v, storeWord l (BitVec.ofNat 16 (x.toNat + d.toNat)) w = .ok b v) ∧
        ∃ b v, storeWord l (d - x) w = .ok b v) ∧
    (∃ x t, sourceWord ⟨.register, .r0⟩ base = .ok x t ∧ ∃ l u, resolve ⟨.deferred, .r2⟩ .word t = .ok l u ∧
      ∃ w, loadWord l u = .abort w) :=
  ⟨⟨_, _, rfl, _, _, rfl, _, _, rfl, ⟨_, _, rfl⟩, _, _, rfl⟩, ⟨_, _, rfl, _, _, rfl, _, rfl⟩⟩

/-- What a read-modify-write of `dst` from state `t` needs to reach its result: the accesses answer. -/
def wordReady (dst : Operand) (t : State) (f : Word → Word) : Prop :=
  ∃ l u, resolve dst .word t = .ok l u ∧ ∃ d w, loadWord l u = .ok d w ∧ ∃ b v, storeWord l (f d) w = .ok b v

def byteReady (dst : Operand) (t : State) (f : Byte → Byte) : Prop :=
  ∃ l u, resolve dst .byte t = .ok l u ∧ ∃ d w, loadByte l u = .ok d w ∧ ∃ b v, storeByte l (f d) w = .ok b v

theorem witness_BitwiseInstructions :
    (∃ x t, sourceWord ⟨.register, .r0⟩ base = .ok x t ∧ wordReady ⟨.deferred, .r1⟩ t (~~~x &&& ·) ∧
      wordReady ⟨.deferred, .r1⟩ t (x ^^^ ·)) ∧
    (∃ x t, sourceByte ⟨.register, .r0⟩ base = .ok x t ∧ byteReady ⟨.deferred, .r1⟩ t (~~~x &&& ·) ∧
      byteReady ⟨.deferred, .r1⟩ t (x ^^^ ·)) ∧
    wordReady ⟨.register, .r0⟩ base (readReg base .r1 ^^^ ·) ∧
    ((∃ u, sourceWord ⟨.deferred, .r2⟩ base = .abort u) ∧ ∃ u, sourceByte ⟨.deferred, .r2⟩ base = .abort u) ∧
    base.cfg.bisMode = .xor ∧ (params (fun c => { c with bisMode := .or }) base).cfg.bisMode = .or :=
  ⟨⟨_, _, rfl, ⟨_, _, rfl, _, _, rfl, _, _, rfl⟩, _, _, rfl, _, _, rfl, _, _, rfl⟩,
    ⟨_, _, rfl, ⟨_, _, rfl, _, _, rfl, _, _, rfl⟩, _, _, rfl, _, _, rfl, _, _, rfl⟩,
    ⟨_, _, rfl, _, _, rfl, _, _, rfl⟩, ⟨⟨_, rfl⟩, _, rfl⟩, by decide, by decide⟩

/-- Each access of a read-modify-write that does not answer: the resolution, the load, and the one store that follows a
load (ASL of the mapped PSW in user mode with previous mode 0b01 makes mode 0b10). -/
theorem witness_modifiesWord :
    (∃ u, resolve ⟨.autoIncDeferred, .r2⟩ .word base = .abort u) ∧
    (∃ l u, resolve ⟨.deferred, .r2⟩ .word base = .ok l u ∧ ∃ w, loadWord l u = .abort w) ∧
    (let s := mapped |> psw 0o150000 |> writeReg .r3 0o177776
     ∃ l u, resolve ⟨.deferred, .r3⟩ .word s = .ok l u ∧ ∃ d w, loadWord l u = .ok d w ∧
      ∃ f, storeWord l (d <<< 1) w = .fatal f) :=
  ⟨⟨_, rfl⟩, ⟨_, _, rfl, _, rfl⟩, _, _, rfl, _, _, rfl, _, rfl⟩

theorem witness_MovbExtendsIntoARegister :
    (∃ x t, sourceByte ⟨.deferred, .r1⟩ base = .ok x t) ∧
    (∃ x t, sourceByte ⟨.register, .r0⟩ base = .ok x t ∧ (∃ va u, resolve ⟨.autoInc, .r1⟩ .byte t = .ok (.mem va) u ∧
      ∃ b v, memWriteByte va x u.curSpace u = .ok b v) ∧
      (∃ u, resolve ⟨.autoIncDeferred, .r2⟩ .byte t = .abort u) ∧
      ∃ va u, resolve ⟨.deferred, .r2⟩ .byte t = .ok (.mem va) u ∧ ∃ v, memWriteByte va x u.curSpace u = .abort v) ∧
    (∃ u, sourceByte ⟨.deferred, .r2⟩ base = .abort u) :=
  ⟨⟨_, _, rfl⟩, ⟨_, _, rfl, ⟨_, _, rfl, _, _, rfl⟩, ⟨_, rfl⟩, _, _, rfl, _, rfl⟩, _, rfl⟩

theorem witness_MulGivesTheExactProduct : ∃ x t, sourceWord ⟨.autoInc, .pc⟩ base = .ok x t := ⟨_, _, rfl⟩

/-- Divisors 0, 1 and 5: by zero, an overflow of 0o100000 * 2^16 by 1, and an ordinary quotient. -/
theorem witness_DivByItsThreeCases :
    (∃ t, sourceWord ⟨.register, .r5⟩ base = .ok 0 t) ∧ (∃ t, sourceWord ⟨.register, .r4⟩ base = .ok 1 t) ∧
    (∃ t, sourceWord ⟨.register, .r0⟩ base = .ok 5 t) ∧
    (BitVec.toInt (readReg base (pairHigh .r3) ++ readReg base (pairLow .r3) : BitVec (16 + 16))) = -0x7FFF0002 ∧
    base.cfg.divRounding = .trunc ∧ (params (fun c => { c with divRounding := .floor }) base).cfg.divRounding = .floor :=
  ⟨⟨_, rfl⟩, ⟨_, rfl⟩, ⟨_, rfl⟩, by decide, by decide, by decide⟩

theorem witness_MultipleShifts :
    (∃ x t, sourceWord ⟨.autoInc, .pc⟩ (base |> word 0o1000 31) = .ok x t ∧ x.toNat % 64 < 32) ∧
    (∃ x t, sourceWord ⟨.autoInc, .pc⟩ (base |> word 0o1000 32) = .ok x t ∧ ¬x.toNat % 64 < 32) :=
  ⟨⟨_, _, rfl, by decide⟩, ⟨_, _, rfl, by decide⟩⟩

/-- Each condition holds in one state and fails in another. -/
theorem witness_Branches :
    (base.psw.z = false ∧ base.psw.n = base.psw.v ∧ base.psw.n = false ∧ base.psw.c = false) ∧
    (let s := flags 0b1101 base; s.psw.z = true ∧ s.psw.n ≠ s.psw.v ∧ s.psw.n = true ∧ s.psw.c = true) := by decide

theorem witness_ExtensionBranchesAndSob :
    (let s := flags 0b1010 base; s.psw.v = true ∧ s.psw.n = true ∧ ¬(s.psw.z = true ∨ s.psw.n ≠ s.psw.v)) ∧
    (base.psw.v = false ∧ base.psw.n = false) ∧ (flags 0b0100 base).psw.z = true ∧
    readReg base .r4 = 1 ∧ readReg base .r0 ≠ 1 ∧ readReg base .pc ≠ 1 := by decide

theorem witness_JmpJumps :
    ramWordAt base base.curSpace base.pcr 0o1000 ∧
    ramWordAt (base.withPc 0o1002) (base.withPc 0o1002).curSpace
      (readReg ((base.withPc 0o1002).withPc 0o1004) .r1 + Memory.readWord base.ram 0o1002) 0o2004 ∧
    (∃ ea t, jumpTarget ⟨.deferred, .r1⟩ base = .ok ea t) ∧
    (∃ u, jumpTarget ⟨.index, .r1⟩ (base.withPc 0o100000) = .abort u) ∧
    (AddrMode.autoInc ≠ .deferred ∧ AddrMode.autoInc ≠ .index ∧ AddrMode.autoInc ≠ .indexDeferred) :=
  ⟨baseAt 0o1000 (by decide), at_ _ _ (.paged .kernel) _ _ rfl (by decide) (by decide) (by decide), ⟨_, _, rfl⟩,
    ⟨_, rfl⟩, by decide⟩

theorem witness_JsrAndMark :
    jumpTarget ⟨.deferred, .r1⟩ base = .ok 0o2000 base ∧ ramWordAt base base.curSpace (readReg base .sp - 2) 0o676 ∧
    ramWordAt base base.curSpace (base.pcr + BitVec.ofNat 16 (2 * (63 : BitVec 6).toNat)) 0o1176 ∧
    (∃ u, jumpTarget ⟨.index, .r1⟩ (base.withPc 0o100000) = .abort u) ∧
    (let s := writeReg .sp 0o100002 base
     jumpTarget ⟨.deferred, .r1⟩ s = .ok 0o2000 s ∧ ∃ u, push (readReg s .r5) s = .abort u) ∧
    ∃ u, pop ((writeReg .sp (0o77776 + BitVec.ofNat 16 (2 * (1 : BitVec 6).toNat)) base).withPc (readReg base .r5)) =
      .abort u :=
  ⟨rfl, baseAt 0o676 (by decide), baseAt 0o1176 (by decide), ⟨_, rfl⟩, ⟨rfl, _, rfl⟩, _, rfl⟩

theorem witness_RtsReturns :
    ramWordAt base base.curSpace (readReg base .sp) 0o700 ∧
    (∃ w, pop ((writeReg .sp 0o100000 base).withPc 5) = .abort w) ∧ Reg.r5 ≠ .sp ∧ Reg.r5 ≠ .pc :=
  ⟨baseAt 0o700 (by decide), ⟨_, rfl⟩, by decide, by decide⟩

theorem witness_RtsUndoesJsr :
    Reg.pc ≠ .sp ∧ Memory.wf base.ram = true ∧ ramWordAt base base.curSpace (readReg base .sp - 2) 0o676 :=
  ⟨by decide, by decide, baseAt 0o676 (by decide)⟩

theorem witness_SingleOperandInstructions :
    (∃ l u, resolve ⟨.autoInc, .r1⟩ .word base = .ok l u ∧ ∃ b t, storeWord l 0 u = .ok b t) ∧
    (∃ l u, resolve ⟨.autoInc, .r1⟩ .byte base = .ok l u ∧ ∃ b t, storeByte l 0 u = .ok b t) ∧
    (∃ l u, resolve ⟨.deferred, .r2⟩ .word base = .ok l u ∧ ∃ t, storeWord l 0 u = .abort t) ∧
    wordReady ⟨.deferred, .r1⟩ base (· + 1) ∧ byteReady ⟨.deferred, .r1⟩ base (· + 1) ∧
    (∃ d t, sourceWord ⟨.deferred, .r1⟩ base = .ok d t) ∧ (∃ d t, sourceByte ⟨.deferred, .r1⟩ base = .ok d t) ∧
    (∃ u, sourceWord ⟨.deferred, .r2⟩ base = .abort u) ∧ (∃ u, sourceByte ⟨.deferred, .r2⟩ base = .abort u) :=
  ⟨⟨_, _, rfl, _, _, rfl⟩, ⟨_, _, rfl, _, _, rfl⟩, ⟨_, _, rfl, _, rfl⟩, ⟨_, _, rfl, _, _, rfl, _, _, rfl⟩,
    ⟨_, _, rfl, _, _, rfl, _, _, rfl⟩, ⟨_, _, rfl⟩, ⟨_, _, rfl⟩, ⟨_, rfl⟩, _, rfl⟩

theorem witness_ExtensionArithmetic :
    wordReady ⟨.autoDec, .r1⟩ base (~~~ ·) ∧ byteReady ⟨.autoDec, .r1⟩ base (~~~ ·) :=
  ⟨⟨_, _, rfl, _, _, rfl, _, _, rfl⟩, _, _, rfl, _, _, rfl, _, _, rfl⟩

theorem witness_ExtensionShifts :
    wordReady ⟨.register, .r1⟩ base (· <<< 1) ∧ byteReady ⟨.deferred, .r1⟩ base (· <<< 1) :=
  ⟨⟨_, _, rfl, _, _, rfl, _, _, rfl⟩, _, _, rfl, _, _, rfl, _, _, rfl⟩

theorem witness_ControlInstructions : base.psw.cm = .kernel ∧ user.psw.cm ≠ .kernel := by decide

theorem witness_ReturnFromTrap :
    ramWordAt base base.curSpace (readReg base .sp) 0o700 ∧ ramWordAt base base.curSpace (readReg base .sp + 2) 0o702 ∧
    (∃ p, Psw.unpack (Memory.readWord base.ram 0o702) = some p) ∧
    Psw.unpack (Memory.readWord (word 0o702 0o100000 base).ram 0o702) = none ∧
    (∃ u, pop (writeReg .sp 0o100000 base) = .abort u) ∧
    (∃ x t, pop (writeReg .sp 0o77776 base) = .ok x t ∧ ∃ u, pop (t.withPc x) = .abort u) :=
  ⟨baseAt 0o700 (by decide), baseAt 0o702 (by decide), ⟨_, rfl⟩, by decide, ⟨_, rfl⟩, _, _, rfl, _, rfl⟩

theorem witness_MovesWithThePreviousSpace :
    (∃ l t, resolve ⟨.autoInc, .r1⟩ .word base = .ok l t ∧ ∃ x u, loadPrev l t = .ok x u ∧
      ∃ b v, push x u = .ok b v) ∧
    (∃ x t, pop base = .ok x t ∧ ∃ l u, resolve ⟨.deferred, .r1⟩ .word t = .ok l u ∧
      ∃ b v, storePrev l x u = .ok b v) ∧
    ((∃ l t, resolve ⟨.deferred, .r2⟩ .word base = .ok l t ∧ ∃ u, loadPrev l t = .abort u) ∧
      (∃ x t, pop base = .ok x t ∧ ∃ l u, resolve ⟨.deferred, .r2⟩ .word t = .ok l u ∧ ∃ v, storePrev l x u = .abort v) ∧
      ∃ u, push 0 (writeReg .sp 0o100002 base) = .abort u) ∧
    (base.psw.pm = 0b00#2 ∧ user.psw.pm = 0b11#2 ∧ supervisor.psw.pm = 0b01#2 ∧
      (psw 0o020000 base).psw.pm = 0b10#2) ∧
    ramWordAt user user.prevSpace 0o2000 0o2000 ∧ supervisor.prevSpace = none ∧ Mode.user.toBits = user.psw.pm :=
  ⟨⟨_, _, rfl, _, _, rfl, _, _, rfl⟩, ⟨_, _, rfl, _, _, rfl, _, _, rfl⟩,
    ⟨⟨_, _, rfl, _, rfl⟩, ⟨_, _, rfl, _, _, rfl, _, rfl⟩, _, rfl⟩, by decide,
    at_ _ _ (.paged .user) _ _ rfl (by decide) (by decide) (by decide), by decide, by decide⟩

/-- The four vectors, the last of them into user mode. -/
theorem witness_TrapInstructionsTrap :
    TrapReady base 0o30 0o3300 Psw.zero 0o676 0o674 ∧ TrapReady base 0o34 0o3400 Psw.zero 0o676 0o674 ∧
    TrapReady base 0o14 0o3100 Psw.zero 0o676 0o674 ∧
    TrapReady (base.withSpu 0o500) 0o20 0o3200 { Psw.zero with cm := .user } 0o476 0o474 :=
  ⟨⟨by decide, by decide, by decide, by decide, by decide, baseAt 0o676 (by decide), baseAt 0o674 (by decide)⟩,
   ⟨by decide, by decide, by decide, by decide, by decide, baseAt 0o676 (by decide), baseAt 0o674 (by decide)⟩,
   ⟨by decide, by decide, by decide, by decide, by decide, baseAt 0o676 (by decide), baseAt 0o674 (by decide)⟩,
   ⟨by decide, by decide, by decide, by decide, by decide,
    at_ _ _ (.paged .user) _ _ rfl (by decide) (by decide) (by decide),
    at_ _ _ (.paged .user) _ _ rfl (by decide) (by decide) (by decide)⟩⟩

theorem ready4 : TrapReady base 0o4 0o3000 { Psw.zero with pri := 7 } 0o676 0o674 :=
  ⟨by decide, by decide, by decide, by decide, by decide, baseAt 0o676 (by decide), baseAt 0o674 (by decide)⟩

theorem witness_BusTimeoutTraps :
    TrapReady base 0o4 0o3000 { Psw.zero with pri := 7 } 0o676 0o674 ∧
    (∃ u, trapSequence 0o4 (writeReg .sp 0o100002 base) = .abort u) ∧
    (base.curSpace = some (.paged .kernel) ∧ isOdd 0o100000 = false ∧
      unclaimed base (base.translate (.paged .kernel) 0o100000) ∧
      base.translate (.paged .kernel) 0o100000 < 0o760000) ∧
    resolve ⟨.deferred, .r2⟩ .word base = .ok (.mem 0o100000) base ∧
    (∃ x, sourceWord ⟨.register, .r0⟩ base = .ok x base) ∧
    (willFetch (base.withPc 0o100000) ∧ (base.withPc 0o100000).pcr = 0o100000) :=
  ⟨ready4, ⟨_, rfl⟩, by unfold unclaimed; decide, rfl, ⟨_, rfl⟩, by unfold willFetch; decide⟩

theorem witness_ReturnUndoesTheTrap :
    0o676 ≠ 0o674 ∧ Memory.wf base.ram = true ∧ TrapReady base 0o4 0o3000 { Psw.zero with pri := 7 } 0o676 0o674 :=
  ⟨by decide, by decide, ready4⟩

theorem witness_StepRunsTheDecodedInstruction :
    willFetch base ∧ ramWordAt base base.curSpace base.pcr 0o1000 ∧
    decodeBytes base.cfg.profile [Memory.read base.ram 0o1000, Memory.read base.ram 0o1001] =
      .ok (.mov ⟨.register, .r0⟩ ⟨.register, .r1⟩, []) :=
  ⟨by unfold willFetch; decide, baseAt 0o1000 (by decide), by decide⟩

theorem witness_UnknownInstructionStops :
    let s := word 0o1000 0o000007 base
    willFetch s ∧ ramWordAt s s.curSpace s.pcr 0o1000 ∧
    ¬∃ i, decodeWord (Memory.readWord s.ram 0o1000) = some i ∧ i.inProfile s.cfg.profile = true := by
  refine ⟨by unfold willFetch; decide, at_ _ _ (.paged .kernel) _ _ rfl (by decide) (by decide) (by decide), ?_⟩
  rintro ⟨i, hi, _⟩
  rw [show decodeWord (Memory.readWord (word 0o1000 0o000007 base).ram 0o1000) = none by decide] at hi
  cases hi

/-- An offer one above the priority is taken, one at it is not. -/
theorem witness_StepOrder :
    let s := base.withOffers [some ⟨1, 0o4⟩]
    (base.withRun .halted).run = .halted ∧
    (s.offers = [some ⟨1, 0o4⟩] ∧ s.psw.pri.toNat < (1 : BitVec 3).toNat ∧ s.run ≠ .halted ∧
      TrapReady (s.beginStep.withRun .running) 0o4 0o3000 { Psw.zero with pri := 7 } 0o676 0o674) ∧
    (let r := s.withPsw { s.psw with pri := 1 }
     (∀ o, r.offers.head? = some (some o) → o.level.toNat ≤ r.psw.pri.toNat) ∧ (r.withRun .waiting).run = .waiting ∧
     r.run = .running ∧ (r.withPsw { r.psw with t := true }).psw.t = true ∧ r.psw.t = false ∧
     isOdd (r.withPc 1).pcr = true ∧ (r.withPsw { r.psw with cm := .supervisor }).psw.cm = .supervisor) := by
  refine ⟨by decide, ⟨by decide, by decide, by decide, by decide, by decide, by decide, by decide, by decide, ?_, ?_⟩, ?_⟩
  · exact at_ _ _ (.paged .kernel) _ _ rfl (by decide) (by decide) (by decide)
  · exact at_ _ _ (.paged .kernel) _ _ rfl (by decide) (by decide) (by decide)
  · refine ⟨fun o ho => ?_, by decide⟩
    cases ho
    decide

theorem witness_StepKeepsTheInvariant : Inv base ∧ ∃ t, step base = .next t := by
  refine ⟨⟨⟨by decide, by decide, by decide, fun pa h => ?_⟩, by decide, by decide, fun o h => ?_⟩, _, rfl⟩ <;> cases h

theorem witness_StepKeepsParametersAndHistory : ∃ t, step base = .next t := ⟨_, rfl⟩

/-- Both ends: MOV completes, and MOV from R2's address takes the trap. -/
theorem witness_SystemFieldsChangeOnlyByLoads :
    base.cfg.pswMapped = false ∧ (∃ t, exec (.mov ⟨.register, .r0⟩ ⟨.register, .r1⟩) base = .next t) ∧
    ∃ t, exec (.mov ⟨.deferred, .r2⟩ ⟨.register, .r1⟩) base = .next t ∧ t.psw.pri = 7 :=
  ⟨by decide, ⟨_, rfl⟩, ⟨_, rfl, by decide⟩⟩

theorem witness_RunStateWriters :
    (∃ t, exec .halt base = .next t) ∧ (∃ t, exec .wait base = .next t) ∧ (∃ t, exec .rtt base = .next t) ∧
    let s := (base.withRun .waiting).withOffers [some ⟨4, 0o4⟩]
    s.run = .waiting ∧ ∃ t, step s = .next t := ⟨⟨_, rfl⟩, ⟨_, rfl⟩, ⟨_, rfl⟩, rfl, ⟨_, rfl⟩⟩

theorem witness_RegisterOnlyInstructionsAlwaysComplete :
    registerOnly (.bicb ⟨.register, .sp⟩ ⟨.register, .pc⟩) = true ∧ registerOnly (.div .pc ⟨.register, .r0⟩) = true := by
  decide

theorem answered_of (l : Loc) (n : Size) (s : State) (pa : Nat) (ht : targetWord l n s = some pa)
    (h : ¬(unclaimed s pa ∧ pa < Config.ioBase)) : answered l n s := by
  intro q hq
  rw [ht] at hq
  cases hq
  exact h

/-- A store to RAM; one to the mapped PSW through R3; one to SR0. -/
theorem witness_StoreFrame :
    (∃ t l u v, storesTo (.mov ⟨.register, .r0⟩ ⟨.autoInc, .r1⟩) =
        some (some ⟨.register, .r0⟩, ⟨.autoInc, .r1⟩, .word) ∧ Memory.wf base.ram = true ∧
      sourceRead (some ⟨.register, .r0⟩) .word base t ∧ resolve ⟨.autoInc, .r1⟩ .word t = .ok l u ∧
      answered l .word u ∧ exec (.mov ⟨.register, .r0⟩ ⟨.autoInc, .r1⟩) base = .next v ∧ ¬storesPsw l .word u ∧
      ¬storesMmu l .word u) ∧
    (∃ v, storesTo (.clr ⟨.deferred, .r3⟩) = some (none, ⟨.deferred, .r3⟩, .word) ∧ Memory.wf mapped.ram = true ∧
      sourceRead none .word mapped mapped ∧ resolve ⟨.deferred, .r3⟩ .word mapped = .ok (.mem 0o177776) mapped ∧
      answered (.mem 0o177776) .word mapped ∧ exec (.clr ⟨.deferred, .r3⟩) mapped = .next v ∧
      storesPsw (.mem 0o177776) .word mapped) ∧
    (let s := writeReg .r3 0o177572 base
     ∃ v, resolve ⟨.deferred, .r3⟩ .word s = .ok (.mem 0o177572) s ∧ answered (.mem 0o177572) .word s ∧
      exec (.clr ⟨.deferred, .r3⟩) s = .next v ∧ storesMmu (.mem 0o177572) .word s) := by
  refine ⟨⟨base, .mem 0o2000, writeReg .r1 0o2002 base, _, rfl, by decide, ⟨_, rfl⟩, rfl,
      answered_of _ _ _ 0o2000 (by decide) (by unfold unclaimed; decide), rfl, ?_, ?_⟩,
    ⟨_, rfl, by decide, rfl, rfl, answered_of _ _ _ 0o777776 (by decide) (by unfold unclaimed; decide), rfl, by decide,
      by decide, by decide⟩,
    ⟨_, rfl, answered_of _ _ _ 0o777572 (by decide) (by unfold unclaimed; decide), rfl, 0o777572, .sr0, by decide,
      by decide, by decide⟩⟩
  · exact fun h => absurd h.1 (by decide)
  · rintro ⟨pa, r, h, hp, _⟩
    rw [show targetWord (.mem 0o2000) .word (writeReg .r1 0o2002 base) = some 0o2000 by decide] at h
    cases h
    exact absurd hp (by decide)

theorem witness_ReadOnlyFrame :
    (∃ t u v, sourceRead (some ⟨.autoInc, .r1⟩) .word base t ∧ sourceRead (some ⟨.autoInc, .r1⟩) .word t u ∧
      exec (.cmp ⟨.autoInc, .r1⟩ ⟨.autoInc, .r1⟩) base = .next v) ∧
    (∃ t u v, sourceRead (some ⟨.autoInc, .r1⟩) .byte base t ∧ sourceRead (some ⟨.autoInc, .r1⟩) .byte t u ∧
      exec (.bitb ⟨.autoInc, .r1⟩ ⟨.autoInc, .r1⟩) base = .next v) ∧
    (∃ t v, sourceRead (some ⟨.deferred, .r1⟩) .byte base t ∧ exec (.tstb ⟨.deferred, .r1⟩) base = .next v) ∧
    (∃ t v, sourceRead (some ⟨.deferred, .r1⟩) .word base t ∧ exec (.mul .r5 ⟨.deferred, .r1⟩) base = .next v) :=
  ⟨⟨_, _, _, ⟨_, rfl⟩, ⟨_, rfl⟩, rfl⟩, ⟨_, _, _, ⟨_, rfl⟩, ⟨_, rfl⟩, rfl⟩, ⟨_, _, ⟨_, rfl⟩, rfl⟩, ⟨_, _, ⟨_, rfl⟩, rfl⟩⟩

theorem witness_StackFrame :
    (∃ x t v, pop (base.withPc (readReg base .r5)) = .ok x t ∧ exec (.rts .r5) base = .next v) ∧
    (∃ x t v, pop ((writeReg .sp (base.pcr + BitVec.ofNat 16 (2 * (2 : BitVec 6).toNat)) base).withPc
      (readReg base .r5)) = .ok x t ∧ exec (.mark 2) base = .next v) ∧
    (∃ x t y u v, pop base = .ok x t ∧ pop (t.withPc x) = .ok y u ∧ exec .rtt base = .next v) ∧
    (let w := writeReg .sp (readReg base .sp - 2) base
     jumpTarget ⟨.deferred, .r1⟩ base = .ok 0o2000 base ∧ answered (.mem (readReg base .sp - 2)) .word w ∧
      ¬storesPsw (.mem (readReg base .sp - 2)) .word w ∧ (∃ v, exec (.jsr .r5 ⟨.deferred, .r1⟩) base = .next v) ∧
      loadPrev (.reg .r1) base = .ok 0o2000 base ∧ ∃ v, exec (.mfpi ⟨.register, .r1⟩) base = .next v) ∧
    (∃ x t l u w v, pop base = .ok x t ∧ resolve ⟨.deferred, .r1⟩ .word t = .ok l u ∧ storePrev l x u = .ok false w ∧
      exec (.mtpi ⟨.deferred, .r1⟩) base = .next v ∧
      ∀ sp, u.prevSpace = some sp → mmuRegAt (u.translate sp 0o2000) = none) := by
  refine ⟨⟨_, _, _, rfl, rfl⟩, ⟨_, _, _, rfl, rfl⟩, ⟨_, _, _, _, _, rfl, rfl, rfl⟩,
    ⟨rfl, answered_of _ _ _ 0o676 (by decide) (by unfold unclaimed; decide), ?_, ⟨_, rfl⟩, rfl, ⟨_, rfl⟩⟩,
    ⟨_, _, _, writeReg .sp 0o702 base, _, _, rfl, rfl, rfl, rfl, fun sp h => ?_⟩⟩
  · exact fun h => absurd h.1 (by decide)
  · cases h
    decide

end Sys2Proof.Tests
end

/-! PROOF. The register slots and the PSW that names them (10_state.md R22, R25). -/
section
namespace Sys2Proof.Machine

/-! ## The live slots, and the slots under a new PSW -/

theorem bank_eq_bank0 {s : State} (h : s.psw.rs = false) : s.bank = s.bank0 := if_neg (by simp [h])

theorem bank_eq_bank1 {s : State} (h : s.psw.rs = true) : s.bank = s.bank1 := if_pos h

@[simp] theorem withPsw_spOf (p : Psw) (s : State) (m : Mode) : (s.withPsw p).spOf m = s.spOf m := by
  cases m <;> rfl

theorem slotsSame_withPsw (p : Psw) (s : State) : slotsSame s (s.withPsw p) := ⟨rfl, rfl, rfl, rfl, rfl, rfl⟩

/-- A load of the PSW answers just when the word unpacks, and writes the PSW alone (R28). -/
theorem loadPsw_eq_ok {w : Word} {s t : State} :
    loadPsw w s = .ok () t ↔ ∃ p, Psw.unpack w = some p ∧ t = s.withPsw p := by
  unfold loadPsw
  cases Psw.unpack w <;> simp [eq_comm]

/-- R0 to R5 are the live bank, and R6 is the stack pointer of the current mode. -/
theorem readReg_congr_live {s t : State} (hbank : t.bank = s.bank) (hsp : t.spOf t.psw.cm = s.spOf s.psw.cm) {q : Reg}
    (hq : q ≠ .pc) : readReg t q = readReg s q := by
  cases q with
  | r0 | r1 | r2 | r3 | r4 | r5 => simp only [readReg, hbank]
  | sp => exact hsp
  | pc => exact absurd rfl hq

/-- The bank the other `rs` names is a hidden slot. -/
theorem hiddenSlotsSame.bank_withPsw {s t : State} {p : Psw} (h : hiddenSlotsSame s t) (hrs : p.rs ≠ s.psw.rs) :
    (t.withPsw p).bank = (s.withPsw p).bank := by
  obtain ⟨hbank, -⟩ := h
  cases hs : s.psw.rs with
  | false =>
    have hp : p.rs = true := by simpa [hs] using hrs
    rw [bank_eq_bank1 (s := t.withPsw p) hp, bank_eq_bank1 (s := s.withPsw p) hp]
    simpa [hs] using hbank
  | true =>
    have hp : p.rs = false := by simpa [hs] using hrs
    rw [bank_eq_bank0 (s := t.withPsw p) hp, bank_eq_bank0 (s := s.withPsw p) hp]
    simpa [hs] using hbank

/-- Under a PSW of the other bank and another mode every register but PC is a slot that was hidden. -/
theorem hiddenSlotsSame.readReg_withPsw {s t : State} {p : Psw} (h : hiddenSlotsSame s t) (hcm : p.cm ≠ s.psw.cm)
    (hrs : p.rs ≠ s.psw.rs) {q : Reg} (hq : q ≠ .pc) : readReg (t.withPsw p) q = readReg (s.withPsw p) q :=
  readReg_congr_live (h.bank_withPsw hrs) (by simpa using h.2 p.cm hcm) hq

end Sys2Proof.Machine

namespace Sys2Proof.Proofs
open Sys2Proof.Machine

/-- Settles O8: a load only replaces the PSW; a write made under the other bank and mode leaves the slots hidden there
as they were, and those are the ones the old PSW names. -/
theorem bankIsolation : Obligations.BankIsolation := by
  refine ⟨fun w s t hload => ?_, fun s p r q v hcm hrs hq => ?_⟩
  · obtain ⟨p, -, rfl⟩ := loadPsw_eq_ok.1 hload
    exact slotsSame_withPsw p s
  · have hidden : hiddenSlotsSame (s.withPsw p) (writeReg r v (s.withPsw p)) := hiddenSlotsSame_writeReg r v _
    calc readReg ((writeReg r v (s.withPsw p)).withPsw s.psw) q
      _ = readReg ((s.withPsw p).withPsw s.psw) q := hidden.readReg_withPsw (Ne.symm hcm) (Ne.symm hrs) hq
      _ = readReg s q := rfl

/-- Settles O6: R0 to R5 read the bank `rs` selects, SP the stack pointer `cm` selects. -/
theorem logicalRegistersFollowThePsw : Obligations.LogicalRegistersFollowThePsw := by
  intro s
  refine ⟨fun hrs => ?_, fun hrs => ?_, fun hcm => ?_, fun hcm => ?_, fun hcm => ?_, readReg_pc s⟩
  · simp [readReg, bank_eq_bank0 hrs]
  · simp [readReg, bank_eq_bank1 hrs]
  all_goals simp [readReg, State.spOf, hcm]

end Sys2Proof.Proofs
end

/-! PROOF. Translation with the MMU off, and the MMU registers on the bus (20_memory.md R74, R84, R87, R89). -/
section
namespace Sys2Proof.Machine

/-! ## Translation by the fields it reads -/

/-- R74, below the I/O page: the address passes through. -/
theorem translate_mmuOff_low {s : State} (hoff : s.mmu.enabled = false) (set : PageSet) {va : Word}
    (hva : va.toNat < 0o160000) : s.translate (.paged set) va = va.toNat := by
  simp [State.translate, hoff, hva]

/-- R74, in the I/O page: bits 17:16 are set, which is a sum since a virtual address has 16 bits. -/
theorem translate_mmuOff_high {s : State} (hoff : s.mmu.enabled = false) (set : PageSet) {va : Word}
    (hva : 0o160000 ≤ va.toNat) :
    s.translate (.paged set) va = va.toNat ||| 0o600000 ∧ s.translate (.paged set) va = va.toNat + 0o600000 := by
  have hor : s.translate (.paged set) va = va.toNat ||| 0o600000 := by
    simp [State.translate, hoff, Nat.not_lt.2 hva]
  exact ⟨hor, hor.trans (or_ioPage va.isLt)⟩

@[simp] theorem enabled_withPdr (m : Mmu) (set : PageSet) (page : BitVec 3) (v : Word) :
    (m.withPdr set page v).enabled = m.enabled := by
  cases set <;> rfl

/-- R76: a translation reads the enable bit and the PARs only. -/
theorem translate_withMmu_withPdr (s : State) (set : PageSet) (page : BitVec 3) (v : Word) (sp : Space) (va : Word) :
    (s.withMmu (s.mmu.withPdr set page v)).translate sp va = s.translate sp va := by
  cases sp with
  | direct => rfl
  | paged k => simp [State.translate]

/-! ## An MMU register on the bus -/

/-- R84: each register answers at its own address. -/
@[simp] theorem mmuRegAt_mmuAddress (r : MmuReg) : mmuRegAt (mmuAddress r) = some r := by
  cases r with
  | sr0 | sr1 | sr2 => rfl
  | pdr set page | par set page => cases set <;> revert page <;> decide

theorem ioBase_le_mmuAddress (r : MmuReg) : Config.ioBase ≤ mmuAddress r := by
  cases r with
  | sr0 | sr1 | sr2 => decide
  | pdr set page | par set page => cases set <;> simp only [mmuAddress, Config.ioBase] <;> omega

/-- R64: where RAM ends below the I/O page, the MMU takes the access to a register of its window. -/
theorem busRead_mmuAddress {s : State} (hram : s.cfg.ramSize ≤ Config.ioBase) (r : MmuReg) :
    busRead (mmuAddress r) s = mmuRead r s := by
  have hnot : ¬mmuAddress r < s.cfg.ramSize := Nat.not_lt.2 (hram.trans (ioBase_le_mmuAddress r))
  simp [busRead, hnot]

theorem busWrite_mmuAddress {s : State} (hram : s.cfg.ramSize ≤ Config.ioBase) (r : MmuReg) (v : Word) :
    busWrite (mmuAddress r) v s = .ok false (mmuWrite r v s) := by
  have hnot : ¬mmuAddress r < s.cfg.ramSize := Nat.not_lt.2 (hram.trans (ioBase_le_mmuAddress r))
  simp [busWrite, hnot]

end Sys2Proof.Machine

namespace Sys2Proof.Proofs
open Sys2Proof.Machine

/-- Settles O13: SR1 and SR2 have no storage behind their addresses, and the state after a PDR write is the old one
with that PDR replaced, which no translation reads. -/
theorem statusRegistersAndDescriptors : Obligations.StatusRegistersAndDescriptors := by
  intro s v hram
  refine ⟨?_, fun set page => ⟨s.withMmu (s.mmu.withPdr set page v), busWrite_mmuAddress hram _ v, ?_,
    translate_withMmu_withPdr s set page v, rfl, by simp, by simp, fun k q hne => ?_⟩⟩
  · rintro pa (rfl | rfl)
    · exact ⟨busRead_mmuAddress hram .sr1, busWrite_mmuAddress hram .sr1 v⟩
    · exact ⟨busRead_mmuAddress hram .sr2, busWrite_mmuAddress hram .sr2 v⟩
  · rw [busRead_mmuAddress (by simpa using hram)]
    simp [mmuRead, pdr_withPdr]
  · rw [withMmu_mmu, pdr_withPdr, if_neg hne]

/-- Settles O11: the two halves of the address space; the sum bounds the upper one. -/
theorem translationWithTheMmuOff : Obligations.TranslationWithTheMmuOff := by
  intro s set va hoff
  refine ⟨translate_mmuOff_low hoff set, fun hva => ?_⟩
  obtain ⟨hor, hsum⟩ := translate_mmuOff_high hoff set hva
  exact ⟨hor, hsum, by omega, by omega⟩

end Sys2Proof.Proofs
end

/-! PROOF. The branches (43_branches.md R113, R220 to R231): their rows in tier (c) of the decoder, and where they lead. -/
section
namespace Sys2Proof

@[simp] theorem opcode_encByte (op x : BitVec 8) : field (encByte op x) 8 8 = op := (field_encByte op x).2.2.1

@[simp] theorem offset_encByte (op x : BitVec 8) : field (encByte op x) 0 8 = x := (field_encByte op x).2.2.2

/-- The opcodes tier (c) has rows for lie in two ranges. -/
theorem opcode_of_decodeTierC {op x : BitVec 8} {i : Instr} (h : decodeTierC (encByte op x) = some i) :
    (1 ≤ op.toNat ∧ op.toNat ≤ 0o007) ∨ (0o200 ≤ op.toNat ∧ op.toNat ≤ 0o211) := by
  by_contra hout
  have hnone : decodeTierC (encByte op x) = none := decodeTierC_none (by rw [opcode_encByte]; omega)
  simp [hnone] at h

/-- Tiers (a) and (b) leave every word alone that tier (c) has a row for (R117, R118). -/
theorem decodeWord_of_decodeTierC {op x : BitVec 8} {i : Instr} (h : decodeTierC (encByte op x) = some i) :
    decodeWord (encByte op x) = some i := by
  have hop := opcode_of_decodeTierC h
  refine decodeWord_encByte ?_ ?_ h
  all_goals
    simp only [BitVec.extractLsb'_toNat, Nat.shiftRight_eq_div_pow]
    omega

end Sys2Proof

namespace Sys2Proof.Machine

/-- R113: the sum of words is the exact sum truncated. -/
theorem add_signExtend_eq_branchTarget (offset : BitVec 8) (s : State) :
    s.pcr + offset.signExtend 16 * 2 = branchTarget s offset := by
  rw [branchTarget, BitVec.ofInt_add, BitVec.ofInt_mul, BitVec.mul_comm]
  simp [BitVec.signExtend]

theorem branch_taken {c : Bool} (hc : c = true) (offset : BitVec 8) (s : State) :
    branch c offset s = s.withPc (branchTarget s offset) := by
  rw [branch, if_pos hc, add_signExtend_eq_branchTarget]

theorem branch_not_taken {c : Bool} (hc : ¬c = true) (offset : BitVec 8) (s : State) : branch c offset s = s :=
  if_neg hc

/-- An instruction of tier (c) that runs `Branch(taken)` (R220) branches when `taken` holds. -/
theorem branchesWhen_of_branch {i : Instr} {op offset : BitVec 8} {cond : State → Prop} (taken : State → Bool)
    (hrow : decodeTierC (encByte op offset) = some i)
    (hexec : ∀ s, exec i s = complete (.ok () (branch (taken s) offset s)))
    (hcond : ∀ s, taken s = true ↔ cond s) : branchesWhen i (op ++ offset) offset cond := by
  refine ⟨decodeWord_of_decodeTierC hrow, fun s => ⟨fun h => ?_, fun h => ?_⟩⟩
  · rw [hexec, branch_taken ((hcond s).2 h), complete_ok]
  · rw [hexec, branch_not_taken (mt (hcond s).1 h), complete_ok]

end Sys2Proof.Machine

namespace Sys2Proof.Proofs
open Sys2Proof.Machine

/-- Settles O34: each is a row of tier (c) that runs `Branch` on the condition written here. -/
theorem branches : Obligations.Branches := by
  intro o
  refine ⟨branchesWhen_of_branch (fun _ => true) ?_ (fun _ => rfl) (by simp),
    branchesWhen_of_branch (fun s => !s.psw.z) ?_ (fun _ => rfl) (by simp),
    branchesWhen_of_branch (fun s => s.psw.z) ?_ (fun _ => rfl) (by simp),
    branchesWhen_of_branch (fun s => s.psw.n == s.psw.v) ?_ (fun _ => rfl) (by simp),
    branchesWhen_of_branch (fun s => s.psw.n != s.psw.v) ?_ (fun _ => rfl) (by simp),
    branchesWhen_of_branch (fun s => !s.psw.z && s.psw.n == s.psw.v) ?_ (fun _ => rfl) (by simp),
    branchesWhen_of_branch (fun s => !s.psw.n) ?_ (fun _ => rfl) (by simp),
    branchesWhen_of_branch (fun s => !s.psw.c && !s.psw.z) ?_ (fun _ => rfl) (by simp),
    branchesWhen_of_branch (fun s => s.psw.c || s.psw.z) ?_ (fun _ => rfl) (by simp),
    branchesWhen_of_branch (fun s => !s.psw.c) ?_ (fun _ => rfl) (by simp),
    branchesWhen_of_branch (fun s => s.psw.c) ?_ (fun _ => rfl) (by simp)⟩
  all_goals simp [decodeTierC]

end Sys2Proof.Proofs
end

/-! PROOF. A step that fetches a word from RAM, and what it makes of a word without a row (30_encoding.md R123). -/
section
namespace Sys2Proof

/-- R123, R124: a word without a row in the profile does not decode. -/
theorem decode_eq_error {p : Profile} {w : Word} (h : ¬∃ i, decodeWord w = some i ∧ i.inProfile p = true) :
    decode p w = .error (.unknownInstruction w) := by
  unfold decode
  cases hw : decodeWord w with
  | none => rfl
  | some i => exact if_neg fun hp => h ⟨i, hw, hp⟩

end Sys2Proof

namespace Sys2Proof.Machine

@[simp] theorem fetched_annotation (s : State) (w : Word) : (fetched s w).annotation = ⟨some w, s.pcr⟩ := rfl

/-- R140, R141: the fetch reads the word at PC and leaves `fetched`. -/
theorem fetchInstr_ram {s : State} {pa : Nat} (h : ramWordAt s s.curSpace s.pcr pa) :
    fetchInstr s.beginStep = .ok (Memory.readWord s.ram pa) (fetched s (Memory.readWord s.ram pa)) := by
  have hstart : fetchWord (s.beginStep.withCurrentPc s.pcr) = .ok (Memory.readWord s.ram pa)
      ((s.beginStep.withCurrentPc s.pcr).withPc (s.pcr + 2)) :=
    fetchWord_ram (ramWordAt_congr (t := s.beginStep.withCurrentPc s.pcr) rfl rfl h)
  calc fetchInstr s.beginStep
    _ = (fetchWord (s.beginStep.withCurrentPc s.pcr)).bind fun w t => .ok w (t.withIr (some w)) := rfl
    _ = .ok (Memory.readWord s.ram pa) (fetched s (Memory.readWord s.ram pa)) := by rw [hstart]; rfl

/-- R140: a step whose fetched word does not decode is a fatal stop. -/
theorem step_of_decode_error {s t : State} {w : Word} {e : DecodeError} (hs : willFetch s)
    (hfetch : fetchInstr s.beginStep = .ok w t) (hdecode : decode t.cfg.profile w = .error e) :
    step s = .fault (.unknownInstruction t.annotation) := by
  obtain ⟨hrun, hoffer, htrace⟩ := hs
  simp [step, hrun, hoffer, htrace, hfetch, hdecode]

end Sys2Proof.Machine

namespace Sys2Proof.Proofs
open Sys2Proof.Machine

/-- Settles O50: the fetch leaves the word and the old PC in the annotation, and the word does not decode. -/
theorem unknownInstructionStops : Obligations.UnknownInstructionStops := by
  intro s pa hs hram hrow
  rw [step_of_decode_error hs (fetchInstr_ram hram) (decode_eq_error hrow), fetched_annotation]

end Sys2Proof.Proofs
end

/-! PROOF. The operand modes that are resolved without an access (40_step_and_operands.md R145 to R147, R149, R153). -/
section
namespace Sys2Proof.Machine

/-! ## The step of a register -/

/-- R153: only a byte operand at R0 to R5 steps by 1. -/
theorem stepOf_eq_ite (r : Reg) (n : Size) : stepOf r n = if n = .byte ∧ r ≠ .sp ∧ r ≠ .pc then 1 else 2 := by
  cases n with
  | word => simp [stepOf]
  | byte => cases r <;> simp [stepOf]

@[simp] theorem stepOf_pc (n : Size) : stepOf .pc n = 2 := by cases n <;> rfl

/-! ## Resolving modes 0, 1, 2 and 4 -/

@[simp] theorem resolve_register (r : Reg) (n : Size) (s : State) : resolve ⟨.register, r⟩ n s = .ok (.reg r) s := rfl

@[simp] theorem resolve_deferred (r : Reg) (n : Size) (s : State) :
    resolve ⟨.deferred, r⟩ n s = .ok (.mem (readReg s r)) s := rfl

/-- R147: the address is the register before its step. -/
theorem resolve_autoInc (r : Reg) (n : Size) (s : State) :
    resolve ⟨.autoInc, r⟩ n s = .ok (.mem (readReg s r)) (writeReg r (readReg s r + stepOf r n) s) := rfl

/-- R149: the address is the register after its step, read back from the state the step leaves. -/
theorem resolve_autoDec (r : Reg) (n : Size) (s : State) :
    resolve ⟨.autoDec, r⟩ n s =
      .ok (.mem (readReg s r - stepOf r n)) (writeReg r (readReg s r - stepOf r n) s) := by
  simp [resolve]

/-- R147 of PC, the immediate form: PC steps over the word whatever the operand size. -/
theorem resolve_autoInc_pc (n : Size) (s : State) :
    resolve ⟨.autoInc, .pc⟩ n s = .ok (.mem s.pcr) (s.withPc (s.pcr + 2)) := by
  simp [resolve_autoInc]

/-! ## The accesses of a location (R144) -/

@[simp] theorem loadWord_reg (r : Reg) (s : State) : loadWord (.reg r) s = .ok (readReg s r) s := rfl

@[simp] theorem storeWord_reg (r : Reg) (v : Word) (s : State) :
    storeWord (.reg r) v s = .ok false (writeReg r v s) := rfl

theorem loadWord_mem (a : Word) (s : State) : loadWord (.mem a) s = memReadWord a s.curSpace s := rfl

theorem storeWord_mem (a v : Word) (s : State) : storeWord (.mem a) v s = memWriteWord a v s.curSpace s := rfl

theorem loadByte_mem (a : Word) (s : State) : loadByte (.mem a) s = memReadByte a s.curSpace s := rfl

theorem storeByte_mem (a : Word) (b : Byte) (s : State) :
    storeByte (.mem a) b s = memWriteByte a b s.curSpace s := rfl

end Sys2Proof.Machine

namespace Sys2Proof.Proofs
open Sys2Proof.Machine

/-- Settles O20: each mode as its own lemma says it, the step being `stepOf`. -/
theorem registerModes : Obligations.RegisterModes := by
  intro r n s
  simp only [← stepOf_eq_ite r n]
  exact ⟨resolve_register r n s, resolve_deferred r n s, resolve_autoInc r n s, resolve_autoDec r n s,
    resolve_autoInc_pc n s, loadWord_reg r s, fun v a => ⟨storeWord_reg r v s, storeWord_reg .pc v s,
      loadWord_mem a s, storeWord_mem a v s, fun b => ⟨loadByte_mem a s, storeByte_mem a b s⟩⟩⟩

end Sys2Proof.Proofs
end

/-! PROOF. The double-operand instructions that move a word, compare, test bits, add and subtract (41_double_operand.md
R171, R173 to R176, R182, R183). -/
section
namespace Sys2Proof

/-! ## A row of tier (a) from its encoding -/

@[simp] theorem opcode_encDop (op : BitVec 4) (ss dd : BitVec 6) : field (encDop op ss dd) 12 4 = op :=
  (field_encDop op ss dd).1

@[simp] theorem source_encDop (op : BitVec 4) (src : Operand) (dd : BitVec 6) :
    operandAt (encDop op src.toBits dd) 6 = src := by
  rw [operandAt, (field_encDop op src.toBits dd).2.1, Operand.ofBits_toBits]

@[simp] theorem destination_encDop (op : BitVec 4) (ss : BitVec 6) (dst : Operand) :
    operandAt (encDop op ss dst.toBits) 0 = dst := by
  rw [operandAt, (field_encDop op ss dst.toBits).2.2, Operand.ofBits_toBits]

end Sys2Proof

namespace Sys2Proof.Machine

/-! ## The patterns R and RMW with the flags they end in -/

/-- Pattern R (R159): an operand read as `r` that answers leaves the PSW alone, so an unchanged flag is that of `p`. -/
theorem applyFlags_spec {α : Type} {r : Res α} {p : Psw} (f : α → FlagUpdate)
    (hpsw : ∀ {d u}, r = .ok d u → u.psw = p) :
    endsAs r (complete (r.bind fun d u => .ok () (u.applyFlags (f d)))) ∧
      ∀ d u, r = .ok d u → complete (r.bind fun d u => .ok () (u.applyFlags (f d))) =
        .next (u.withFlags ((f d).n.getD p.n) ((f d).z.getD p.z) ((f d).v.getD p.v) ((f d).c.getD p.c)) := by
  refine ⟨endsAs_bind _ _, fun d u hd => ?_⟩
  rw [complete_bind hd, complete_ok, applyFlags_eq, hpsw hd]

theorem testWord_spec (dst : Operand) (f : Word → FlagUpdate) (t : State) :
    endsAs (sourceWord dst t) (complete (testWord dst f t)) ∧
      ∀ d u, sourceWord dst t = .ok d u → complete (testWord dst f t) = .next (u.withFlags ((f d).n.getD t.psw.n)
        ((f d).z.getD t.psw.z) ((f d).v.getD t.psw.v) ((f d).c.getD t.psw.c)) :=
  applyFlags_spec f sourceWord_psw

theorem testByte_spec (dst : Operand) (f : Byte → FlagUpdate) (t : State) :
    endsAs (sourceByte dst t) (complete (testByte dst f t)) ∧
      ∀ d u, sourceByte dst t = .ok d u → complete (testByte dst f t) = .next (u.withFlags ((f d).n.getD t.psw.n)
        ((f d).z.getD t.psw.z) ((f d).v.getD t.psw.v) ((f d).c.getD t.psw.c)) :=
  applyFlags_spec f sourceByte_psw

/-! ## What is left to do once the source has been read (R157) -/

variable {src dst : Operand} {s t : State}

theorem exec_mov_of_source {x : Word} (hx : sourceWord src s = .ok x t) :
    exec (.mov src dst) s = complete (putWord dst x (flagsLogic x) t) := complete_bind hx

theorem exec_cmp_of_source {x : Word} (hx : sourceWord src s = .ok x t) :
    exec (.cmp src dst) s = complete (testWord dst (flagsCmp x) t) := complete_bind hx

theorem exec_cmpb_of_source {x : Byte} (hx : sourceByte src s = .ok x t) :
    exec (.cmpb src dst) s = complete (testByte dst (flagsCmp x) t) := complete_bind hx

theorem exec_bit_of_source {x : Word} (hx : sourceWord src s = .ok x t) :
    exec (.bit src dst) s = complete (testWord dst (fun d => flagsLogic (x &&& d)) t) := complete_bind hx

theorem exec_bitb_of_source {x : Byte} (hx : sourceByte src s = .ok x t) :
    exec (.bitb src dst) s = complete (testByte dst (fun d => flagsLogic (x &&& d)) t) := complete_bind hx

theorem exec_add_of_source {x : Word} (hx : sourceWord src s = .ok x t) :
    exec (.add src dst) s = complete (modifyWord dst (fun d => (d + x, flagsAdd x d)) t) := complete_bind hx

theorem exec_sub_of_source {x : Word} (hx : sourceWord src s = .ok x t) :
    exec (.sub src dst) s = complete (modifyWord dst (fun d => (d - x, flagsSub x d)) t) := complete_bind hx

/-- R182: the sum of words is the exact sum truncated. -/
theorem ofNat_toNat_add_toNat (x d : Word) : BitVec.ofNat 16 (x.toNat + d.toNat) = d + x := by
  rw [← BitVec.add_def, BitVec.add_comm]

end Sys2Proof.Machine

/-! The flags a statement writes out are those of the model's updates by unfolding: `msb` is the top bit and `==` is
decided equality. So each proof ends in the lemma of its pattern. -/

namespace Sys2Proof.Proofs
open Sys2Proof.Machine

/-- Settles O25: MOV is pattern W, and no read before the store has changed the C it keeps. -/
theorem movMovesTheWord : Obligations.MovMovesTheWord := by
  intro src dst s
  refine ⟨decodeWord_encDop (by simp [decodeTierA]), endsAs_bind _ _, fun x t hx => ?_⟩
  rw [exec_mov_of_source hx, ← sourceWord_psw hx]
  exact putWord_spec dst x (flagsLogic x) t

/-- Settles O26: both compares are pattern R, with all four flags of the difference. -/
theorem compareSetsTheFlags : Obligations.CompareSetsTheFlags := by
  intro src dst s
  refine ⟨⟨decodeWord_encDop (by simp [decodeTierA]), decodeWord_encDop (by simp [decodeTierA])⟩,
    ⟨endsAs_bind _ _, fun x t hx => ?_⟩, endsAs_bind _ _, fun x t hx => ?_⟩
  · rw [exec_cmp_of_source hx]
    exact testWord_spec dst (flagsCmp x) t
  · rw [exec_cmpb_of_source hx]
    exact testByte_spec dst (flagsCmp x) t

/-- Settles O27: both bit tests are pattern R, and no read has changed the C they keep. -/
theorem bitTestSetsTheFlags : Obligations.BitTestSetsTheFlags := by
  intro src dst s
  refine ⟨⟨decodeWord_encDop (by simp [decodeTierA]), decodeWord_encDop (by simp [decodeTierA])⟩,
    ⟨endsAs_bind _ _, fun x t hx => ?_⟩, endsAs_bind _ _, fun x t hx => ?_⟩
  · rw [exec_bit_of_source hx, ← sourceWord_psw hx]
    exact testWord_spec dst (fun d => flagsLogic (x &&& d)) t
  · rw [exec_bitb_of_source hx, ← sourceByte_psw hx]
    exact testByte_spec dst (fun d => flagsLogic (x &&& d)) t

/-- Settles O28: both are pattern RMW, with all four flags from the two operands. -/
theorem addAndSubtract : Obligations.AddAndSubtract := by
  intro src dst s
  simp only [ofNat_toNat_add_toNat]
  refine ⟨⟨decodeWord_encDop (by simp [decodeTierA]), decodeWord_encDop (by simp [decodeTierA])⟩,
    ⟨endsAs_bind _ _, fun x t hx => ?_⟩, endsAs_bind _ _, fun x t hx => ?_⟩
  · rw [exec_add_of_source hx]
    exact modifyWord_spec dst (fun d => (d + x, flagsAdd x d)) t
  · rw [exec_sub_of_source hx]
    exact modifyWord_spec dst (fun d => (d - x, flagsSub x d)) t

end Sys2Proof.Proofs
end

/-! PROOF. RTS (44_jumps_subroutines.md R253): its row in tier (e) of the decoder, and the pop it ends in. -/
section
namespace Sys2Proof

@[simp] theorem opcode_encLow3 (op : BitVec 13) (x : BitVec 3) : field (encLow3 op x) 3 13 = op := by
  obtain ⟨-, -, -, -, hop, -⟩ := field_encLow3 op x
  exact hop

@[simp] theorem low_encLow3 (op : BitVec 13) (x : BitVec 3) : field (encLow3 op x) 0 3 = x := by
  obtain ⟨-, -, -, -, -, hlow⟩ := field_encLow3 op x
  exact hlow

/-- The two opcodes tier (e) has rows for. -/
theorem opcode_of_decodeTierE {op : BitVec 13} {x : BitVec 3} {i : Instr} (h : decodeTierE (encLow3 op x) = some i) :
    op = 0o00020 ∨ op = 0o00023 := by
  rw [decodeTierE, opcode_encLow3] at h
  split at h
  next hop => exact .inl (BitVec.eq_of_toNat_eq hop)
  next hop => exact .inr (BitVec.eq_of_toNat_eq hop)
  next => cases h

/-- The tiers above leave every word alone that tier (e) has a row for (R117, R118). -/
theorem decodeWord_of_decodeTierE {op : BitVec 13} {x : BitVec 3} {i : Instr}
    (h : decodeTierE (encLow3 op x) = some i) : decodeWord (encLow3 op x) = some i := by
  obtain ⟨hA, hB, hC, hD, -⟩ := field_encLow3 op x
  have habove : decodeTierA (encLow3 op x) = none ∧ decodeTierB (encLow3 op x) = none ∧
      decodeTierC (encLow3 op x) = none ∧ decodeTierD (encLow3 op x) = none := by
    refine ⟨decodeTierA_none ?_, decodeTierB_none ?_, decodeTierC_none ?_, decodeTierD_none ?_⟩
    all_goals
      simp only [hA, hB, hC, hD]
      rcases opcode_of_decodeTierE h with rfl | rfl <;> decide
  obtain ⟨nA, nB, nC, nD⟩ := habove
  simp only [decodeWord, nA, nB, nC, nD, h, Option.none_or, Option.some_or]

/-- R121: the row of RTS. -/
theorem decodeTierE_rts (r : Reg) : decodeTierE (encLow3 0o00020 r.toBits) = some (.rts r) := by
  simp [decodeTierE, regAt]

end Sys2Proof

namespace Sys2Proof.Machine

/-- A pop that aborts has stepped SP, and no other register (R156, R160). -/
theorem readReg_of_pop_abort {s w : State} (h : pop s = .abort w) (q : Reg) :
    readReg w q = if q = .sp then readReg s .sp + 2 else readReg s q :=
  calc readReg w q
    _ = readReg (writeReg .sp (readReg s .sp + 2) s) q := ((memReadWord_effect _ _ _).of_abort h).readReg q
    _ = if q = .sp then readReg s .sp + 2 else readReg s q := readReg_writeReg _ _ s q

theorem readReg_withPc_other {q : Reg} (hq : q ≠ .pc) (v : Word) (s : State) : readReg (s.withPc v) q = readReg s q :=
  readReg_writeReg_other hq v s

/-- PC is no part of what a pop from RAM reads, and it stays as it is. -/
theorem pop_withPc_ram {s : State} {pa : Nat} (v : Word) (h : ramWordAt s s.curSpace (readReg s .sp) pa) :
    pop (s.withPc v) = .ok (Memory.readWord s.ram pa) ((writeReg .sp (readReg s .sp + 2) s).withPc v) := by
  have hsp : readReg (s.withPc v) .sp = readReg s .sp := readReg_withPc_other (by decide) v s
  have hram : ramWordAt (s.withPc v) (s.withPc v).curSpace (readReg (s.withPc v) .sp) pa := by
    rw [hsp]
    exact ramWordAt_congr rfl rfl h
  rw [pop_ram hram, hsp, writeReg_withPc (by decide)]
  rfl

theorem exec_rts_of_pop {r : Reg} {s w : State} {x : Word} (h : pop (s.withPc (readReg s r)) = .ok x w) :
    exec (.rts r) s = .next (writeReg r x w) := complete_bind h

end Sys2Proof.Machine

namespace Sys2Proof.Proofs
open Sys2Proof.Machine

/-- Settles O38: RTS is the pop with PC already replaced, then the write of the link register, which comes last and so
overwrites the step of SP. -/
theorem rtsReturns : Obligations.RtsReturns := by
  intro r s
  refine ⟨decodeWord_of_decodeTierE (decodeTierE_rts r), endsAs_bind _ _, fun x w => exec_rts_of_pop, fun w hw => ?_,
    fun pa hram => exec_rts_of_pop (pop_withPc_ram _ hram)⟩
  have hreg := readReg_of_pop_abort hw
  refine ⟨hreg .pc, ?_, fun hsp hpc => ?_⟩
  · rw [hreg, if_pos rfl, readReg_withPc_other (by decide)]
  · rw [hreg, if_neg hsp, readReg_withPc_other hpc]

end Sys2Proof.Proofs
end

/-! PROOF. Decoding and encoding undo each other, and the words no row accepts (30_encoding.md R117 to R124). -/
section
namespace Sys2Proof

/-! ## The fields of an encoded word, tiers (b) and (d) and the CC rows -/

@[simp] theorem opcode_encReg (op : BitVec 7) (r : BitVec 3) (x : BitVec 6) : field (encReg op r x) 9 7 = op := by
  obtain ⟨-, hop, -, -⟩ := field_encReg op r x
  exact hop

@[simp] theorem register_encReg (op : BitVec 7) (r : Reg) (x : BitVec 6) : regAt (encReg op r.toBits x) 6 = r := by
  obtain ⟨-, -, hr, -⟩ := field_encReg op r.toBits x
  rw [regAt, hr, Reg.ofBits_toBits]

@[simp] theorem low_encReg (op : BitVec 7) (r : BitVec 3) (x : BitVec 6) : field (encReg op r x) 0 6 = x := by
  obtain ⟨-, -, -, hx⟩ := field_encReg op r x
  exact hx

@[simp] theorem opcode_encOperand (op : BitVec 10) (x : BitVec 6) : field (encOperand op x) 6 10 = op := by
  obtain ⟨-, -, -, hop, -⟩ := field_encOperand op x
  exact hop

@[simp] theorem low_encOperand (op : BitVec 10) (x : BitVec 6) : field (encOperand op x) 0 6 = x := by
  obtain ⟨-, -, -, -, hx⟩ := field_encOperand op x
  exact hx

@[simp] theorem opcode_encMask (op : BitVec 12) (x : BitVec 4) : field (encMask op x) 4 12 = op := by
  obtain ⟨-, -, -, -, hop, -⟩ := field_encMask op x
  exact hop

@[simp] theorem low_encMask (op : BitVec 12) (x : BitVec 4) : field (encMask op x) 0 4 = x := by
  obtain ⟨-, -, -, -, -, hx⟩ := field_encMask op x
  exact hx

/-! ## The first tier with a row for an encoded word is its own (R117, R118) -/

/-- The opcodes tier (b) has rows for. -/
theorem opcode_of_decodeTierB {op : BitVec 7} {r : BitVec 3} {x : BitVec 6} {i : Instr}
    (h : decodeTierB (encReg op r x) = some i) : op.toNat = 0o004 ∨ (0o070 ≤ op.toNat ∧ op.toNat < 0o100) := by
  by_contra hout
  have hnone : decodeTierB (encReg op r x) = none := decodeTierB_none (by rw [opcode_encReg]; omega)
  simp [hnone] at h

theorem decodeWord_of_decodeTierB {op : BitVec 7} {r : BitVec 3} {x : BitVec 6} {i : Instr}
    (h : decodeTierB (encReg op r x) = some i) : decodeWord (encReg op r x) = some i := by
  have hop := opcode_of_decodeTierB h
  refine decodeWord_encReg ?_ h
  simp only [BitVec.extractLsb'_toNat, Nat.shiftRight_eq_div_pow]
  omega

/-- The opcodes tier (d) has rows for. -/
theorem opcode_of_decodeTierD {op : BitVec 10} {x : BitVec 6} {i : Instr} (h : decodeTierD (encOperand op x) = some i) :
    op.toNat = 1 ∨ op.toNat = 3 ∨ (0o50 ≤ op.toNat ∧ op.toNat ≤ 0o67) ∨ (0o1050 ≤ op.toNat ∧ op.toNat ≤ 0o1066) := by
  rw [decodeTierD, opcode_encOperand] at h
  split at h
  case h_33 => cases h
  all_goals omega

theorem decodeWord_of_decodeTierD {op : BitVec 10} {x : BitVec 6} {i : Instr}
    (h : decodeTierD (encOperand op x) = some i) : decodeWord (encOperand op x) = some i := by
  have hop := opcode_of_decodeTierD h
  refine decodeWord_encOperand ?_ ?_ ?_ h
  all_goals
    simp only [BitVec.extractLsb'_toNat, Nat.shiftRight_eq_div_pow]
    omega

/-- The CC rows come between tiers (e) and (f); their mask has sixteen values. -/
theorem decodeWord_ccc (m : BitVec 4) : decodeWord (encMask 0o0012 m) = some (.ccc m) := by revert m; decide

theorem decodeWord_scc (m : BitVec 4) : decodeWord (encMask 0o0013 m) = some (.scc m) := by revert m; decide

/-! ## The round trip, one tier after the other -/

@[simp] theorem operand_encReg (op : BitVec 7) (r : BitVec 3) (d : Operand) :
    operandAt (encReg op r d.toBits) 0 = d := by
  rw [operandAt, low_encReg, Operand.ofBits_toBits]

@[simp] theorem operand_encOperand (op : BitVec 10) (d : Operand) : operandAt (encOperand op d.toBits) 0 = d := by
  rw [operandAt, low_encOperand, Operand.ofBits_toBits]

/-- R117, R120: the row of an instruction accepts its word, with every operand. -/
theorem decodeWord_encode (i : Instr) : decodeWord (encode i) = some i := by
  cases i with
  | mov s d | cmp s d | bit s d | bic s d | bis s d | add s d | movb s d | cmpb s d | bitb s d | bicb s d | bisb s d
  | sub s d => exact decodeWord_encDop (by simp [decodeTierA])
  | jsr r d | xor r d | mul r d | div r d | ash r d | ashc r d =>
    exact decodeWord_of_decodeTierB (by simp [decodeTierB])
  | sob r nn => exact decodeWord_of_decodeTierB (by simp [decodeTierB])
  | br o | bne o | beq o | bge o | blt o | bgt o | bpl o | bhi o | blos o | bcc o | bcs o | ble o | bmi o | bvc o
  | bvs o | emt o | trap o => exact decodeWord_of_decodeTierC (by simp [decodeTierC])
  | jmp d | swab d | clr d | inc d | tst d | asl d | mfpi d | mtpi d | sxt d | clrb d | incb d | tstb d | com d | comb d
  | neg d | negb d | dec d | decb d | adc d | adcb d | sbc d | sbcb d | ror d | rorb d | rol d | rolb d | asr d | asrb d
  | aslb d | mfpd d | mtpd d => exact decodeWord_of_decodeTierD (by simp [decodeTierD])
  | mark nn => exact decodeWord_of_decodeTierD (by simp [decodeTierD])
  | rts r => exact decodeWord_of_decodeTierE (decodeTierE_rts r)
  | spl n => exact decodeWord_of_decodeTierE (by simp [decodeTierE])
  | ccc m => exact decodeWord_ccc m
  | scc m => exact decodeWord_scc m
  | halt | wait | reset | rtt | bpt | iot | rti => rfl

theorem decode_eq_ok {p : Profile} {w : Word} {i : Instr} :
    decode p w = .ok i ↔ decodeWord w = some i ∧ i.inProfile p = true := by
  unfold decode
  cases hw : decodeWord w with
  | none => simp
  | some j =>
    by_cases hp : j.inProfile p = true
    · simp only [if_pos hp, Except.ok.injEq, Option.some.injEq]
      refine ⟨?_, And.left⟩
      rintro rfl
      exact ⟨rfl, hp⟩
    · simp only [if_neg hp, Option.some.injEq]
      refine ⟨fun h => (by cases h), ?_⟩
      rintro ⟨rfl, hi⟩
      exact absurd hi hp

/-- R72, R110: the two bytes of an instruction word join to it, and what follows them is left over. -/
theorem decodeBytes_encodeBytes {p : Profile} {i : Instr} (h : decode p (encode i) = .ok i) (rest : List Byte) :
    decodeBytes p (encodeBytes i ++ rest) = .ok (i, rest) := by
  have hjoin : (encode i).extractLsb' 8 8 ++ (encode i).extractLsb' 0 8 = encode i :=
    append_extract (n := 8) (m := 8) _
  simp only [encodeBytes, List.cons_append, List.nil_append, decodeBytes, hjoin, h]

/-! ## A word is the encoding of what it decodes to -/

@[simp] theorem toBits_operandAt (w : Word) (lo : Nat) : (operandAt w lo).toBits = field w lo 6 :=
  Operand.toBits_ofBits _

@[simp] theorem toBits_regAt (w : Word) (lo : Nat) : (regAt w lo).toBits = field w lo 3 := Reg.toBits_ofBits _

theorem encDop_eq {w : Word} {op : BitVec 4} (h : (field w 12 4).toNat = op.toNat) :
    encDop op (field w 6 6) (field w 0 6) = w := by rw [← BitVec.eq_of_toNat_eq h, encDop_fields]

theorem encReg_eq {w : Word} {op : BitVec 7} (h : (field w 9 7).toNat = op.toNat) :
    encReg op (field w 6 3) (field w 0 6) = w := by rw [← BitVec.eq_of_toNat_eq h, encReg_fields]

theorem encByte_eq {w : Word} {op : BitVec 8} (h : (field w 8 8).toNat = op.toNat) :
    encByte op (field w 0 8) = w := by rw [← BitVec.eq_of_toNat_eq h, encByte_fields]

theorem encOperand_eq {w : Word} {op : BitVec 10} (h : (field w 6 10).toNat = op.toNat) :
    encOperand op (field w 0 6) = w := by rw [← BitVec.eq_of_toNat_eq h, encOperand_fields]

theorem encLow3_eq {w : Word} {op : BitVec 13} (h : (field w 3 13).toNat = op.toNat) :
    encLow3 op (field w 0 3) = w := by rw [← BitVec.eq_of_toNat_eq h, encLow3_fields]

theorem encMask_eq {w : Word} {op : BitVec 12} (h : (field w 4 12).toNat = op.toNat) :
    encMask op (field w 0 4) = w := by rw [← BitVec.eq_of_toNat_eq h, encMask_fields]

theorem encode_of_decodeTierA {w : Word} {i : Instr} (h : decodeTierA w = some i) : encode i = w := by
  unfold decodeTierA at h
  split at h <;> cases h
  all_goals
    rename_i hop
    simpa [encode] using encDop_eq hop

theorem encode_of_decodeTierB {w : Word} {i : Instr} (h : decodeTierB w = some i) : encode i = w := by
  unfold decodeTierB at h
  split at h <;> cases h
  all_goals
    rename_i hop
    simpa [encode] using encReg_eq hop

theorem encode_of_decodeTierC {w : Word} {i : Instr} (h : decodeTierC w = some i) : encode i = w := by
  unfold decodeTierC at h
  split at h <;> cases h
  all_goals
    rename_i hop
    exact encByte_eq hop

theorem encode_of_decodeTierD {w : Word} {i : Instr} (h : decodeTierD w = some i) : encode i = w := by
  unfold decodeTierD at h
  split at h <;> cases h
  all_goals
    rename_i hop
    simpa [encode] using encOperand_eq hop

theorem encode_of_decodeTierE {w : Word} {i : Instr} (h : decodeTierE w = some i) : encode i = w := by
  unfold decodeTierE at h
  split at h <;> cases h
  all_goals
    rename_i hop
    simpa [encode] using encLow3_eq hop

theorem encode_of_decodeTierCc {w : Word} {i : Instr} (h : decodeTierCc w = some i) : encode i = w := by
  unfold decodeTierCc at h
  split at h <;> cases h
  all_goals
    rename_i hop
    exact encMask_eq hop

theorem encode_of_decodeTierF {w : Word} {i : Instr} (h : decodeTierF w = some i) : encode i = w := by
  unfold decodeTierF at h
  split at h <;> cases h
  all_goals
    rename_i hop
    rw [field, extract_self] at hop
    exact (BitVec.eq_of_toNat_eq hop).symm

/-- The tier that accepts a word, whichever it is. -/
def SomeTierDecodes (w : Word) (i : Instr) : Prop :=
  (decodeTierA w = some i ∨ decodeTierB w = some i ∨ decodeTierC w = some i ∨ decodeTierD w = some i) ∨
    decodeTierE w = some i ∨ decodeTierCc w = some i ∨ decodeTierF w = some i

theorem SomeTierDecodes.encode_eq {w : Word} {i : Instr} (h : SomeTierDecodes w i) : encode i = w := by
  rcases h with (h | h | h | h) | h | h | h
  · exact encode_of_decodeTierA h
  · exact encode_of_decodeTierB h
  · exact encode_of_decodeTierC h
  · exact encode_of_decodeTierD h
  · exact encode_of_decodeTierE h
  · exact encode_of_decodeTierCc h
  · exact encode_of_decodeTierF h

/-- No two tiers have a row for one word, since each row accepts only its instruction's word (R118, R120). -/
theorem decodeWord_eq_some {w : Word} {i : Instr} : decodeWord w = some i ↔ SomeTierDecodes w i := by
  refine ⟨fun h => ?_, fun h => h.encode_eq ▸ decodeWord_encode i⟩
  simp only [decodeWord, Option.or_eq_some_iff] at h
  unfold SomeTierDecodes
  tauto

/-! ## The words each tier has a row for, under a profile -/

/-- The row found, if any, is one of the profile (R124, R330). -/
def Known (p : Profile) (row : Option Instr) : Prop := ∃ i, row = some i ∧ i.inProfile p = true

@[simp] theorem known_some {p : Profile} {i : Instr} : Known p (some i) ↔ i.profile = .doc ∨ p = .ext := by
  unfold Known Instr.inProfile
  cases p <;> cases hi : i.profile <;> simp [hi, Profile.includes]

@[simp] theorem known_none (p : Profile) : ¬Known p none := fun ⟨_, h, _⟩ => by cases h

theorem toNat_field (w : Word) (lo len : Nat) : (field w lo len).toNat = w.toNat / 2 ^ lo % 2 ^ len := by
  rw [field, BitVec.extractLsb'_toNat, Nat.shiftRight_eq_div_pow]

/-- R124: the words with a row of profile DOC, and those with a row that EXT adds. -/
theorem known_decodeTierA {p : Profile} {w : Word} : Known p (decodeTierA w) ↔
    (0o010000 ≤ w.toNat ∧ w.toNat < 0o070000) ∨ (0o110000 ≤ w.toNat ∧ w.toNat < 0o170000) := by
  have hf := toNat_field w 12 4
  unfold decodeTierA
  cases p <;> split <;> simp only [known_some, known_none, Instr.profile, reduceCtorEq, or_false, or_self, true_iff,
    false_iff, imp_false] at * <;> omega

theorem known_decodeTierB {p : Profile} {w : Word} : Known p (decodeTierB w) ↔
    ((0o004000 ≤ w.toNat ∧ w.toNat < 0o005000) ∨ (0o070000 ≤ w.toNat ∧ w.toNat < 0o073000) ∨
      (0o077000 ≤ w.toNat ∧ w.toNat < 0o100000)) ∨
    p = .ext ∧ 0o073000 ≤ w.toNat ∧ w.toNat < 0o075000 := by
  have hf := toNat_field w 9 7
  unfold decodeTierB
  cases p <;> split <;> simp only [known_some, known_none, Instr.profile, reduceCtorEq, or_true, or_false, or_self,
    true_and, false_and, true_iff, false_iff, imp_false] at * <;> omega

theorem known_decodeTierC {p : Profile} {w : Word} : Known p (decodeTierC w) ↔
    ((0o000400 ≤ w.toNat ∧ w.toNat < 0o003400) ∨ (0o100000 ≤ w.toNat ∧ w.toNat < 0o100400) ∨
      (0o101000 ≤ w.toNat ∧ w.toNat < 0o102000) ∨ (0o103000 ≤ w.toNat ∧ w.toNat < 0o104000)) ∨
    p = .ext ∧ ((0o003400 ≤ w.toNat ∧ w.toNat < 0o004000) ∨ (0o100400 ≤ w.toNat ∧ w.toNat < 0o101000) ∨
      (0o102000 ≤ w.toNat ∧ w.toNat < 0o103000) ∨ (0o104000 ≤ w.toNat ∧ w.toNat < 0o105000)) := by
  have hf := toNat_field w 8 8
  unfold decodeTierC
  cases p <;> split <;> simp only [known_some, known_none, Instr.profile, reduceCtorEq, or_true, or_false, or_self,
    true_and, false_and, true_iff, false_iff, imp_false] at * <;> omega

theorem known_decodeTierD {p : Profile} {w : Word} : Known p (decodeTierD w) ↔
    ((0o000100 ≤ w.toNat ∧ w.toNat < 0o000200) ∨ (0o000300 ≤ w.toNat ∧ w.toNat < 0o000400) ∨
      (0o005000 ≤ w.toNat ∧ w.toNat < 0o005100) ∨ (0o005200 ≤ w.toNat ∧ w.toNat < 0o005300) ∨
      (0o005700 ≤ w.toNat ∧ w.toNat < 0o006000) ∨ (0o006300 ≤ w.toNat ∧ w.toNat < 0o006400) ∨
      (0o006500 ≤ w.toNat ∧ w.toNat < 0o007000) ∨ (0o105000 ≤ w.toNat ∧ w.toNat < 0o105100) ∨
      (0o105200 ≤ w.toNat ∧ w.toNat < 0o105300) ∨ (0o105700 ≤ w.toNat ∧ w.toNat < 0o106000)) ∨
    p = .ext ∧ ((0o005000 ≤ w.toNat ∧ w.toNat < 0o007000) ∨ (0o105000 ≤ w.toNat ∧ w.toNat < 0o106400) ∨
      (0o106500 ≤ w.toNat ∧ w.toNat < 0o106700)) := by
  have hf := toNat_field w 6 10
  unfold decodeTierD
  cases p <;> split <;> simp only [known_some, known_none, Instr.profile, reduceCtorEq, or_true, or_false, or_self,
    true_and, false_and, true_iff, false_iff, imp_false] at * <;> omega

theorem known_decodeTierE {p : Profile} {w : Word} : Known p (decodeTierE w) ↔
    (0o000200 ≤ w.toNat ∧ w.toNat < 0o000210) ∨ p = .ext ∧ 0o000230 ≤ w.toNat ∧ w.toNat < 0o000240 := by
  have hf := toNat_field w 3 13
  unfold decodeTierE
  cases p <;> split <;> simp only [known_some, known_none, Instr.profile, reduceCtorEq, or_true, or_false, or_self,
    true_and, false_and, true_iff, false_iff, imp_false] at * <;> omega

theorem known_decodeTierCc {p : Profile} {w : Word} : Known p (decodeTierCc w) ↔
    p = .ext ∧ 0o000240 ≤ w.toNat ∧ w.toNat < 0o000300 := by
  have hf := toNat_field w 4 12
  unfold decodeTierCc
  cases p <;> split <;> simp only [known_some, known_none, Instr.profile, reduceCtorEq, or_true, or_self, true_and,
    false_and, true_iff, false_iff, imp_false] at * <;> omega

theorem known_decodeTierF {p : Profile} {w : Word} : Known p (decodeTierF w) ↔
    (w.toNat < 0o000002 ∨ w.toNat = 0o000005 ∨ w.toNat = 0o000006) ∨
    p = .ext ∧ 0o000002 ≤ w.toNat ∧ w.toNat ≤ 0o000004 := by
  have hf := toNat_field w 0 16
  unfold decodeTierF
  cases p <;> split <;> simp only [known_some, known_none, Instr.profile, reduceCtorEq, or_true, or_false, or_self,
    true_and, false_and, true_iff, false_iff, imp_false] at * <;> omega

/-- R123: a word is rejected when its row, if it has one, is not in the profile. -/
theorem decode_eq_error_iff {p : Profile} {w : Word} :
    decode p w = .error (.unknownInstruction w) ↔ ¬Known p (decodeWord w) := by
  refine ⟨?_, decode_eq_error⟩
  rintro h ⟨i, hi⟩
  simp [decode_eq_ok.2 hi] at h

/-- The row of a word is that of whichever tier has one. -/
theorem known_decodeWord {p : Profile} {w : Word} : Known p (decodeWord w) ↔
    (Known p (decodeTierA w) ∨ Known p (decodeTierB w) ∨ Known p (decodeTierC w) ∨ Known p (decodeTierD w)) ∨
      Known p (decodeTierE w) ∨ Known p (decodeTierCc w) ∨ Known p (decodeTierF w) := by
  simp only [decodeWord_eq_some, SomeTierDecodes, Known, or_and_right, exists_or]

end Sys2Proof

namespace Sys2Proof.Proofs
open Sys2Proof.Machine

/-- Settles O2: the row of each instruction accepts its word, and no tier tried before it does. -/
theorem decodeOfEncode : Obligations.DecodeOfEncode := by
  intro p i hp
  have h : decode p (encode i) = .ok i := decode_eq_ok.2 ⟨decodeWord_encode i, hp⟩
  exact ⟨h, decodeBytes_encodeBytes h⟩

/-- Settles O3: whichever tier accepts a word, the word is its row's opcode beside the operands it read. -/
theorem encodeOfDecode : Obligations.EncodeOfDecode := by
  intro p w i h
  obtain ⟨hw, hp⟩ := decode_eq_ok.1 h
  exact ⟨(decodeWord_eq_some.1 hw).encode_eq, hp⟩

/-- Settles O4: a word is rejected when no tier has a row of the profile for it; the rows of
each tier fill ranges of words. -/
theorem unknownWords : Obligations.UnknownWords := by
  intro p w
  have hw := w.isLt
  rw [decode_eq_error_iff, known_decodeWord, known_decodeTierA, known_decodeTierB, known_decodeTierC, known_decodeTierD,
    known_decodeTierE, known_decodeTierCc, known_decodeTierF]
  cases p with
  | doc =>
    simp only [unknownRanges, List.cons_append, List.nil_append, List.mem_cons, List.not_mem_nil, exists_eq_or_imp,
      exists_eq_left, reduceCtorEq, false_and, false_or, or_false]
    omega
  | ext =>
    simp only [unknownRanges, List.mem_cons, List.not_mem_nil, exists_eq_or_imp, exists_eq_left, true_and, or_false]
    omega

end Sys2Proof.Proofs
end

/-! PROOF. What a step can do, and what it keeps (40_step_and_operands.md R140; 60_exceptions.md R410, R423). -/
section
namespace Sys2Proof.Machine

/-! ## The four ways a step answers a next state -/

/-- What leads to the next state of a step (R140, R403, R412). -/
inductive StepTo (s t : State) : Prop where
  | interrupt {o : Offer} (offer : s.acceptedOffer = some o)
      (entry : trapEntry o.vector (s.beginStep.withRun .running) = .ok () t)
  | instruction {w : Word} {u : State} {i : Instr} (ready : willFetch s) (fetch : fetchInstr s.beginStep = .ok w u)
      (run : exec i u = .next t)
  | timeout {u : State} (ready : willFetch s) (fetch : fetchInstr s.beginStep = .abort u)
      (entry : trapEntry busTimeoutVector u = .ok () t)

/-- A trap entry that completes has not aborted (R406). -/
theorem trapEntry_of_complete {vec : Word} {s t : State} (h : complete (trapEntry vec s) = .next t) :
    trapEntry vec s = .ok () t := by
  rcases complete_eq_next h with h | ⟨u, h, -⟩
  · exact h
  · exact absurd h (trapEntry_ne_abort vec s u)

theorem stepTo_of_step {s t : State} (h : step s = .next t) : StepTo s t := by
  unfold step at h
  split at h
  · cases h
  · next hnotHalted =>
    split at h
    · next hoffer => exact .interrupt hoffer (trapEntry_of_complete h)
    · next hoffer =>
      split at h
      · cases h
      · next hnotWaiting =>
        split at h
        · cases h
        · next htrace =>
          have hrun : s.run = .running := by
            cases hr : s.run with
            | running => rfl
            | waiting => exact absurd hr hnotWaiting
            | halted => exact absurd hr hnotHalted
          have hready : willFetch s := ⟨hrun, hoffer, by simpa using htrace⟩
          split at h
          · next hfetch =>
            split at h
            · exact .instruction hready hfetch h
            · cases h
          · next hfetch =>
            rcases complete_eq_next h with h | ⟨u, h, hentry⟩
            · cases h
            · cases h
              exact .timeout hready hfetch hentry
          · cases h

theorem willFetch.not_waiting {s : State} (h : willFetch s) : s.run ≠ .waiting := by
  obtain ⟨hrun, -, -⟩ := h
  simp [hrun]

/-! ## What every step keeps -/

/-- What the work of a step keeps once its boundary's offer is gone. -/
structure Advances (s t : State) : Prop where
  cfg : t.cfg = s.cfg
  offers : t.offers = s.offers
  history : s.history <+: t.history
  ram : s.cfg.ramSize % 2 = 0 → RamOk s → RamOk t

theorem Keeps.advances {s t : State} (h : Keeps s t) : Advances s t := ⟨h.cfg, h.offers, h.history, h.ram⟩

theorem Advances.trans {s t u : State} (h : Advances s t) (h' : Advances t u) : Advances s u :=
  ⟨h'.cfg.trans h.cfg, h'.offers.trans h.offers, h.history.trans h'.history,
   fun hc hr => h'.ram (by rw [h.cfg]; exact hc) (h.ram hc hr)⟩

theorem advances_withRun (r : RunState) (s : State) : Advances s (s.withRun r) :=
  ⟨rfl, rfl, List.prefix_refl _, fun _ h => h⟩

theorem advances_withCurrentPc (v : Word) (s : State) : Advances s (s.withCurrentPc v) :=
  ⟨rfl, rfl, List.prefix_refl _, fun _ h => h⟩

theorem advances_withIr (w : Option Word) (s : State) : Advances s (s.withIr w) :=
  ⟨rfl, rfl, List.prefix_refl _, fun _ h => h⟩

theorem fetchInstr_advances (s : State) : (fetchInstr s).Post (Advances s) := by
  have hword : (fetchWord (s.withCurrentPc s.pcr)).Post (Advances s) :=
    (fetchWord_keeps _).mono fun _ h => (advances_withCurrentPc s.pcr s).trans h.advances
  exact hword.bind (fun _ h => h) fun w t h => h.trans (advances_withIr (some w) t)

/-- HALT and WAIT write the run state alone (R300, R301); the rest keep all that their work keeps. -/
theorem exec_advances {i : Instr} {s t : State} (h : exec i s = .next t) : Advances s t := by
  by_cases hhalt : i = .halt
  · subst hhalt
    cases h
    exact advances_withRun _ s
  by_cases hwait : i = .wait
  · subst hwait
    cases h
    exact advances_withRun _ s
  exact ((exec_work i s hhalt hwait).keeps h).advances

theorem step_advances {s t : State} (h : step s = .next t) : Advances s.beginStep t := by
  cases stepTo_of_step h with
  | interrupt _ entry => exact (advances_withRun _ _).trans (trapEntry_keeps entry).advances
  | instruction _ fetch run => exact ((fetchInstr_advances _).of_ok fetch).trans (exec_advances run)
  | timeout _ fetch entry => exact ((fetchInstr_advances _).of_abort fetch).trans (trapEntry_keeps entry).advances

end Sys2Proof.Machine

namespace Sys2Proof.Proofs
open Sys2Proof.Machine

/-- Settles O53: what a step keeps covers the parameters and the form of RAM, and the offers left are some of the old
ones. -/
theorem stepKeepsTheInvariant : Obligations.StepKeepsTheInvariant := by
  intro s t hinv hstep
  obtain ⟨hcfg, hwf, hbound, hoffers⟩ := hinv
  have hadv := step_advances hstep
  have hsame : t.cfg = s.cfg := hadv.cfg
  obtain ⟨hwf', hbound'⟩ : RamOk t := hadv.ram hcfg.1 ⟨hwf, hbound⟩
  refine ⟨hsame ▸ hcfg, hwf', hbound', fun o ho x hx => ?_⟩
  rw [hadv.offers] at ho
  rw [hsame]
  exact hoffers o (List.mem_of_mem_tail ho) x hx

/-- Settles O54: considering the boundary's offer drops it, and the step's work keeps the rest. -/
theorem stepKeepsParametersAndHistory : Obligations.StepKeepsParametersAndHistory := by
  intro s t hstep
  have hadv := step_advances hstep
  exact ⟨hadv.cfg, hadv.history, hadv.offers⟩

/-- Settles O56: the work of every other instruction keeps the run state, and a step from Waiting is an interrupt. -/
theorem runStateWriters : Obligations.RunStateWriters := by
  refine ⟨fun i s t hexec => ⟨?_, ?_, fun hhalt hwait => ((exec_work i s hhalt hwait).keeps hexec).run⟩,
    fun s t hstep hwaiting => ?_⟩
  · rintro rfl
    cases hexec
    rfl
  · rintro rfl
    cases hexec
    rfl
  · cases stepTo_of_step hstep with
    | interrupt offer entry => exact ⟨(trapEntry_keeps entry).run, by simp [offer]⟩
    | instruction ready _ _ => exact absurd hwaiting ready.not_waiting
    | timeout ready _ _ => exact absurd hwaiting ready.not_waiting

end Sys2Proof.Proofs
end

/-! PROOF. Where the system fields of the PSW can change (60_exceptions.md R417): every shared operation keeps the PSW
where it is not on the bus, and an instruction ends in nothing more than its flags. -/
section
namespace Sys2Proof.Machine

/-- The PSW is `p` and no address of the bus reaches it. -/
structure PswIs (p : Psw) (s : State) : Prop where
  psw : s.psw = p
  unmapped : s.cfg.pswMapped = false

theorem PswIs.of_same {p : Psw} {s t : State} (h : PswIs p s) (hp : t.psw = s.psw) (hc : t.cfg = s.cfg) : PswIs p t :=
  ⟨hp.trans h.psw, by rw [hc]; exact h.unmapped⟩

theorem PswIs.eval {p : Psw} {touched : Reg → Prop} {s t : State} (h : PswIs p s) (he : EvalEffect touched s t) :
    PswIs p t := h.of_same he.psw he.control.2.2.1

theorem PswIs.bus {p : Psw} {bytes : Nat → Prop} {s t : State} (h : PswIs p s) (hb : BusEffect bytes s t) :
    PswIs p t := h.of_same (hb.unmapped h.unmapped) hb.control.2.2.1

theorem PswIs.writeReg {p : Psw} {s : State} (h : PswIs p s) (r : Reg) (v : Word) : PswIs p (writeReg r v s) :=
  h.eval (evalEffect_writeReg r v s)

theorem PswIs.withPc {p : Psw} {s : State} (h : PswIs p s) (v : Word) : PswIs p (s.withPc v) :=
  h.of_same rfl rfl

/-! ## The shared operations -/

section
variable {p : Psw} {s : State} (h : PswIs p s)
include h

theorem resolve_pswIs (o : Operand) (n : Size) : (resolve o n s).Post (PswIs p) :=
  (resolve_effect o n s).mono fun _ he => h.eval he

theorem sourceWord_pswIs (o : Operand) : (sourceWord o s).Post (PswIs p) :=
  (sourceWord_effect o s).mono fun _ he => h.eval he

theorem sourceByte_pswIs (o : Operand) : (sourceByte o s).Post (PswIs p) :=
  (sourceByte_effect o s).mono fun _ he => h.eval he

theorem loadWord_pswIs (l : Loc) : (loadWord l s).Post (PswIs p) :=
  (loadWord_effect l s).mono fun _ he => h.eval he.eval

theorem loadByte_pswIs (l : Loc) : (loadByte l s).Post (PswIs p) :=
  (loadByte_effect l s).mono fun _ he => h.eval he.eval

theorem loadPrev_pswIs (l : Loc) : (loadPrev l s).Post (PswIs p) :=
  (loadPrev_effect l s).mono fun _ he => h.eval he.eval

theorem pop_pswIs : (pop s).Post (PswIs p) := (pop_effect s).mono fun _ he => h.eval he

theorem memWriteWord_pswIs (va v : Word) (m : Option Space) : (memWriteWord va v m s).Post (PswIs p) :=
  (memWriteWord_effect va v m s).mono fun _ he => h.bus he

theorem memWriteByte_pswIs (va : Word) (v : Byte) (m : Option Space) : (memWriteByte va v m s).Post (PswIs p) := by
  cases m with
  | none => trivial
  | some sp =>
    refine Res.Post.bind (P := PswIs p) ((busRead_effect _ s).mono fun _ he => h.eval he.eval) (fun _ h => h)
      fun w t ht => ?_
    exact (busWrite_effect _ _ t).mono fun _ he => ht.bus he

theorem push_pswIs (v : Word) : (push v s).Post (PswIs p) := memWriteWord_pswIs (h.writeReg .sp _) _ _ _

theorem storeWord_pswIs (l : Loc) (v : Word) : (storeWord l v s).Post (PswIs p) := by
  cases l with
  | reg r => exact h.writeReg r v
  | mem va => exact memWriteWord_pswIs h va v _

theorem storeByte_pswIs (l : Loc) (v : Byte) : (storeByte l v s).Post (PswIs p) := by
  cases l with
  | reg r => exact h.writeReg r _
  | mem va => exact memWriteByte_pswIs h va v _

theorem storeByteExtended_pswIs (l : Loc) (v : Byte) : (storeByteExtended l v s).Post (PswIs p) := by
  cases l with
  | reg r => exact h.writeReg r _
  | mem va => exact memWriteByte_pswIs h va v _

theorem storePrev_pswIs (l : Loc) (v : Word) : (storePrev l v s).Post (PswIs p) := by
  cases l with
  | mem va => exact memWriteWord_pswIs h va v _
  | reg r =>
    simp only [storePrev, writePrevReg]
    split
    · trivial
    · cases r with
      | sp => exact h.of_same (by simp) (by simp)
      | r0 | r1 | r2 | r3 | r4 | r5 | pc => exact h.writeReg _ v

theorem jumpTarget_pswIs (dd : Operand) : (jumpTarget dd s).Post (PswIs p) := by
  unfold jumpTarget
  split
  · refine (resolve_pswIs h dd .word).bind (fun _ h => h) fun l t ht => ?_
    cases l with
    | reg r => trivial
    | mem va => exact ht
  · trivial

end

/-! ## The end of an instruction's work -/

/-- The fields of the PSW but its flags are those of `p`. -/
def SystemFieldsAre (p : Psw) (t : State) : Prop :=
  t.psw.cm = p.cm ∧ t.psw.pm = p.pm ∧ t.psw.rs = p.rs ∧ t.psw.pri = p.pri ∧ t.psw.t = p.t

/-- Work that ends with only the flags of the PSW changed, or aborts with nothing of it changed. -/
def FlagsOnly (p : Psw) : Res Unit → Prop
  | .ok _ t => SystemFieldsAre p t
  | .abort u => u.psw = p
  | .fatal _ => True

theorem FlagsOnly.bind {α : Type} {p : Psw} {r : Res α} {k : α → State → Res Unit} (hr : r.Post (PswIs p))
    (hk : ∀ a t, PswIs p t → FlagsOnly p (k a t)) : FlagsOnly p (r.bind k) := by
  cases r with
  | ok a t => exact hk a t hr
  | abort u => exact hr.psw
  | fatal f => trivial

theorem PswIs.flagsOnly {p : Psw} {s : State} (h : PswIs p s) : FlagsOnly p (.ok () s) := by
  obtain ⟨rfl, -⟩ := h
  exact ⟨rfl, rfl, rfl, rfl, rfl⟩

theorem PswIs.flagsOnly_applyFlags {p : Psw} {s : State} (h : PswIs p s) (u : FlagUpdate) :
    FlagsOnly p (.ok () (s.applyFlags u)) := by
  obtain ⟨rfl, -⟩ := h
  exact ⟨rfl, rfl, rfl, rfl, rfl⟩

theorem PswIs.flagsOnly_finishFlags {p : Psw} {s : State} (h : PswIs p s) (wrote : Bool) (u : FlagUpdate) :
    FlagsOnly p (.ok () (s.finishFlags wrote u)) := by
  cases wrote with
  | true => exact h.flagsOnly
  | false => exact h.flagsOnly_applyFlags u

section
variable {p : Psw} {s : State} (h : PswIs p s)
include h

theorem testWord_flagsOnly (dd : Operand) (f : Word → FlagUpdate) : FlagsOnly p (testWord dd f s) :=
  .bind (sourceWord_pswIs h dd) fun _ _ ht => ht.flagsOnly_applyFlags _

theorem testByte_flagsOnly (dd : Operand) (f : Byte → FlagUpdate) : FlagsOnly p (testByte dd f s) :=
  .bind (sourceByte_pswIs h dd) fun _ _ ht => ht.flagsOnly_applyFlags _

theorem putWord_flagsOnly (dd : Operand) (v : Word) (u : FlagUpdate) : FlagsOnly p (putWord dd v u s) :=
  .bind (resolve_pswIs h dd .word) fun l _ ht => .bind (storeWord_pswIs ht l v) fun _ _ hw =>
    hw.flagsOnly_finishFlags _ u

theorem putByte_flagsOnly (dd : Operand) (v : Byte) (u : FlagUpdate) : FlagsOnly p (putByte dd v u s) :=
  .bind (resolve_pswIs h dd .byte) fun l _ ht => .bind (storeByte_pswIs ht l v) fun _ _ hw =>
    hw.flagsOnly_finishFlags _ u

theorem putByteExtended_flagsOnly (dd : Operand) (v : Byte) (u : FlagUpdate) :
    FlagsOnly p (putByteExtended dd v u s) :=
  .bind (resolve_pswIs h dd .byte) fun l _ ht => .bind (storeByteExtended_pswIs ht l v) fun _ _ hw =>
    hw.flagsOnly_finishFlags _ u

theorem modifyWord_flagsOnly (dd : Operand) (f : Word → Word × FlagUpdate) : FlagsOnly p (modifyWord dd f s) :=
  .bind (resolve_pswIs h dd .word) fun l _ ht => .bind (loadWord_pswIs ht l) fun _ _ hd =>
    .bind (storeWord_pswIs hd l _) fun _ _ hw => hw.flagsOnly_finishFlags _ _

theorem modifyByte_flagsOnly (dd : Operand) (f : Byte → Byte × FlagUpdate) : FlagsOnly p (modifyByte dd f s) :=
  .bind (resolve_pswIs h dd .byte) fun l _ ht => .bind (loadByte_pswIs ht l) fun _ _ hd =>
    .bind (storeByte_pswIs hd l _) fun _ _ hw => hw.flagsOnly_finishFlags _ _

theorem moveFromPrevious_flagsOnly (ss : Operand) : FlagsOnly p (moveFromPrevious ss s) :=
  .bind (resolve_pswIs h ss .word) fun l _ ht => .bind (loadPrev_pswIs ht l) fun v _ hd =>
    .bind (push_pswIs hd v) fun _ _ hw => hw.flagsOnly_finishFlags _ _

theorem moveToPrevious_flagsOnly (dd : Operand) : FlagsOnly p (moveToPrevious dd s) :=
  .bind (pop_pswIs h) fun v _ hd => .bind (resolve_pswIs hd dd .word) fun l _ ht =>
    .bind (storePrev_pswIs ht l v) fun _ _ hw => hw.flagsOnly_finishFlags _ _

theorem branch_flagsOnly (c : Bool) (offset : BitVec 8) : FlagsOnly p (.ok () (branch c offset s)) := by
  cases c with
  | true => exact (h.withPc _).flagsOnly
  | false => exact h.flagsOnly

theorem divide_flagsOnly (r : Reg) (b : Int) : FlagsOnly p (.ok () (divide r b s)) := by
  unfold divide
  simp only
  split
  · exact h.flagsOnly_applyFlags _
  · split
    · exact ((h.writeReg _ _).writeReg _ _).flagsOnly_applyFlags _
    · exact (h.of_same (t := s.drawn) rfl rfl).flagsOnly_applyFlags _

end

/-! ## Every instruction that neither loads a PSW nor sets the priority -/

/-- The outcome of work that ends in nothing more than its flags. -/
def EndsInFlags (p : Psw) (o : Host.Outcome State Fault Refusal) : Prop := ∃ r, o = complete r ∧ FlagsOnly p r

theorem EndsInFlags.ok {p : Psw} {t : State} (h : FlagsOnly p (.ok () t)) : EndsInFlags p (complete (.ok () t)) :=
  ⟨_, rfl, h⟩

/-- R417: every instruction but RTT, RTI, the trap instructions and SPL. -/
theorem exec_endsInFlags {p : Psw} {s : State} (h : PswIs p s) {i : Instr} (hrtt : i ≠ .rtt) (hrti : i ≠ .rti)
    (hemt : ∀ k, i ≠ .emt k) (htrap : ∀ k, i ≠ .trap k) (hbpt : i ≠ .bpt) (hiot : i ≠ .iot) (hspl : ∀ n, i ≠ .spl n) :
    EndsInFlags p (exec i s) := by
  cases i with
  | rtt => exact absurd rfl hrtt
  | rti => exact absurd rfl hrti
  | emt k => exact absurd rfl (hemt k)
  | trap k => exact absurd rfl (htrap k)
  | bpt => exact absurd rfl hbpt
  | iot => exact absurd rfl hiot
  | spl n => exact absurd rfl (hspl n)
  | mov src dst => exact ⟨_, rfl, .bind (sourceWord_pswIs h src) fun _ _ ht => putWord_flagsOnly ht dst _ _⟩
  | movb src dst => exact ⟨_, rfl, .bind (sourceByte_pswIs h src) fun _ _ ht => putByteExtended_flagsOnly ht dst _ _⟩
  | cmp src dst | bit src dst =>
    exact ⟨_, rfl, .bind (sourceWord_pswIs h src) fun _ _ ht => testWord_flagsOnly ht dst _⟩
  | cmpb src dst | bitb src dst =>
    exact ⟨_, rfl, .bind (sourceByte_pswIs h src) fun _ _ ht => testByte_flagsOnly ht dst _⟩
  | bic src dst | bis src dst | add src dst | sub src dst =>
    exact ⟨_, rfl, .bind (sourceWord_pswIs h src) fun _ _ ht => modifyWord_flagsOnly ht dst _⟩
  | bicb src dst | bisb src dst =>
    exact ⟨_, rfl, .bind (sourceByte_pswIs h src) fun _ _ ht => modifyByte_flagsOnly ht dst _⟩
  | jmp dst => exact ⟨_, rfl, .bind (jumpTarget_pswIs h dst) fun _ _ ht => (ht.withPc _).flagsOnly⟩
  | jsr r dst =>
    exact ⟨_, rfl, .bind (jumpTarget_pswIs h dst) fun _ _ ht => .bind (push_pswIs ht _) fun _ _ hw =>
      ((hw.writeReg _ _).withPc _).flagsOnly⟩
  | rts r => exact ⟨_, rfl, .bind (pop_pswIs (h.withPc _)) fun _ _ ht => (ht.writeReg _ _).flagsOnly⟩
  | mark nn =>
    exact ⟨_, rfl, .bind (pop_pswIs ((h.writeReg _ _).withPc _)) fun _ _ ht => (ht.writeReg _ _).flagsOnly⟩
  | mul r src | ashc r src =>
    exact ⟨_, rfl, .bind (sourceWord_pswIs h src) fun _ _ ht =>
      ((ht.writeReg _ _).writeReg _ _).flagsOnly_applyFlags _⟩
  | ash r src =>
    exact ⟨_, rfl, .bind (sourceWord_pswIs h src) fun _ _ ht => (ht.writeReg _ _).flagsOnly_applyFlags _⟩
  | div r src => exact ⟨_, rfl, .bind (sourceWord_pswIs h src) fun _ _ ht => divide_flagsOnly ht r _⟩
  | xor r dst => exact ⟨_, rfl, modifyWord_flagsOnly h dst _⟩
  | sob r nn =>
    refine .ok ?_
    split
    · exact (h.writeReg _ _).flagsOnly
    · exact ((h.writeReg _ _).withPc _).flagsOnly
  | br o | bne o | beq o | bge o | blt o | bgt o | bpl o | bhi o | blos o | bcc o | bcs o | ble o | bmi o | bvc o
  | bvs o => exact ⟨_, rfl, branch_flagsOnly h _ o⟩
  | clr dst | sxt dst => exact ⟨_, rfl, putWord_flagsOnly h dst _ _⟩
  | clrb dst => exact ⟨_, rfl, putByte_flagsOnly h dst _ _⟩
  | tst dst => exact ⟨_, rfl, testWord_flagsOnly h dst _⟩
  | tstb dst => exact ⟨_, rfl, testByte_flagsOnly h dst _⟩
  | inc dst | swab dst | asl dst | com dst | neg dst | dec dst | adc dst | sbc dst | ror dst | rol dst | asr dst =>
    exact ⟨_, rfl, modifyWord_flagsOnly h dst _⟩
  | incb dst | comb dst | negb dst | decb dst | adcb dst | sbcb dst | rorb dst | rolb dst | asrb dst | aslb dst =>
    exact ⟨_, rfl, modifyByte_flagsOnly h dst _⟩
  | mfpi src | mfpd src => exact ⟨_, rfl, moveFromPrevious_flagsOnly h src⟩
  | mtpi dst | mtpd dst => exact ⟨_, rfl, moveToPrevious_flagsOnly h dst⟩
  | halt | wait => exact .ok (h.of_same (t := s.withRun _) rfl rfl).flagsOnly
  | reset =>
    refine .ok ?_
    split
    · exact (h.of_same rfl rfl).flagsOnly
    · exact (h.of_same rfl rfl).flagsOnly
  | ccc m | scc m => exact ⟨_, rfl, h.flagsOnly_applyFlags _⟩

/-- R355: SPL writes the priority at most. -/
theorem psw_of_exec_spl {n : BitVec 3} {s t : State} (h : exec (.spl n) s = .next t) :
    t.psw = s.psw ∨ t.psw = { s.psw with pri := n } := by
  have h : (if s.psw.cm = .kernel then s.withPsw { s.psw with pri := n } else s) = t := by
    simpa [exec, execSpl] using h
  split at h
  · exact .inr (by rw [← h]; rfl)
  · exact .inl (by rw [h])

/-- A next state whose work ends in its flags has the system fields it started with, or comes from the bus-timeout
trap, taken where the work aborted. -/
theorem EndsInFlags.next {p : Psw} {o : Host.Outcome State Fault Refusal} {t : State} (h : EndsInFlags p o)
    (ho : o = .next t) : SystemFieldsAre p t ∨ ∃ u, u.psw = p ∧ trapEntry 0o4 u = .ok () t := by
  obtain ⟨r, rfl, hr⟩ := h
  rcases complete_eq_next ho with rfl | ⟨u, rfl, hentry⟩
  · exact .inl hr
  · exact .inr ⟨u, hr, hentry⟩

end Sys2Proof.Machine

namespace Sys2Proof.Proofs
open Sys2Proof.Machine

/-- Settles O55: SPL apart, the work of each instruction ends in its flags, or aborts with the PSW as it was. -/
theorem systemFieldsChangeOnlyByLoads : Obligations.SystemFieldsChangeOnlyByLoads := by
  intro i s t hunmapped hrtt hrti hemt htrap hbpt hiot hexec
  by_cases hspl : ∃ n, i = .spl n
  · obtain ⟨n, rfl⟩ := hspl
    refine .inl ?_
    rcases psw_of_exec_spl hexec with h | h <;> rw [h] <;> exact ⟨rfl, rfl, rfl, rfl, fun hn => absurd rfl (hn n)⟩
  · have hends := exec_endsInFlags ⟨rfl, hunmapped⟩ hrtt hrti hemt htrap hbpt hiot (not_exists.1 hspl)
    refine (hends.next hexec).imp_left ?_
    rintro ⟨hcm, hpm, hrs, hpri, ht⟩
    exact ⟨hcm, hpm, hrs, ht, fun _ => hpri⟩

end Sys2Proof.Proofs
end

/-! PROOF. The instructions that work on registers alone (41_double_operand.md R170): with every specifier in mode 0 an
instruction is register writes and a flag update. -/
section
namespace Sys2Proof.Machine

/-! ## What register writes and flag updates leave alone -/

/-- Registers, flags and the draw counter apart, `t` is `s`. -/
structure RegisterWork (s t : State) : Prop where
  ram : t.ram = s.ram
  mmu : t.mmu = s.mmu
  history : t.history = s.history
  system : systemFieldsSame s t
  control : controlSame s t

theorem RegisterWork.refl (s : State) : RegisterWork s s :=
  ⟨rfl, rfl, rfl, ⟨rfl, rfl, rfl, rfl, rfl⟩, ⟨rfl, rfl, rfl, rfl, rfl⟩⟩

theorem RegisterWork.writeReg {s t : State} (h : RegisterWork s t) (r : Reg) (v : Word) :
    RegisterWork s (writeReg r v t) := by
  obtain ⟨hram, hmmu, hhistory, hsystem, hcontrol⟩ := h
  exact ⟨by simpa using hram, by simpa using hmmu, by simpa using hhistory, by simpa [systemFieldsSame] using hsystem,
    by simpa [controlSame] using hcontrol⟩

theorem RegisterWork.drawn {s t : State} (h : RegisterWork s t) : RegisterWork s t.drawn :=
  ⟨h.ram, h.mmu, h.history, h.system, h.control⟩

theorem RegisterWork.applyFlags {s t : State} (h : RegisterWork s t) (u : FlagUpdate) :
    RegisterWork s (t.applyFlags u) := ⟨h.ram, h.mmu, h.history, h.system, h.control⟩

/-- The work completes with registers and flags written. -/
def Completes (s : State) (r : Res Unit) : Prop := ∃ t, r = .ok () t ∧ RegisterWork s t

theorem Completes.next {s : State} {r : Res Unit} (h : Completes s r) :
    ∃ t, complete r = .next t ∧ RegisterWork s t := by
  obtain ⟨t, rfl, hwork⟩ := h
  exact ⟨t, rfl, hwork⟩

/-! ## Operands in mode 0 (R145) -/

section
variable {dd : Operand} (hmode : dd.mode = .register) (s : State)
include hmode

theorem Operand.eq_register_of_mode : dd = ⟨.register, dd.reg⟩ := by
  obtain ⟨mode, reg⟩ := dd
  cases hmode
  rfl

theorem completes_bind_sourceWord {k : Word → State → Res Unit} (hk : ∀ x, Completes s (k x s)) :
    Completes s ((sourceWord dd s).bind k) := by
  rw [Operand.eq_register_of_mode hmode]
  exact hk _

theorem completes_bind_sourceByte {k : Byte → State → Res Unit} (hk : ∀ x, Completes s (k x s)) :
    Completes s ((sourceByte dd s).bind k) := by
  rw [Operand.eq_register_of_mode hmode]
  exact hk _

theorem completes_testWord (f : Word → FlagUpdate) : Completes s (testWord dd f s) :=
  completes_bind_sourceWord hmode s fun _ => ⟨_, rfl, (RegisterWork.refl s).applyFlags _⟩

theorem completes_testByte (f : Byte → FlagUpdate) : Completes s (testByte dd f s) :=
  completes_bind_sourceByte hmode s fun _ => ⟨_, rfl, (RegisterWork.refl s).applyFlags _⟩

theorem completes_putWord (v : Word) (u : FlagUpdate) : Completes s (putWord dd v u s) := by
  rw [Operand.eq_register_of_mode hmode]
  exact ⟨_, rfl, ((RegisterWork.refl s).writeReg _ _).applyFlags u⟩

theorem completes_putByte (v : Byte) (u : FlagUpdate) : Completes s (putByte dd v u s) := by
  rw [Operand.eq_register_of_mode hmode]
  exact ⟨_, rfl, ((RegisterWork.refl s).writeReg _ _).applyFlags u⟩

theorem completes_putByteExtended (v : Byte) (u : FlagUpdate) : Completes s (putByteExtended dd v u s) := by
  rw [Operand.eq_register_of_mode hmode]
  exact ⟨_, rfl, ((RegisterWork.refl s).writeReg _ _).applyFlags u⟩

theorem completes_modifyWord (f : Word → Word × FlagUpdate) : Completes s (modifyWord dd f s) := by
  rw [Operand.eq_register_of_mode hmode]
  exact ⟨_, rfl, ((RegisterWork.refl s).writeReg _ _).applyFlags _⟩

theorem completes_modifyByte (f : Byte → Byte × FlagUpdate) : Completes s (modifyByte dd f s) := by
  rw [Operand.eq_register_of_mode hmode]
  exact ⟨_, rfl, ((RegisterWork.refl s).writeReg _ _).applyFlags _⟩

end

theorem registerWork_divide (r : Reg) (b : Int) (s : State) : RegisterWork s (divide r b s) := by
  unfold divide
  simp only
  split
  · exact (RegisterWork.refl s).applyFlags _
  · split
    · exact (((RegisterWork.refl s).writeReg _ _).writeReg _ _).applyFlags _
    · exact (RegisterWork.refl s).drawn.applyFlags _

/-- R170: each instruction of `registerOnly` completes. -/
theorem exec_registerOnly {i : Instr} (hi : registerOnly i = true) (s : State) :
    ∃ r, exec i s = complete r ∧ Completes s r := by
  cases i with
  | mov src dst =>
    obtain ⟨hsrc, hdst⟩ : src.mode = .register ∧ dst.mode = .register := by simpa [registerOnly] using hi
    exact ⟨_, rfl, completes_bind_sourceWord hsrc s fun _ => completes_putWord hdst s _ _⟩
  | movb src dst =>
    obtain ⟨hsrc, hdst⟩ : src.mode = .register ∧ dst.mode = .register := by simpa [registerOnly] using hi
    exact ⟨_, rfl, completes_bind_sourceByte hsrc s fun _ => completes_putByteExtended hdst s _ _⟩
  | cmp src dst | bit src dst =>
    obtain ⟨hsrc, hdst⟩ : src.mode = .register ∧ dst.mode = .register := by simpa [registerOnly] using hi
    exact ⟨_, rfl, completes_bind_sourceWord hsrc s fun _ => completes_testWord hdst s _⟩
  | cmpb src dst | bitb src dst =>
    obtain ⟨hsrc, hdst⟩ : src.mode = .register ∧ dst.mode = .register := by simpa [registerOnly] using hi
    exact ⟨_, rfl, completes_bind_sourceByte hsrc s fun _ => completes_testByte hdst s _⟩
  | bic src dst | bis src dst | add src dst | sub src dst =>
    obtain ⟨hsrc, hdst⟩ : src.mode = .register ∧ dst.mode = .register := by simpa [registerOnly] using hi
    exact ⟨_, rfl, completes_bind_sourceWord hsrc s fun _ => completes_modifyWord hdst s _⟩
  | bicb src dst | bisb src dst =>
    obtain ⟨hsrc, hdst⟩ : src.mode = .register ∧ dst.mode = .register := by simpa [registerOnly] using hi
    exact ⟨_, rfl, completes_bind_sourceByte hsrc s fun _ => completes_modifyByte hdst s _⟩
  | mul r src | ashc r src =>
    have hsrc : src.mode = .register := by simpa [registerOnly] using hi
    exact ⟨_, rfl, completes_bind_sourceWord hsrc s fun _ =>
      ⟨_, rfl, (((RegisterWork.refl s).writeReg _ _).writeReg _ _).applyFlags _⟩⟩
  | ash r src =>
    have hsrc : src.mode = .register := by simpa [registerOnly] using hi
    exact ⟨_, rfl, completes_bind_sourceWord hsrc s fun _ =>
      ⟨_, rfl, ((RegisterWork.refl s).writeReg _ _).applyFlags _⟩⟩
  | div r src =>
    have hsrc : src.mode = .register := by simpa [registerOnly] using hi
    exact ⟨_, rfl, completes_bind_sourceWord hsrc s fun _ => ⟨_, rfl, registerWork_divide r _ s⟩⟩
  | clr dst | sxt dst =>
    have hdst : dst.mode = .register := by simpa [registerOnly] using hi
    exact ⟨_, rfl, completes_putWord hdst s _ _⟩
  | clrb dst =>
    have hdst : dst.mode = .register := by simpa [registerOnly] using hi
    exact ⟨_, rfl, completes_putByte hdst s _ _⟩
  | tst dst =>
    have hdst : dst.mode = .register := by simpa [registerOnly] using hi
    exact ⟨_, rfl, completes_testWord hdst s _⟩
  | tstb dst =>
    have hdst : dst.mode = .register := by simpa [registerOnly] using hi
    exact ⟨_, rfl, completes_testByte hdst s _⟩
  | xor _ dst | inc dst | swab dst | asl dst | com dst | neg dst | dec dst | adc dst | sbc dst | ror dst | rol dst
  | asr dst =>
    have hdst : dst.mode = .register := by simpa [registerOnly] using hi
    exact ⟨_, rfl, completes_modifyWord hdst s _⟩
  | incb dst | comb dst | negb dst | decb dst | adcb dst | sbcb dst | rorb dst | rolb dst | asrb dst | aslb dst =>
    have hdst : dst.mode = .register := by simpa [registerOnly] using hi
    exact ⟨_, rfl, completes_modifyByte hdst s _⟩
  | _ => cases hi

end Sys2Proof.Machine

namespace Sys2Proof.Proofs
open Sys2Proof.Machine

/-- Settles O57: in mode 0 no access can fail to answer, and what is left is register work. -/
theorem registerOnlyInstructionsAlwaysComplete : Obligations.RegisterOnlyInstructionsAlwaysComplete := by
  intro i s hi
  obtain ⟨r, hexec, hdone⟩ := exec_registerOnly hi s
  obtain ⟨t, hnext, hwork⟩ := hdone.next
  exact ⟨t, hexec.trans hnext, hwork.ram, hwork.mmu, hwork.history, hwork.system, hwork.control⟩

end Sys2Proof.Proofs
end

/-! PROOF. Register writes, the PSW word, and the state at reset and to the host (10_state.md R22 to R28, R39 to
R41). -/
section
namespace Sys2Proof.Machine

/-! ## The PSW word (R27, R28) -/

@[simp] theorem Mode.ofBits_toBits (m : Mode) : Mode.ofBits m.toBits = some m := by cases m <;> rfl

/-- R29: 0b10 is the one value that is no mode. -/
theorem Mode.ofBits_eq_none {b : BitVec 2} : Mode.ofBits b = none ↔ b = 0b10#2 := by revert b; decide

theorem Mode.toBits_of_ofBits {b : BitVec 2} {m : Mode} (h : Mode.ofBits b = some m) : m.toBits = b := by
  revert h b
  cases m <;> decide

theorem pack_fields (p : Psw) :
    p.pack.extractLsb' 14 2 = p.cm.toBits ∧ p.pack.extractLsb' 12 2 = p.pm ∧ p.pack.getLsbD 11 = p.rs ∧
    p.pack.extractLsb' 8 3 = 0#3 ∧ p.pack.extractLsb' 5 3 = p.pri ∧ p.pack.getLsbD 4 = p.t ∧
    p.pack.getLsbD 3 = p.n ∧ p.pack.getLsbD 2 = p.z ∧ p.pack.getLsbD 1 = p.v ∧ p.pack.getLsbD 0 = p.c := by
  unfold Psw.pack
  refine ⟨?_, ?_, ?_, ?_, ?_, ?_, ?_, ?_, ?_, ?_⟩
  case refine_1 | refine_2 | refine_5 =>
    simp (disch := omega) only [extract_append_high, extract_append_low, extract_self, Nat.reduceSub]
  case refine_4 =>
    simp (disch := omega) only [extract_append_high, extract_append_low, extract_self, Nat.reduceSub]
    rfl
  all_goals
    simp only [BitVec.getLsbD_append]
    simp

theorem pack_zero : Psw.zero.pack = 0 := by decide

/-- R28: every field comes back. -/
theorem unpack_pack (p : Psw) : Psw.unpack p.pack = some p := by
  obtain ⟨hcm, hpm, hrs, -, hpri, ht, hn, hz, hv, hc⟩ := pack_fields p
  simp only [Psw.unpack, hcm, Mode.ofBits_toBits, hpm, hrs, hpri, ht, hn, hz, hv, hc]

theorem unpack_eq_none {w : Word} : Psw.unpack w = none ↔ w.extractLsb' 14 2 = 0b10#2 := by
  rw [← Mode.ofBits_eq_none, Psw.unpack]
  split
  · next h => simp [h]
  · next h => simp [h]

/-- R27, R28: bits 10:8 have no storage. -/
theorem pack_of_unpack {w : Word} {p : Psw} (h : Psw.unpack w = some p) : p.pack = w &&& 0o174377 := by
  unfold Psw.unpack at h
  split at h
  · cases h
  · next m hm =>
    have hcm := Mode.toBits_of_ofBits hm
    cases h
    apply BitVec.eq_of_getLsbD_eq
    intro i hi
    simp only [Psw.pack, hcm, BitVec.getLsbD_append, BitVec.getLsbD_and, BitVec.getLsbD_extractLsb']
    interval_cases i <;> simp

/-! ## The registers as the host numbers them (R39, R40) -/

/-- R40: an index outside the map reads no register. -/
theorem readRegister_of_gt {k : Nat} (hk : 15 < k) (s : State) :
    readRegister k s = .error (.invalidRegisterIndex k s.hostAnnotation) := by
  obtain ⟨m, rfl⟩ : ∃ m, k = m + 16 := ⟨k - 16, by omega⟩
  rfl

theorem writeRegister_of_gt {k : Nat} (hk : 15 < k) (v : Word) (s : State) :
    writeRegister k v s = .fault (.invalidRegisterIndex k s.hostAnnotation) := by
  obtain ⟨m, rfl⟩ : ∃ m, k = m + 16 := ⟨k - 16, by omega⟩
  rfl

end Sys2Proof.Machine

namespace Sys2Proof.Proofs
open Sys2Proof.Machine

/-- Settles O7: reading after a write, and the frame of a register write. -/
theorem registerWriteTouchesOneSlot : Obligations.RegisterWriteTouchesOneSlot := by
  intro r v s
  have hframe := evalEffect_writeReg r v s
  exact ⟨readReg_writeReg_same r v s, fun q hq => readReg_writeReg_other hq v s, hiddenSlotsSame_writeReg r v s,
    hframe.psw, hframe.mmu, hframe.ram, writeReg_history r v s, hframe.control⟩

/-- Settles O9: the fields of the packed word one by one, and the word rebuilt from what unpacks. -/
theorem pswPacking : Obligations.PswPacking :=
  ⟨fun p => ⟨unpack_pack p, pack_fields p⟩, fun _ => ⟨unpack_eq_none, fun _ => pack_of_unpack⟩⟩

/-- Settles O5: every field `init()` sets is a zero of the reset state, and RAM and the parameters are put back. -/
theorem initState : Obligations.InitState := by
  refine ⟨fun s => ⟨⟨rfl, rfl, rfl, rfl, rfl, rfl⟩, ⟨pack_zero, rfl⟩, fun set page => ?_, rfl, rfl, rfl, rfl, rfl⟩, rfl,
    rfl, rfl⟩
  cases set <;> simp [State.init, State.resetWith, Mmu.zero, Mmu.par, Mmu.pdr]

/-- Settles O10: each index of the map names a slot of its own. -/
theorem hostRegisterAccess : Obligations.HostRegisterAccess := by
  intro k v s
  refine ⟨rfl, fun hk => ?_, fun hk => ⟨writeRegister_of_gt hk v s, readRegister_of_gt hk s⟩⟩
  interval_cases k
  all_goals
    refine ⟨_, rfl, rfl, fun j hj => ?_, rfl, rfl, rfl, rfl, rfl, rfl, rfl, rfl, rfl, rfl⟩
    unfold readRegister
    split <;> simp [State.hostAnnotation] at hj ⊢

/-- Settles O52: the parameters at reset are literals, and no RAM byte is listed and no offer pending. -/
theorem resetMeetsTheInvariant : Obligations.ResetMeetsTheInvariant := by
  refine ⟨⟨?_, rfl, ?_, ?_⟩, rfl, rfl, rfl, rfl⟩
  · decide
  all_goals decide

/-- Settles O1: one word of each format, decoded. -/
theorem writtenWordsDecode : Obligations.WrittenWordsDecode := by
  unfold Obligations.WrittenWordsDecode
  decide

end Sys2Proof.Proofs
end

/-! PROOF. Translation with the MMU on, the page registers, and the window the MMU claims (20_memory.md R73 to R88). -/
section
namespace Sys2Proof.Machine

/-! ## Translation by the page's PAR -/

/-- R75: the sum is not truncated. -/
theorem translate_mmuOn {s : State} (hon : s.mmu.enabled = true) (set : PageSet) (va : Word) :
    s.translate (.paged set) va = (s.mmu.par set (va.extractLsb' 13 3)).toNat * 64 + va.toNat % 8192 := by
  simp [State.translate, hon]

/-- A translation keeps bit 0 of the address, with the MMU on or off. -/
theorem translate_mod_two (s : State) (set : PageSet) (va : Word) : s.translate (.paged set) va % 2 = va.toNat % 2 := by
  cases hon : s.mmu.enabled with
  | true =>
    rw [translate_mmuOn hon]
    omega
  | false =>
    by_cases hlow : va.toNat < 0o160000
    · rw [translate_mmuOff_low hon set hlow]
    · rw [(translate_mmuOff_high hon set (Nat.le_of_not_lt hlow)).2]
      omega

/-! ## The page registers -/

@[simp] theorem enabled_withPar (m : Mmu) (set : PageSet) (page : BitVec 3) (v : BitVec 12) :
    (m.withPar set page v).enabled = m.enabled := by
  cases set <;> rfl

/-- R88: bits 11:0 of the word written, zero-extended, are what a PAR reads. -/
theorem setWidth_low12 (v : Word) : (v.extractLsb' 0 12).setWidth 16 = v &&& 0o7777 := by
  apply BitVec.eq_of_getLsbD_eq
  intro i hi
  simp only [BitVec.getLsbD_setWidth, BitVec.getLsbD_extractLsb', BitVec.getLsbD_and]
  interval_cases i <;> simp

theorem toNat_low12 (v : Word) : (v.extractLsb' 0 12).toNat = v.toNat % 4096 := by
  simp [BitVec.extractLsb'_toNat]

/-- R86: bit 0 of SR0 is the enable bit, whatever the free bits above it. -/
theorem sr0Value_bit0 (s : State) : (sr0Value s).getLsbD 0 = s.mmu.enabled := by
  rw [sr0Value, BitVec.getLsbD_append]
  simp

/-! ## The window (R84) -/

theorem address_of_pageAt {base pa : Nat} {page : BitVec 3} (h : pageAt base pa = some page) :
    pa = base + 2 * page.toNat := by
  unfold pageAt at h
  split at h
  · next hin =>
    cases h
    simp only [BitVec.toNat_ofNat]
    omega
  · cases h

/-- An address with a register is that register's. -/
theorem eq_mmuAddress {pa : Nat} {r : MmuReg} (h : mmuRegAt pa = some r) : pa = mmuAddress r := by
  unfold mmuRegAt at h
  split at h
  · next hpa => cases h; exact hpa
  split at h
  · next hpa => cases h; exact hpa
  split at h
  · next hpa => cases h; exact hpa
  simp only [Option.or_eq_some_iff, Option.map_eq_some_iff] at h
  rcases h with ((⟨page, hpage, rfl⟩ | ⟨-, page, hpage, rfl⟩) | ⟨-, page, hpage, rfl⟩) | ⟨-, page, hpage, rfl⟩
  all_goals exact address_of_pageAt hpage

end Sys2Proof.Machine

namespace Sys2Proof.Proofs
open Sys2Proof.Machine

/-- Settles O12: the PAR has 12 bits, which bounds the sum; no PDR is among what a translation reads. -/
theorem translationWithTheMmuOn : Obligations.TranslationWithTheMmuOn := by
  intro s set va
  refine ⟨fun hon => ⟨translate_mmuOn hon set va, ?_⟩, rfl, ?_, fun sp k page v => ?_, translate_mod_two s set va⟩
  · rw [translate_mmuOn hon]
    have hpar := (s.mmu.par set (va.extractLsb' 13 3)).isLt
    omega
  · refine ⟨fun h => ?_, fun h => ?_, fun h => ?_⟩ <;> simp [State.curSpace, h, Mode.space]
  · exact translate_withMmu_withPdr s k page v sp va

/-- Settles O15: each register answers at its own address, and an address with a register is that register's. -/
theorem mmuWindow : Obligations.MmuWindow := by
  intro pa r
  refine ⟨eq_mmuAddress, ?_⟩
  rintro rfl
  exact mmuRegAt_mmuAddress r

/-- Settles O14: the state after a write to a PAR or to SR0 is the old one with that register replaced. -/
theorem pageAddressesAndEnable : Obligations.PageAddressesAndEnable := by
  intro s v hram
  refine ⟨fun set page => ⟨s.withMmu (s.mmu.withPar set page (v.extractLsb' 0 12)), busWrite_mmuAddress hram _ v, ?_,
    rfl, enabled_withPar _ _ _ _, fun k q => pdr_withPar _ _ _ _ k q, fun k q hne => ?_, fun va hon hpage => ?_⟩,
    s.withMmu { s.mmu with enabled := v.getLsbD 0 }, busWrite_mmuAddress hram .sr0 v, rfl, rfl, fun k q => ⟨rfl, rfl⟩,
    ?_⟩
  · rw [busRead_mmuAddress (by simpa using hram)]
    simp [mmuRead, par_withPar, setWidth_low12]
  · rw [withMmu_mmu, par_withPar, if_neg hne]
  · rw [translate_mmuOn (by simpa using hon), withMmu_mmu, par_withPar, if_pos (by rw [hpage]), toNat_low12]
  · refine ⟨_, _, busRead_mmuAddress (by simpa using hram) .sr0, ?_, rfl⟩
    exact sr0Value_bit0 _

end Sys2Proof.Proofs
end

/-! PROOF. RAM words and bytes, devices, the PSW on the bus, and the accesses that do not answer (20_memory.md R64 to
R90). -/
section
namespace Sys2Proof.Machine

/-! ## A byte in RAM -/

/-- A word and the byte merged into it: the byte reads back from its half (R81). -/
theorem byte_of_mergeByte (pa : Nat) (v : Byte) (w : Word) :
    (if pa % 2 = 0 then lowByte (mergeByte pa v w) else highByte (mergeByte pa v w)) = v := by
  unfold mergeByte
  split <;> simp [*]

/-- The even address of a byte's word is in RAM when the byte is. -/
theorem evenPa_lt {pa n : Nat} (h : pa < n) : evenPa pa < n := by
  unfold evenPa
  omega

theorem memReadByte_ram {va : Word} {sp : Space} {s : State} (h : s.translate sp va < s.cfg.ramSize) :
    memReadByte va (some sp) s =
      .ok (if s.translate sp va % 2 = 0 then lowByte (Memory.readWord s.ram (evenPa (s.translate sp va)))
        else highByte (Memory.readWord s.ram (evenPa (s.translate sp va)))) s := by
  simp only [memReadByte, busRead_ram (evenPa_lt h), Res.bind_ok]

theorem memWriteByte_ram {va : Word} {sp : Space} {s : State} (h : s.translate sp va < s.cfg.ramSize) (v : Byte) :
    memWriteByte va v (some sp) s =
      .ok false (s.withRam (Memory.writeWord s.ram (evenPa (s.translate sp va))
        (mergeByte (s.translate sp va) v (Memory.readWord s.ram (evenPa (s.translate sp va)))))) := by
  simp only [memWriteByte, busRead_ram (evenPa_lt h), Res.bind_ok, busWrite_ram (evenPa_lt h)]

@[simp] theorem translate_withRam (m : List Host.Cell) (s : State) (sp : Space) (va : Word) :
    (s.withRam m).translate sp va = s.translate sp va := translate_congr rfl sp va

/-! ## The bus above RAM (R64, R68 to R70, R90) -/

theorem annotation_eq (s : State) : s.annotation = ⟨s.ir, s.currentPc⟩ := rfl

section
variable {s : State} {pa : Nat} (hram : s.cfg.ramSize ≤ pa) (hmmu : mmuRegAt pa = none)
include hram hmmu

theorem busRead_aboveRam : busRead pa s =
    if s.cfg.pswMapped ∧ pa = pswAddress then .ok s.psw.pack s
    else if pa ∈ s.cfg.deviceClaims then deviceRead pa s else busFault pa s := by
  simp only [busRead, if_neg (Nat.not_lt.2 hram), hmmu]

theorem busWrite_aboveRam (v : Word) : busWrite pa v s =
    if s.cfg.pswMapped ∧ pa = pswAddress then (pswWrite v s).bind fun _ s => .ok true s
    else if pa ∈ s.cfg.deviceClaims then .ok false (deviceWrite pa v s) else busFault pa s := by
  simp only [busWrite, if_neg (Nat.not_lt.2 hram), hmmu]

end

/-- R69: no unit claims the address. -/
theorem bus_unclaimed {s : State} {pa : Nat} (h : unclaimed s pa) (v : Word) :
    busRead pa s = busFault pa s ∧ busWrite pa v s = busFault pa s := by
  obtain ⟨hram, hmmu, hpsw, hdevice⟩ := h
  rw [busRead_aboveRam hram hmmu, busWrite_aboveRam hram hmmu, if_neg hpsw, if_neg hdevice, if_neg hpsw, if_neg hdevice]
  exact ⟨rfl, rfl⟩

theorem busFault_low {α : Type} {pa : Nat} (h : pa < Config.ioBase) (s : State) : busFault (α := α) pa s = .abort s :=
  if_pos h

theorem busFault_high {α : Type} {pa : Nat} (h : Config.ioBase ≤ pa) (s : State) :
    busFault (α := α) pa s = .fatal (.busError s.annotation) := if_neg (Nat.not_lt.2 h)

end Sys2Proof.Machine

namespace Sys2Proof.Proofs
open Sys2Proof.Machine

/-- Settles O16: the store replaces two bytes of RAM, and the canonical form makes each read back. -/
theorem ramWordRoundTrip : Obligations.RamWordRoundTrip := by
  intro s pa v hwf hpa
  have hread := Memory.readWord_writeWord_same hwf pa v
  refine ⟨s.withRam (Memory.writeWord s.ram pa v), busWrite_ram hpa v, ?_, rfl, Memory.writeWord_wf hwf pa v, ?_, ?_,
    fun a h0 h1 => Memory.read_writeWord_other _ v h0 h1⟩
  · rw [busRead_ram (by simpa using hpa), withRam_ram, hread]
  · exact (lowByte_joinBytes _ _).symm.trans (congrArg lowByte hread)
  · exact (highByte_joinBytes _ _).symm.trans (congrArg highByte hread)

/-- Settles O17: the merge keeps the other byte of the word, and gives back the byte merged. -/
theorem byteStoreReplacesOneByte : Obligations.ByteStoreReplacesOneByte := by
  refine ⟨fun s va sp v hwf _ hpa => ?_, fun s r v => ?_⟩
  · refine ⟨_, memWriteByte_ram hpa v, ?_, rfl, Memory.writeWord_wf hwf _ _, fun a ha => Memory.read_mergeByte hwf v ha⟩
    rw [memReadByte_ram (by simpa using hpa)]
    simp only [translate_withRam, withRam_ram, Memory.readWord_writeWord_same hwf, byte_of_mergeByte]
  · refine ⟨_, rfl, readReg_writeReg_same _ _ _, ?_, rfl⟩
    simp [loadByte]

/-- Settles O18: each access by the claimant its address has, or by the check that comes before translation. -/
theorem stopsAndDeviceAccesses : Obligations.StopsAndDeviceAccesses := by
  intro s va v m pa b
  refine ⟨fun hodd => ?_, fun heven => ?_, ⟨rfl, rfl⟩, fun hun hlow => ?_, fun hun hhigh => ?_,
    fun hclaim hram hmmu hpsw => ?_⟩
  · simp [memReadWord, memWriteWord, hodd, annotation_eq]
  · simp [memReadWord, memWriteWord, heven, annotation_eq]
  · obtain ⟨hread, hwrite⟩ := bus_unclaimed hun v
    exact ⟨hread.trans (busFault_low hlow s), hwrite.trans (busFault_low hlow s)⟩
  · obtain ⟨hread, hwrite⟩ := bus_unclaimed hun v
    exact ⟨hread.trans (busFault_high hhigh s), hwrite.trans (busFault_high hhigh s)⟩
  · rw [busRead_aboveRam hram hmmu, busWrite_aboveRam hram hmmu, if_neg hpsw, if_pos hclaim, if_neg hpsw, if_pos hclaim]
    exact ⟨rfl, _, _, rfl⟩

/-- Settles O19: above RAM and outside the MMU window, the PSW word is claimed when mapped and by no unit otherwise. -/
theorem mappedPsw : Obligations.MappedPsw := by
  intro s v hram hdevice
  have habove : s.cfg.ramSize ≤ pswAddress := hram.trans (by decide)
  have hread := busRead_aboveRam habove mmuRegAt_pswAddress
  have hwrite := busWrite_aboveRam habove mmuRegAt_pswAddress v
  refine ⟨fun hmapped => ?_, fun hmapped => ?_⟩
  · rw [if_pos ⟨hmapped, rfl⟩] at hread hwrite
    refine ⟨hread, fun p hp => hwrite.trans ?_, fun hp => hwrite.trans ?_⟩
    · simp [pswWrite, hp]
    · simp [pswWrite, hp, annotation_eq]
  · have hun : unclaimed s pswAddress := ⟨habove, mmuRegAt_pswAddress, by simp [hmapped], hdevice⟩
    obtain ⟨hread, hwrite⟩ := bus_unclaimed hun v
    exact ⟨hread.trans (busFault_high (by decide) s), hwrite.trans (busFault_high (by decide) s)⟩

end Sys2Proof.Proofs
end

/-! PROOF. The operand modes with a pointer or displacement word, the stack, and what an aborted operand leaves
(40_step_and_operands.md R148 to R156, R160). -/
section
namespace Sys2Proof.Machine

/-- A register step is no part of what a read from RAM depends on. -/
theorem memReadWord_writeReg_ram {s : State} {va : Word} {pa : Nat} (r : Reg) (v : Word)
    (h : ramWordAt s s.curSpace va pa) :
    memReadWord va (writeReg r v s).curSpace (writeReg r v s) = .ok (Memory.readWord s.ram pa) (writeReg r v s) := by
  rw [curSpace_congr (writeReg_psw r v s),
    memReadWord_ram (ramWordAt_congr (writeReg_mmu r v s) (writeReg_cfg r v s) h), writeReg_ram]

section
variable {r : Reg} {s : State} {pa : Nat} (n : Size)

theorem resolve_autoIncDeferred_ram (h : ramWordAt s s.curSpace (readReg s r) pa) :
    resolve ⟨.autoIncDeferred, r⟩ n s = .ok (.mem (Memory.readWord s.ram pa)) (writeReg r (readReg s r + 2) s) := by
  simp only [resolve, memReadWord_writeReg_ram r _ h, Res.bind_ok]

theorem resolve_autoDecDeferred_ram (h : ramWordAt s s.curSpace (readReg s r - 2) pa) :
    resolve ⟨.autoDecDeferred, r⟩ n s = .ok (.mem (Memory.readWord s.ram pa)) (writeReg r (readReg s r - 2) s) := by
  simp only [resolve, readReg_writeReg_same, memReadWord_writeReg_ram r _ h, Res.bind_ok]

theorem resolve_index_ram (h : ramWordAt s s.curSpace s.pcr pa) :
    resolve ⟨.index, r⟩ n s =
      .ok (.mem (readReg (s.withPc (s.pcr + 2)) r + Memory.readWord s.ram pa)) (s.withPc (s.pcr + 2)) := by
  simp only [resolve, fetchWord_ram h, Res.bind_ok]

/-- R152: the pointer is read where the index mode would read its operand. -/
theorem resolve_indexDeferred_ram {qa : Nat} (h : ramWordAt s s.curSpace s.pcr pa)
    (hq : ramWordAt s s.curSpace (readReg (s.withPc (s.pcr + 2)) r + Memory.readWord s.ram pa) qa) :
    resolve ⟨.indexDeferred, r⟩ n s = .ok (.mem (Memory.readWord s.ram qa)) (s.withPc (s.pcr + 2)) := by
  have hread := memReadWord_writeReg_ram .pc (s.pcr + 2) hq
  rw [writeReg_pc] at hread
  simp only [resolve, fetchWord_ram h, Res.bind_ok, hread]

end

/-- R156: popping at the address just pushed to, in a state that differs by the word pushed alone. -/
theorem pop_after_push {s : State} {pa : Nat} (v : Word) (hwf : Memory.wf s.ram = true)
    (h : ramWordAt s s.curSpace (readReg s .sp - 2) pa) :
    pop ((writeReg .sp (readReg s .sp - 2) s).withRam (Memory.writeWord s.ram pa v)) =
      .ok v (s.withRam (Memory.writeWord s.ram pa v)) := by
  rw [← writeReg_withRam]
  have hsp := readReg_writeReg_same .sp (readReg s .sp - 2) (s.withRam (Memory.writeWord s.ram pa v))
  have hat : ramWordAt (writeReg .sp (readReg s .sp - 2) (s.withRam (Memory.writeWord s.ram pa v)))
      s.curSpace (readReg s .sp - 2) pa := ramWordAt_congr (by simp) (by simp) h
  have hspace := curSpace_congr (s := s)
    (writeReg_psw .sp (readReg s .sp - 2) (s.withRam (Memory.writeWord s.ram pa v)))
  rw [pop_ram (pa := pa) (by rwa [hsp, hspace]), hsp, writeReg_ram, withRam_ram,
    Memory.readWord_writeWord_same hwf, writeReg_twice, BitVec.sub_add_cancel]
  congr 1
  exact writeReg_readReg .sp (s.withRam _)

end Sys2Proof.Machine

namespace Sys2Proof.Proofs
open Sys2Proof.Machine

/-- Settles O21: each mode by its own lemma. -/
theorem pointerAndIndexModes : Obligations.PointerAndIndexModes := by
  intro r n s pa qa
  exact ⟨resolve_autoIncDeferred_ram n, resolve_autoDecDeferred_ram n,
    fun h => ⟨resolve_index_ram n h, resolve_indexDeferred_ram n h⟩⟩

/-- Settles O22: the push stores one word below SP, and the pop reads it back and steps SP over it. -/
theorem pushThenPop : Obligations.PushThenPop := by
  intro v s pa hwf h
  exact ⟨_, push_ram v h, rfl, pop_after_push v hwf h⟩

/-- Settles O24: resolving and reading an operand change no more than its register steps and PC, up to an abort too. -/
theorem abortedOperandKeepsTheRest : Obligations.AbortedOperandKeepsTheRest := by
  intro o n s u habort
  have h : EvalEffect (steps o) s u := by
    rcases habort with h | ⟨-, h⟩ | ⟨-, h⟩
    · exact (resolve_effect o n s).of_abort h
    · exact (sourceWord_effect o s).of_abort h
    · exact (sourceByte_effect o s).of_abort h
  exact ⟨h.psw, h.mmu, h.ram, h.control, h.regs, h.history⟩

end Sys2Proof.Proofs
end

/-! PROOF. The instructions that store through a destination specifier (40_step_and_operands.md R157 to R160): how an
access that does not answer ends them, and their frame. Both follow from which access pattern each one is. -/
section
namespace Sys2Proof.Machine

/-! ## The pattern of each instruction -/

/-- The work from state `t` is an access pattern on `dst` that stores (W or RMW of R159); `reads` says that it reads
the destination first. -/
inductive StorePattern (dst : Operand) (t : State) : Size → Bool → Res Unit → Prop where
  | modifyWord (f : Word → Word × FlagUpdate) : StorePattern dst t .word true (modifyWord dst f t)
  | modifyByte (f : Byte → Byte × FlagUpdate) : StorePattern dst t .byte true (modifyByte dst f t)
  | putWord (v : Word) (u : FlagUpdate) : StorePattern dst t .word false (putWord dst v u t)
  | putByte (v : Byte) (u : FlagUpdate) : StorePattern dst t .byte false (putByte dst v u t)
  | putByteExtended (v : Byte) (u : FlagUpdate) : StorePattern dst t .byte false (putByteExtended dst v u t)

/-- The outcome is that of a pattern on `dst` from `t`, of the kind the instruction `i` has. -/
def StoresBy (i : Instr) (dst : Operand) (n : Size) (t : State) (o : Host.Outcome State Fault Refusal) : Prop :=
  ∃ r reads, o = complete r ∧ StorePattern dst t n reads r ∧ (writesOnly i ↔ reads = false)

/-- Once the source is read, an instruction that stores is a pattern on its destination. -/
theorem exec_storesBy {i : Instr} {src : Option Operand} {dst : Operand} {n : Size} {s t : State}
    (hi : storesTo i = some (src, dst, n)) (hread : sourceRead src n s t) : StoresBy i dst n t (exec i s) := by
  cases i with
  | mov a b =>
    cases hi
    obtain ⟨x, hx⟩ := hread
    exact ⟨_, _, complete_bind hx, .putWord _ _, by simp [writesOnly]⟩
  | movb a b =>
    cases hi
    obtain ⟨x, hx⟩ := hread
    exact ⟨_, _, complete_bind hx, .putByteExtended _ _, by simp [writesOnly]⟩
  | bic a b | bis a b | add a b | sub a b =>
    cases hi
    obtain ⟨x, hx⟩ := hread
    exact ⟨_, _, complete_bind hx, .modifyWord _, by simp [writesOnly]⟩
  | bicb a b | bisb a b =>
    cases hi
    obtain ⟨x, hx⟩ := hread
    exact ⟨_, _, complete_bind hx, .modifyByte _, by simp [writesOnly]⟩
  | clr b | sxt b =>
    cases hi
    cases hread
    exact ⟨_, _, rfl, .putWord _ _, by simp [writesOnly]⟩
  | clrb b =>
    cases hi
    cases hread
    exact ⟨_, _, rfl, .putByte _ _, by simp [writesOnly]⟩
  | xor _ b | inc b | swab b | asl b | com b | neg b | dec b | adc b | sbc b | ror b | rol b | asr b =>
    cases hi
    cases hread
    exact ⟨_, _, rfl, .modifyWord _, by simp [writesOnly]⟩
  | incb b | comb b | negb b | decb b | adcb b | sbcb b | rorb b | rolb b | asrb b | aslb b =>
    cases hi
    cases hread
    exact ⟨_, _, rfl, .modifyByte _, by simp [writesOnly]⟩
  | _ => cases hi

/-- R157: the source is read first, and ends the instruction when it does not answer. -/
theorem exec_endsAtSource {i : Instr} {a dst : Operand} {n : Size} (hi : storesTo i = some (some a, dst, n))
    (s : State) : endsAtSource a n s (exec i s) := by
  cases i with
  | mov a b | movb a b | bic a b | bis a b | add a b | sub a b | bicb a b | bisb a b =>
    cases hi
    exact endsAs_bind _ _
  | _ => cases hi

/-! ## How a pattern ends -/

/-- Pattern W of MOVB: its accesses and its result. -/
theorem putByteExtended_spec (dst : Operand) (x : Byte) (f : FlagUpdate) (t : State) :
    endsAs (resolve dst .byte t) (complete (putByteExtended dst x f t)) ∧
    ∀ l u, resolve dst .byte t = .ok l u →
      endsAs (storeByteExtended l x u) (complete (putByteExtended dst x f t)) ∧
      ∀ wrote w, storeByteExtended l x u = .ok wrote w → complete (putByteExtended dst x f t) =
        .next (afterStore wrote w (f.n.getD t.psw.n) (f.z.getD t.psw.z) (f.v.getD t.psw.v) (f.c.getD t.psw.c)) := by
  refine ⟨endsAs_bind _ _, fun l u hl => ?_⟩
  rw [putByteExtended, complete_bind hl]
  refine ⟨endsAs_bind _ _, fun wrote v hv => ?_⟩
  rw [complete_bind hv, complete_ok, finishFlags_after (p := t.psw)]
  rintro rfl
  rw [storeByteExtended_psw hv, resolve_psw hl]

/-- MOVB's store is that of a byte but for a register, which always answers. -/
theorem endsAtStore_of_extended {l : Loc} {w : State} {x : Byte} {o : Host.Outcome State Fault Refusal}
    (h : endsAs (storeByteExtended l x w) o) : endsAtStore l .byte w o := by
  cases l with
  | reg r => exact ⟨fun x u hu => (by cases hu), fun f hf => (by cases hf 0)⟩
  | mem va => exact endsAtAnyStore_byte (l := .mem va) h

/-- R160: each access of a pattern in its order ends it when it does not answer. -/
theorem StorePattern.ends {dst : Operand} {t : State} {n : Size} {reads : Bool} {r : Res Unit}
    (h : StorePattern dst t n reads r) :
    endsAs (resolve dst n t) (complete r) ∧
    ∀ l u, resolve dst n t = .ok l u →
      (reads = false → endsAtStore l n u (complete r)) ∧
      (reads = true → endsAtLoad l n u (complete r) ∧ ∀ w, loaded l n u w → storeAnswers l n w) := by
  cases h with
  | modifyWord f =>
    obtain ⟨hresolve, hrest⟩ := modifyWord_spec dst f t
    exact ⟨hresolve, fun l u hl => ⟨nofun, fun _ => ⟨(hrest l u hl).1, fun w ⟨d, hd⟩ => storeAnswers_word hd⟩⟩⟩
  | modifyByte f =>
    obtain ⟨hresolve, hrest⟩ := modifyByte_spec dst f t
    exact ⟨hresolve, fun l u hl => ⟨nofun, fun _ => ⟨(hrest l u hl).1, fun w ⟨d, hd⟩ => storeAnswers_byte hd⟩⟩⟩
  | putWord v f =>
    obtain ⟨hresolve, hrest⟩ := putWord_spec dst v f t
    exact ⟨hresolve, fun l u hl => ⟨fun _ => endsAtAnyStore_word (hrest l u hl).1, nofun⟩⟩
  | putByte v f =>
    obtain ⟨hresolve, hrest⟩ := putByte_spec dst v f t
    exact ⟨hresolve, fun l u hl => ⟨fun _ => endsAtAnyStore_byte (hrest l u hl).1, nofun⟩⟩
  | putByteExtended v f =>
    obtain ⟨hresolve, hrest⟩ := putByteExtended_spec dst v f t
    exact ⟨hresolve, fun l u hl => ⟨fun _ => endsAtStore_of_extended (hrest l u hl).1, nofun⟩⟩

/-! ## Everything a pattern that answers can do after its resolution -/

/-- The location is read at most, then stored to, and the flags are finished. -/
def StoredFrom (l : Loc) (n : Size) (u v : State) : Prop :=
  ∃ w x wrote f, ReadEffect u w ∧ Stored l n wrote w x ∧ v = x.finishFlags wrote f

/-- Work that cannot abort, and answers a next state, ended there. -/
theorem eq_ok_of_complete {r : Res Unit} {v : State} (h : complete r = .next v) (hr : ∀ u, r ≠ .abort u) :
    r = .ok () v := by
  rcases complete_eq_next h with h | ⟨u, h, -⟩
  · exact h
  · exact absurd h (hr u)

/-- A store that cannot abort, then the flags. -/
theorem storedFrom_of_store {l : Loc} {n : Size} {u w v : State} {store : Res Bool} {f : FlagUpdate}
    (hread : ReadEffect u w) (hne : ∀ x, store ≠ .abort x)
    (hstored : ∀ wrote x, store = .ok wrote x → Stored l n wrote w x)
    (h : complete (store.bind fun wrote x => .ok () (x.finishFlags wrote f)) = .next v) : StoredFrom l n u v := by
  have hok := eq_ok_of_complete h fun y hy => by
    rcases Res.bind_eq_abort.1 hy with hy | ⟨_, _, _, hy⟩
    · exact hne y hy
    · cases hy
  obtain ⟨wrote, x, hx, hv⟩ := Res.bind_eq_ok.1 hok
  cases hv
  exact ⟨w, x, wrote, f, hread, hstored wrote x hx, rfl⟩

theorem answered_of_read {l : Loc} {n : Size} {u w : State} (h : ReadEffect u w) (ha : answered l n u) :
    answered l n w := answered_congr h.eval.psw h.eval.mmu h.eval.control.2.2.1 ha

/-- An access that cannot abort, where the work as a whole answers a next state, has answered a value. -/
theorem exists_ok_of_complete_bind {α : Type} {r : Res α} {k : α → State → Res Unit} {v : State}
    (h : complete (r.bind k) = .next v) (hne : ∀ x, r ≠ .abort x) : ∃ a w, r = .ok a w := by
  cases r with
  | ok a w => exact ⟨a, w, rfl⟩
  | abort x => exact absurd rfl (hne x)
  | fatal f => cases h

theorem storedFrom_of_storePattern {dst : Operand} {t u v : State} {n : Size} {reads : Bool} {r : Res Unit} {l : Loc}
    (h : StorePattern dst t n reads r) (hl : resolve dst n t = .ok l u) (ha : answered l n u)
    (hwf : Memory.wf u.ram = true) (hv : complete r = .next v) : StoredFrom l n u v := by
  cases h with
  | modifyWord f =>
    rw [modifyWord, complete_bind hl] at hv
    obtain ⟨d, w, hd⟩ := exists_ok_of_complete_bind hv (loadWord_ne_abort ha)
    rw [complete_bind hd] at hv
    have hread := (loadWord_effect l u).of_ok hd
    exact storedFrom_of_store hread (storeWord_ne_abort (answered_of_read hread ha) _) (fun _ _ => storeWord_stored) hv
  | modifyByte f =>
    rw [modifyByte, complete_bind hl] at hv
    obtain ⟨d, w, hd⟩ := exists_ok_of_complete_bind hv (loadByte_ne_abort ha)
    rw [complete_bind hd] at hv
    have hread := (loadByte_effect l u).of_ok hd
    have hwf' : Memory.wf w.ram = true := by rw [hread.eval.ram]; exact hwf
    exact storedFrom_of_store hread (storeByte_ne_abort (answered_of_read hread ha) _)
      (fun _ _ => storeByte_stored hwf') hv
  | putWord x f =>
    rw [putWord, complete_bind hl] at hv
    exact storedFrom_of_store (.refl u) (storeWord_ne_abort ha _) (fun _ _ => storeWord_stored) hv
  | putByte x f =>
    rw [putByte, complete_bind hl] at hv
    exact storedFrom_of_store (.refl u) (storeByte_ne_abort ha _) (fun _ _ => storeByte_stored hwf) hv
  | putByteExtended x f =>
    rw [putByteExtended, complete_bind hl] at hv
    exact storedFrom_of_store (.refl u) (storeByteExtended_ne_abort ha _) (fun _ _ => storeByteExtended_stored hwf) hv

/-! ## The frame of a store -/

theorem sourceRead_some_effect {o : Operand} {n : Size} {s t : State} (h : sourceRead (some o) n s t) :
    EvalEffect (steps o) s t := by
  cases n with
  | word =>
    obtain ⟨x, hx⟩ := h
    exact (sourceWord_effect o s).of_ok hx
  | byte =>
    obtain ⟨x, hx⟩ := h
    exact (sourceByte_effect o s).of_ok hx

theorem sourceRead_effect {src : Option Operand} {n : Size} {s t : State} (h : sourceRead src n s t) :
    EvalEffect (fun r => ∃ o, src = some o ∧ steps o r) s t := by
  cases src with
  | none =>
    cases h
    exact EvalEffect.refl _ s
  | some o => exact (sourceRead_some_effect h).mono fun r hr => ⟨o, rfl, hr⟩

/-- R145: only mode 0 resolves to a register, the one it names. -/
theorem names_of_resolve {o : Operand} {n : Size} {s t : State} {r : Reg} (h : resolve o n s = .ok (.reg r) t) :
    names o r := by
  obtain ⟨mode, reg⟩ := o
  cases mode with
  | register =>
    cases h
    exact ⟨rfl, rfl⟩
  | deferred | autoInc | autoDec => cases h
  | autoIncDeferred | autoDecDeferred | index =>
    obtain ⟨_, _, _, h⟩ := Res.bind_eq_ok.1 h
    cases h
  | indexDeferred =>
    obtain ⟨_, _, _, h⟩ := Res.bind_eq_ok.1 h
    obtain ⟨_, _, _, h⟩ := Res.bind_eq_ok.1 h
    cases h

theorem slotsSame.trans {s t u : State} (h : slotsSame s t) (h' : slotsSame t u) : slotsSame s u := by
  obtain ⟨a0, a1, ak, as, au, ap⟩ := h
  obtain ⟨b0, b1, bk, bs, bu, bp⟩ := h'
  exact ⟨b0.trans a0, b1.trans a1, bk.trans ak, bs.trans as, bu.trans au, bp.trans ap⟩

theorem controlSame.trans {s t u : State} (h : controlSame s t) (h' : controlSame t u) : controlSame s u := by
  obtain ⟨a1, a2, a3, a4, a5⟩ := h
  obtain ⟨b1, b2, b3, b4, b5⟩ := h'
  exact ⟨b1.trans a1, b2.trans a2, b3.trans a3, b4.trans a4, b5.trans a5⟩

theorem systemFieldsSame.of_psw {s t u : State} (hp : t.psw = s.psw) (h : systemFieldsSame t u) :
    systemFieldsSame s u := by
  unfold systemFieldsSame at h ⊢
  rwa [hp] at h

/-- Slots kept under a PSW with the same selectors are registers kept. -/
theorem slotsSame.registersSame {s t : State} (h : slotsSame s t) (hp : t.psw = s.psw) (touched : Reg → Prop) :
    registersSame touched s t := by
  obtain ⟨h0, h1, hk, hs, hu, hpc⟩ := h
  refine ⟨fun r _ _ => readReg_congr h0 h1 hk hs hu hpc (by rw [hp]) (by rw [hp]) r, ?_, fun m _ => ?_⟩
  · split
    · exact h0
    · exact h1
  · cases m with
    | kernel => exact hk
    | supervisor => exact hs
    | user => exact hu

theorem ReadEffect.slotsSame {s t : State} (h : ReadEffect s t) : slotsSame s t := by
  rw [h.eq]
  exact ⟨rfl, rfl, rfl, rfl, rfl, rfl⟩

/-- The flag update at completion writes the PSW alone. -/
theorem finishFlags_eq_withPsw (wrote : Bool) (f : FlagUpdate) (s : State) :
    ∃ p, s.finishFlags wrote f = s.withPsw p ∧ p.cm = s.psw.cm ∧ p.pm = s.psw.pm ∧ p.rs = s.psw.rs ∧
      p.pri = s.psw.pri ∧ p.t = s.psw.t := by
  cases wrote with
  | true => exact ⟨s.psw, rfl, rfl, rfl, rfl, rfl, rfl⟩
  | false => exact ⟨_, rfl, rfl, rfl, rfl, rfl, rfl⟩

/-- A change of the PSW that keeps its selectors keeps every register. -/
theorem registersSame_withPsw {s t : State} {touched : Reg → Prop} (p : Psw) (hcm : p.cm = t.psw.cm)
    (hrs : p.rs = t.psw.rs) (h : registersSame touched s t) : registersSame touched s (t.withPsw p) := by
  obtain ⟨hregs, hbank, hsp⟩ := h
  refine ⟨fun r hpc hr => ?_, hbank, fun m hm => ?_⟩
  · rw [readReg_congr (s := t) (t := t.withPsw p) rfl rfl rfl rfl rfl rfl hrs hcm r]
    exact hregs r hpc hr
  · rw [withPsw_spOf]
    exact hsp m hm

theorem Stored.registersSame {l : Loc} {n : Size} {s t : State} (h : Stored l n false s t) :
    registersSame (fun r => l = .reg r) s t := by
  cases l with
  | reg q =>
    obtain ⟨x, rfl⟩ := h.regs q rfl
    exact registersSame_mono (fun r hr => by rw [hr]) (registersSame_writeReg q x s)
  | mem va => exact (h.slots va rfl).registersSame (h.psw rfl) _

/-- What a store and its flags change, past the resolution of the location (R23, R30, R90). -/
structure StoreFrameFrom (l : Loc) (n : Size) (u v : State) : Prop where
  plain : ¬storesPsw l n u → registersSame (fun r => l = .reg r) u v ∧ systemFieldsSame u v
  toPsw : storesPsw l n u → slotsSame u v ∧ v.psw.t = u.psw.t
  mmu : ¬storesMmu l n u → v.mmu = u.mmu
  ram : ramSameOutside (storedBytes l n u) u v
  control : controlSame u v
  history : u.history <+: v.history

theorem StoredFrom.frame {l : Loc} {n : Size} {u v : State} (h : StoredFrom l n u v) : StoreFrameFrom l n u v := by
  obtain ⟨w, x, wrote, f, hread, hstored, rfl⟩ := h
  obtain ⟨p, hfinish, hcm, hpm, hrs, hpri, ht⟩ := finishFlags_eq_withPsw wrote f x
  obtain ⟨hpsw, hmmu, hram, hcontrol, hregs, hhistory⟩ := hread.eval
  have hcfg : w.cfg = u.cfg := hcontrol.2.2.1
  refine ⟨fun hplain => ?_, fun hmapped => ?_, fun hnot => ?_, fun a ha => ?_, ?_, ?_⟩
  · have hwrote : wrote = false := by
      cases wrote with
      | false => rfl
      | true => exact absurd ((storesPsw_congr hpsw hmmu hcfg l n).1 (hstored.atPsw.1 rfl)) hplain
    subst hwrote
    have hsame : x.psw = u.psw := (hstored.psw rfl).trans hpsw
    rw [hfinish]
    refine ⟨registersSame_withPsw p hcm hrs ?_, ?_⟩
    · exact registersSame_mono (by simp) (registersSame_trans (by rw [hpsw]) (by rw [hpsw]) hregs hstored.registersSame)
    · exact systemFieldsSame.of_psw hsame ⟨hcm, hpm, hrs, hpri, ht⟩
  · cases l with
    | reg r => simp [storesPsw, targetWord] at hmapped
    | mem va =>
      rw [hfinish]
      refine ⟨(hread.slotsSame.trans (hstored.slots va rfl)).trans (slotsSame_withPsw p x), ?_⟩
      exact ht.trans (hstored.trace.trans (by rw [hpsw]))
  · rw [hfinish, withPsw_mmu, hstored.mmu (mt (storesMmu_congr hpsw hmmu hcfg l n).1 hnot), hmmu]
  · rw [hfinish, withPsw_ram, hstored.ram a (by rwa [storedBytes_congr hpsw hmmu]), hram]
  · rw [hfinish]
    exact hcontrol.trans hstored.control
  · rw [hfinish]
    exact hhistory.trans hstored.history

end Sys2Proof.Machine

namespace Sys2Proof.Proofs
open Sys2Proof.Machine

/-- Settles O23: each instruction that stores is one pattern after its source, and the others end in a bind of the read
they make. -/
theorem operandAccessEndsTheInstruction : Obligations.OperandAccessEndsTheInstruction := by
  refine ⟨fun i src dst n s hi => ⟨?_, fun t hread => ?_⟩, fun dst s => ⟨endsAs_bind _ _, endsAs_bind _ _⟩,
    fun r src s i hi => ?_⟩
  · rintro a rfl
    exact exec_endsAtSource hi s
  · obtain ⟨r, reads, hexec, hpattern, hwrites⟩ := exec_storesBy hi hread
    obtain ⟨hresolve, hrest⟩ := hpattern.ends
    rw [hexec]
    refine ⟨hresolve, fun l u hl => ?_⟩
    obtain ⟨hstore, hload⟩ := hrest l u hl
    exact ⟨fun h => hstore (hwrites.1 h), fun h => hload (by simpa using mt hwrites.2 h)⟩
  · simp only [List.mem_cons, List.not_mem_nil, or_false] at hi
    rcases hi with rfl | rfl | rfl | rfl <;> exact endsAs_bind _ _

/-- Settles O58: the source and the resolution change what an evaluation may, and the pattern then changes what its
store and its flags may. -/
theorem storeFrame : Obligations.StoreFrame := by
  intro i src dst n s t u v l hi hwf hsource hl hanswered hexec
  have heval := (sourceRead_effect hsource).trans ((resolve_effect dst n t).of_ok hl)
  obtain ⟨hpsw, hmmu, hram, hcontrol, hregs, hhistory⟩ := heval
  obtain ⟨r, reads, hr, hpattern, -⟩ := exec_storesBy hi hsource
  have hstored := storedFrom_of_storePattern hpattern hl hanswered (by rwa [hram]) (hr ▸ hexec)
  obtain ⟨hplain, htoPsw, hmmu', hram', hcontrol', hhistory'⟩ := hstored.frame
  refine ⟨hregs, fun h => ?_, fun h => ?_, fun h => ?_, fun a ha => ?_, hcontrol.trans hcontrol',
    hhistory.trans hhistory'⟩
  · obtain ⟨hregs', hsystem⟩ := hplain h
    refine ⟨registersSame_mono ?_ (registersSame_trans (by rw [hpsw]) (by rw [hpsw]) hregs hregs'), ?_⟩
    · rintro q ((hq | hq) | rfl)
      · exact .inl hq
      · exact .inr (.inl hq)
      · exact .inr (.inr (names_of_resolve hl))
    · exact hsystem.of_psw hpsw
  · rw [← hpsw]
    exact htoPsw h
  · rw [hmmu' h, hmmu]
  · rw [hram' a ha, hram]

end Sys2Proof.Proofs
end

/-! PROOF. The values and flags of the instructions that store a result (41_double_operand.md R172 to R181;
45_single_operand.md R271 to R279; 47_extension_profile.md R331 to R347, R352). -/
section
namespace Sys2Proof.Machine

/-! ## A pattern RMW with its result written out -/

/-- The value and the four flags a pattern RMW ends in, an unchanged flag being that of the PSW `p` (R30, R158). -/
def resultUnder {α : Type} (p : Psw) (r : α × FlagUpdate) : α × Bool × Bool × Bool × Bool :=
  (r.1, r.2.n.getD p.n, r.2.z.getD p.z, r.2.v.getD p.v, r.2.c.getD p.c)

theorem modifyWord_modifies {dst : Operand} {g : Word → Word × FlagUpdate} {t : State}
    {f : Word → Word × Bool × Bool × Bool × Bool} (h : ∀ d, resultUnder t.psw (g d) = f d) :
    modifiesWord (complete (modifyWord dst g t)) dst t f := by
  rw [← funext h]
  exact modifyWord_spec dst g t

theorem modifyByte_modifies {dst : Operand} {g : Byte → Byte × FlagUpdate} {t : State}
    {f : Byte → Byte × Bool × Bool × Bool × Bool} (h : ∀ d, resultUnder t.psw (g d) = f d) :
    modifiesByte (complete (modifyByte dst g t)) dst t f := by
  rw [← funext h]
  exact modifyByte_spec dst g t

/-- A result is its value and its four flags. -/
theorem result_eq {α : Type} {x y : α} {n n' z z' v v' c c' : Bool} (hx : x = y) (hn : n = n') (hz : z = z')
    (hv : v = v') (hc : c = c') : (x, n, z, v, c) = (y, n', z', v', c') := by rw [hx, hn, hz, hv, hc]

theorem and_decide {p q : Prop} [Decidable p] [Decidable q] {b : Bool} (h : p ↔ q) :
    (decide p && b) = (decide q && b) := by rw [decide_eq_decide.2 h]

/-! ## What is left to do once the source has been read (R157) -/

section
variable {src dst : Operand} {s t : State}

theorem exec_bic_of_source {x : Word} (hx : sourceWord src s = .ok x t) :
    exec (.bic src dst) s = complete (modifyWord dst (fun d => (~~~x &&& d, flagsLogic (~~~x &&& d))) t) :=
  complete_bind hx

theorem exec_bicb_of_source {x : Byte} (hx : sourceByte src s = .ok x t) :
    exec (.bicb src dst) s = complete (modifyByte dst (fun d => (~~~x &&& d, flagsLogic (~~~x &&& d))) t) :=
  complete_bind hx

theorem exec_bis_of_source {x : Word} (hx : sourceWord src s = .ok x t) :
    exec (.bis src dst) s = complete (modifyWord dst
      (fun d => ((bisop t.cfg.bisMode x d).1, flagsLogic (bisop t.cfg.bisMode x d).2)) t) := complete_bind hx

theorem exec_bisb_of_source {x : Byte} (hx : sourceByte src s = .ok x t) :
    exec (.bisb src dst) s = complete (modifyByte dst
      (fun d => ((bisop t.cfg.bisMode x d).1, flagsLogic (bisop t.cfg.bisMode x d).2)) t) := complete_bind hx

theorem exec_movb_of_source {x : Byte} (hx : sourceByte src s = .ok x t) :
    exec (.movb src dst) s = complete (putByteExtended dst x (flagsLogic x) t) := complete_bind hx

end

/-! ## Values -/

/-- R178: what BIS writes and what its flags are taken from, by `BIS_MODE`. -/
theorem bisop_eq {w : Nat} (m : BisMode) (x d : BitVec w) :
    bisop m x d = (if m = .xor then x ^^^ d else x ||| d, if m = .or then x ||| d else x ^^^ d) := by
  cases m <;> rfl

theorem carryIn_eq (w : Nat) (c : Bool) : carryIn w c = if c then 1 else 0 := by
  apply BitVec.eq_of_toNat_eq
  cases c <;> simp [carryIn]

theorem signWord_beq_zero (n : Bool) : (signWord n == 0) = !n := by cases n <;> rfl

theorem neg_bne_zero {w : Nat} (d : BitVec w) : (-d != 0) = decide (d ≠ 0) := by
  rw [bne, decide_not]
  exact congrArg (!·) (decide_eq_decide.2 BitVec.neg_eq_zero_iff)

theorem zero_sub_bitVec {w : Nat} (d : BitVec w) : 0 - d = -d := BitVec.zero_sub d

theorem msb_shiftLeft_one_word (d : Word) : (d <<< 1).msb = d.getLsbD 14 := by
  simp [BitVec.msb_eq_getLsbD_last]

theorem msb_shiftLeft_one_byte (d : Byte) : (d <<< 1).msb = d.getLsbD 6 := by
  simp [BitVec.msb_eq_getLsbD_last]

theorem shiftLeft_one_eq_zero {w : Nat} (d : BitVec w) : d <<< 1 = 0 ↔ d.toNat * 2 % 2 ^ w = 0 := by
  rw [← BitVec.toNat_inj, BitVec.toNat_shiftLeft, Nat.shiftLeft_eq, pow_one]
  rfl

theorem msb_ofBool_append {w : Nat} (c : Bool) (x : BitVec w) : (BitVec.ofBool c ++ x).msb = c := by
  simp [BitVec.msb_append]

theorem msb_append_ofBool {w : Nat} (x : BitVec (w + 1)) (c : Bool) : (x ++ BitVec.ofBool c).msb = x.msb := by
  simp [BitVec.msb_append]

/-- R345: an arithmetic shift by one place is the floor of the half. -/
theorem sshiftRight_one {w : Nat} (d : BitVec w) : d.sshiftRight 1 = BitVec.ofInt w (d.toInt / 2) := by
  rw [BitVec.sshiftRight_eq, Int.shiftRight_eq_div_pow]
  rfl

theorem rotateRight_word (d : Word) (c : Bool) : rotateRight d c = BitVec.ofBool c ++ d.extractLsb' 1 15 := by
  apply BitVec.eq_of_getLsbD_eq
  intro i hi
  simp only [rotateRight, carryIn, BitVec.getLsbD_or, BitVec.getLsbD_append]
  interval_cases i <;> simp

theorem rotateRight_byte (d : Byte) (c : Bool) : rotateRight d c = BitVec.ofBool c ++ d.extractLsb' 1 7 := by
  apply BitVec.eq_of_getLsbD_eq
  intro i hi
  simp only [rotateRight, carryIn, BitVec.getLsbD_or, BitVec.getLsbD_append]
  interval_cases i <;> simp

theorem rotateLeft_word (d : Word) (c : Bool) : rotateLeft d c = d.extractLsb' 0 15 ++ BitVec.ofBool c := by
  apply BitVec.eq_of_getLsbD_eq
  intro i hi
  simp only [rotateLeft, carryIn, BitVec.getLsbD_or, BitVec.getLsbD_append]
  interval_cases i <;> simp

theorem rotateLeft_byte (d : Byte) (c : Bool) : rotateLeft d c = d.extractLsb' 0 7 ++ BitVec.ofBool c := by
  apply BitVec.eq_of_getLsbD_eq
  intro i hi
  simp only [rotateLeft, carryIn, BitVec.getLsbD_or, BitVec.getLsbD_append]
  interval_cases i <;> simp

end Sys2Proof.Machine

namespace Sys2Proof.Proofs
open Sys2Proof.Machine

/-- Settles O40: each is one access pattern, with the flags worked out from the operand. -/
theorem singleOperandInstructions : Obligations.SingleOperandInstructions := by
  intro dst s
  refine ⟨putWord_spec dst 0 flagsClear s, putByte_spec dst 0 flagsClear s, modifyWord_modifies fun d => ?_,
    modifyByte_modifies fun d => ?_, testWord_spec dst flagsTest s, testByte_spec dst flagsTest s,
    modifyWord_modifies fun d => ?_, ?_, modifyWord_modifies fun d => ?_⟩
  · exact result_eq rfl rfl (decide_eq_decide.2 (by bv_omega)) (decide_eq_decide.2 (by bv_omega)) rfl
  · exact result_eq rfl rfl (decide_eq_decide.2 (by bv_omega)) (decide_eq_decide.2 (by bv_omega)) rfl
  · unfold flagsSwab swapBytes
    rw [lowByte_joinBytes]
    exact result_eq rfl (by simp [highByte, BitVec.msb_eq_getLsbD_last]) rfl rfl rfl
  · rw [← signWord_beq_zero]
    exact putWord_spec dst (signWord s.psw.n) (flagsSxt (signWord s.psw.n)) s
  · rw [← msb_shiftLeft_one_word]
    exact result_eq rfl rfl (decide_eq_decide.2 (shiftLeft_one_eq_zero d)) rfl rfl

/-- Settles O41: each is pattern RMW, with the flags worked out from the operand and the old C. -/
theorem extensionArithmetic : Obligations.ExtensionArithmetic := by
  intro dst s
  refine ⟨modifyWord_modifies fun d => ?_, modifyByte_modifies fun d => ?_, modifyWord_modifies fun d => ?_,
    modifyByte_modifies fun d => ?_, modifyWord_modifies fun d => ?_, modifyByte_modifies fun d => ?_,
    modifyWord_modifies fun d => ?_, modifyByte_modifies fun d => ?_, modifyWord_modifies fun d => ?_,
    modifyByte_modifies fun d => ?_⟩
  · exact result_eq rfl BitVec.msb_not (decide_eq_decide.2 (by bv_omega)) rfl rfl
  · exact result_eq rfl BitVec.msb_not (decide_eq_decide.2 (by bv_omega)) rfl rfl
  · rw [zero_sub_bitVec, ← neg_bne_zero]
    exact result_eq rfl rfl (decide_eq_decide.2 (by bv_omega)) (decide_eq_decide.2 (by bv_omega)) rfl
  · rw [zero_sub_bitVec, ← neg_bne_zero]
    exact result_eq rfl rfl (decide_eq_decide.2 (by bv_omega)) (decide_eq_decide.2 (by bv_omega)) rfl
  · exact result_eq rfl rfl (decide_eq_decide.2 (by bv_omega)) (decide_eq_decide.2 (by bv_omega)) rfl
  · exact result_eq rfl rfl (decide_eq_decide.2 (by bv_omega)) (decide_eq_decide.2 (by bv_omega)) rfl
  · simp only [flagsAdc, carryIn_eq]
    exact result_eq rfl rfl rfl (and_decide (by bv_omega)) (and_decide (by bv_omega))
  · simp only [flagsAdc, carryIn_eq]
    exact result_eq rfl rfl rfl (and_decide (by bv_omega)) (and_decide (by bv_omega))
  · simp only [flagsSbc, carryIn_eq]
    exact result_eq rfl rfl rfl (and_decide (by bv_omega)) (and_decide (by bv_omega))
  · simp only [flagsSbc, carryIn_eq]
    exact result_eq rfl rfl rfl (and_decide (by bv_omega)) (and_decide (by bv_omega))

/-- Settles O42: each is pattern RMW; its result is the operand moved by one place, so N and V come from the bit that
moved to the top. -/
theorem extensionShifts : Obligations.ExtensionShifts := by
  intro dst s
  refine ⟨modifyWord_modifies fun d => ?_, modifyByte_modifies fun d => ?_, modifyWord_modifies fun d => ?_,
    modifyByte_modifies fun d => ?_, modifyWord_modifies fun d => ?_, modifyByte_modifies fun d => ?_,
    modifyByte_modifies fun d => ?_⟩
  · rw [rotateRight_word]
    have hn : (BitVec.ofBool s.psw.c ++ d.extractLsb' 1 15).msb = s.psw.c := msb_ofBool_append _ _
    exact result_eq rfl hn rfl (congrArg (· != _) hn) rfl
  · rw [rotateRight_byte]
    have hn : (BitVec.ofBool s.psw.c ++ d.extractLsb' 1 7).msb = s.psw.c := msb_ofBool_append _ _
    exact result_eq rfl hn rfl (congrArg (· != _) hn) rfl
  · rw [rotateLeft_word]
    have hn : (d.extractLsb' 0 15 ++ BitVec.ofBool s.psw.c).msb = d.getLsbD 14 :=
      (msb_append_ofBool _ _).trans (by simp [BitVec.msb_eq_getLsbD_last])
    exact result_eq rfl hn rfl (congrArg (· != _) hn) rfl
  · rw [rotateLeft_byte]
    have hn : (d.extractLsb' 0 7 ++ BitVec.ofBool s.psw.c).msb = d.getLsbD 6 :=
      (msb_append_ofBool _ _).trans (by simp [BitVec.msb_eq_getLsbD_last])
    exact result_eq rfl hn rfl (congrArg (· != _) hn) rfl
  · have hn : (d.sshiftRight 1).msb = d.getLsbD 15 := BitVec.msb_sshiftRight
    rw [← sshiftRight_one]
    exact result_eq rfl hn rfl (congrArg (· != _) hn) rfl
  · have hn : (d.sshiftRight 1).msb = d.getLsbD 7 := BitVec.msb_sshiftRight
    rw [← sshiftRight_one]
    exact result_eq rfl hn rfl (congrArg (· != _) hn) rfl
  · rw [← msb_shiftLeft_one_byte]
    exact result_eq rfl rfl (decide_eq_decide.2 (shiftLeft_one_eq_zero d)) rfl rfl

/-- Settles O29: each is pattern RMW after its source, which leaves the C kept and the BIS_MODE as they were. -/
theorem bitwiseInstructions : Obligations.BitwiseInstructions := by
  intro src dst r s
  refine ⟨⟨endsAs_bind _ _, endsAs_bind _ _, fun x t hx => ?_⟩, ⟨endsAs_bind _ _, endsAs_bind _ _, fun x t hx => ?_⟩,
    modifyWord_modifies fun d => rfl⟩
  · have hcfg := ((sourceWord_keeps src s).of_ok hx).cfg
    rw [exec_bic_of_source hx, exec_bis_of_source hx, ← sourceWord_psw hx, ← hcfg]
    refine ⟨modifyWord_modifies fun d => rfl, modifyWord_modifies fun d => ?_⟩
    rw [bisop_eq]
    rfl
  · have hcfg := ((sourceByte_keeps src s).of_ok hx).cfg
    rw [exec_bicb_of_source hx, exec_bisb_of_source hx, ← sourceByte_psw hx, ← hcfg]
    refine ⟨modifyByte_modifies fun d => rfl, modifyByte_modifies fun d => ?_⟩
    rw [bisop_eq]
    rfl

/-- Settles O30: MOVB is pattern W with the byte extended where the location is a register. -/
theorem movbExtendsIntoARegister : Obligations.MovbExtendsIntoARegister := by
  intro src dst s
  refine ⟨endsAs_bind _ _, fun x t hx => ?_⟩
  obtain ⟨hresolve, hstore⟩ := putByteExtended_spec dst x (flagsLogic x) t
  rw [exec_movb_of_source hx, ← sourceByte_psw hx]
  refine ⟨?_, hresolve, fun va u hu => hstore (.mem va) u hu⟩
  rintro r rfl
  exact (hstore (.reg r) t rfl).2 false _ rfl

end Sys2Proof.Proofs
end

/-! PROOF. Register-source arithmetic (42_register_source.md R200 to R204; 47_extension_profile.md R353): the exact
product, the two roundings of the quotient, and the multiple shifts. -/
section
namespace Sys2Proof.Machine

/-! ## Integers and the words that hold them -/

theorem extract_low_ofInt (p : Int) : (BitVec.ofInt 32 p).extractLsb' 0 16 = BitVec.ofInt 16 p := by
  apply BitVec.eq_of_toNat_eq
  simp only [BitVec.extractLsb'_toNat, BitVec.toNat_ofInt, Nat.shiftRight_eq_div_pow]
  omega

theorem extract_high_ofInt (p : Int) : (BitVec.ofInt 32 p).extractLsb' 16 16 = BitVec.ofInt 16 (p / 65536) := by
  apply BitVec.eq_of_toNat_eq
  simp only [BitVec.extractLsb'_toNat, BitVec.toNat_ofInt, Nat.shiftRight_eq_div_pow]
  omega

/-- R202: the product of two words fits in 32 bits. -/
theorem toInt_ofInt_product (x y : Word) : (BitVec.ofInt 32 (x.toInt * y.toInt)).toInt = x.toInt * y.toInt := by
  have hle : x.toInt * y.toInt ≤ 2 ^ (16 * 2 - 2) := BitVec.toInt_mul_toInt_le
  have hge : -(2 ^ (16 * 2 - 2)) ≤ x.toInt * y.toInt := BitVec.le_toInt_mul_toInt
  exact BitVec.toInt_ofInt_eq_self (by decide) (by omega) (by omega)

/-! ## The pair of a register (R200) -/

theorem pairHigh_ne_pairLow (r : Reg) : pairHigh r ≠ pairLow r := by cases r <;> decide

theorem toBits_pairHigh (r : Reg) : (pairHigh r).toBits = r.toBits &&& 6 := by cases r <;> rfl

theorem toBits_pairLow (r : Reg) : (pairLow r).toBits = r.toBits ||| 1 := by cases r <;> rfl

/-- R202: the two registers hold the 32 bits, high word first. -/
theorem readPair_writePair {hi lo : Reg} (h : hi ≠ lo) (v : BitVec 32) (s : State) :
    readReg (writePair hi lo v s) hi ++ readReg (writePair hi lo v s) lo = v := by
  rw [writePair, readReg_writeReg_other h, readReg_writeReg_same, readReg_writeReg_same]
  exact append_extract (n := 16) (m := 16) v

/-! ## The two roundings (R201) -/

/-- R201: a remainder is smaller than the divisor and, where it is not 0, has the sign `neg` tells. -/
def IsRemainder (m b : Int) (neg : Prop) : Prop := |m| < |b| ∧ (m ≠ 0 → (m < 0 ↔ neg))

/-- Truncation leaves the sign of the dividend. -/
theorem isRemainder_tmod {b : Int} (a : Int) (hb : b ≠ 0) : IsRemainder (a.tmod b) b (a < 0) := by
  refine ⟨?_, fun hm => ?_⟩
  · rw [Int.abs_eq_natAbs, Int.abs_eq_natAbs, Int.natAbs_tmod]
    exact_mod_cast Nat.mod_lt _ (Int.natAbs_pos.2 hb)
  · have hndvd : ¬b ∣ a := fun h => hm (Int.tmod_eq_zero_of_dvd h)
    have hsign : (a.tmod b).sign = a.sign := by rw [Int.sign_tmod, if_neg hndvd]
    rw [← Int.sign_eq_neg_one_iff_neg, hsign, Int.sign_eq_neg_one_iff_neg]

/-- Flooring leaves the sign of the divisor. -/
theorem isRemainder_fmod {b : Int} (a : Int) (hb : b ≠ 0) : IsRemainder (a.fmod b) b (b < 0) := by
  rcases lt_or_gt_of_ne hb with hneg | hpos
  · have h0 := Int.fmod_nonneg_of_pos (-a) (b := -b) (by omega)
    have h1 := Int.fmod_lt_of_pos (-a) (b := -b) (by omega)
    rw [Int.neg_fmod_neg] at h0 h1
    exact ⟨by rw [abs_of_nonpos (by omega), abs_of_neg hneg]; omega, fun hm => ⟨fun _ => hneg, fun _ => by omega⟩⟩
  · have h0 := Int.fmod_nonneg_of_pos a hpos
    have h1 := Int.fmod_lt_of_pos a hpos
    exact ⟨by rw [abs_of_nonneg h0, abs_of_pos hpos]; exact h1, fun hm => ⟨fun _ => by omega, fun _ => by omega⟩⟩

/-- R201: quotient and remainder by either rounding. -/
theorem qdiv_spec (mode : DivRounding) (a : Int) {b : Int} (hb : b ≠ 0) :
    a = (qdiv mode a b).1 * b + (qdiv mode a b).2 ∧
      (mode = .trunc → IsRemainder (qdiv mode a b).2 b (a < 0)) ∧
      (mode = .floor → IsRemainder (qdiv mode a b).2 b (b < 0)) := by
  cases mode with
  | trunc => exact ⟨(Int.tdiv_mul_add_tmod a b).symm, fun _ => isRemainder_tmod a hb, nofun⟩
  | floor => exact ⟨(Int.fdiv_mul_add_fmod a b).symm, nofun, fun _ => isRemainder_fmod a hb⟩

theorem quotientFits_iff {q : Int} : quotientFits q = true ↔ -32768 ≤ q ∧ q ≤ 32767 := by simp [quotientFits]

/-! ## The multiple shifts (R204, R353) -/

/-- Bit 0 is the parity of the signed value. -/
theorem getLsbD_zero_eq {w : Nat} (y : BitVec w) : y.getLsbD 0 = decide (y.toInt % 2 = 1) := by
  rw [BitVec.getLsbD, Nat.testBit_eq_decide_div_mod_eq, decide_eq_decide, BitVec.toInt_eq_toNat_cond]
  cases w with
  | zero => simp [BitVec.toNat_of_zero_length]
  | succ n =>
    have hpow : 2 ^ (n + 1) = 2 * 2 ^ n := by rw [pow_succ, Nat.mul_comm]
    split <;> push_cast [hpow] <;> omega

/-- Bit `j` is the parity of the floor of the signed value by 2^j. -/
theorem getLsbD_eq_toInt_div {w j : Nat} (y : BitVec w) (hj : j < w) :
    y.getLsbD j = decide (y.toInt / 2 ^ j % 2 = 1) := by
  have hbit : y.getLsbD j = (y.sshiftRight j).getLsbD 0 := by
    rw [BitVec.getLsbD_sshiftRight]
    simp [hj, Nat.not_le.2 (Nat.zero_lt_of_lt hj)]
  rw [hbit, getLsbD_zero_eq, BitVec.toInt_sshiftRight, Int.shiftRight_eq_div_pow]
  rfl

theorem getLsbD_five (k : BitVec 6) : k.getLsbD 5 = decide (32 ≤ k.toNat) := BitVec.msb_eq_decide k

/-- R204, R353: the result and the C flag of a shift of `w` bits. -/
theorem shiftBy_eq {w : Nat} (hw : 0 < w) (x : BitVec w) (k : BitVec 6) : shiftBy x k =
    { res := if k.toNat < 32 then BitVec.ofNat w (x.toNat * 2 ^ k.toNat)
        else BitVec.ofInt w (x.toInt / 2 ^ min (64 - k.toNat) w)
      c := if k.toNat < 32 then decide (x.toNat * 2 ^ k.toNat / 2 ^ w % 2 = 1)
        else decide (x.toInt / 2 ^ (min (64 - k.toNat) w - 1) % 2 = 1) } := by
  have hk := k.isLt
  by_cases hleft : k.toNat < 32
  · simp only [shiftBy, getLsbD_five, Nat.not_le.2 hleft, hleft, decide_false, if_true, Bool.false_eq_true, if_false,
      Nat.testBit_eq_decide_div_mod_eq]
  · have hbit : (BitVec.ofInt (2 * w) x.toInt).getLsbD (min (64 - k.toNat) w - 1) =
        decide (x.toInt / 2 ^ (min (64 - k.toNat) w - 1) % 2 = 1) := by
      rw [← getLsbD_eq_toInt_div x (by omega)]
      change (x.signExtend (2 * w)).getLsbD _ = _
      rw [BitVec.getLsbD_signExtend, if_pos (by omega)]
      simp only [Bool.and_eq_right_iff_imp, decide_eq_true_eq]
      omega
    simp only [shiftBy, getLsbD_five, Nat.le_of_not_lt hleft, hleft, decide_true, if_true, if_false, hbit]

theorem toNat_shiftCount (x : Word) : (x.extractLsb' 0 6).toNat = x.toNat % 64 := by simp [BitVec.extractLsb'_toNat]

/-! ## What each leaves, once the source has been read -/

section
variable {r : Reg} {src : Operand} {s t : State} {x : Word} (hx : sourceWord src s = .ok x t)
include hx

theorem exec_mul_of_source : exec (.mul r src) s =
    .next ((writePair (pairHigh r) (pairLow r) (BitVec.ofInt 32 (mulProduct (readReg t r) x)) t).applyFlags
      (flagsMul (mulProduct (readReg t r) x))) := complete_bind hx

theorem exec_div_of_source : exec (.div r src) s = .next (divide r x.toInt t) := complete_bind hx

theorem exec_ash_of_source : exec (.ash r src) s =
    .next ((writeReg r (shiftBy (readReg t r) (x.extractLsb' 0 6)).res t).applyFlags
      (flagsShiftBy (readReg t r) (shiftBy (readReg t r) (x.extractLsb' 0 6)))) := complete_bind hx

theorem exec_ashc_of_source {y : BitVec 32} (hy : y = readReg t r ++ readReg t (pairLow r)) :
    exec (.ashc r src) s =
      .next ((writePair r (pairLow r) (shiftBy y (x.extractLsb' 0 6)).res t).applyFlags
        (flagsShiftBy y (shiftBy y (x.extractLsb' 0 6)))) := by
  subst hy
  exact complete_bind hx

end

end Sys2Proof.Machine

namespace Sys2Proof.Proofs
open Sys2Proof.Machine

/-- Settles O31: the 32-bit product stands in the pair, and no product of two words overflows it. -/
theorem mulGivesTheExactProduct : Obligations.MulGivesTheExactProduct := by
  intro r src s t x hx p
  refine ⟨⟨toBits_pairHigh r, toBits_pairLow r⟩, writePair (pairHigh r) (pairLow r) (BitVec.ofInt 32 p) t, ?_, ?_, ?_⟩
  · rw [exec_mul_of_source hx, applyFlags_eq, Bool.decide_or]
    rfl
  · rw [writePair, extract_low_ofInt, extract_high_ofInt]
  · rw [readPair_writePair (pairHigh_ne_pairLow r)]
    exact toInt_ofInt_product _ _

/-- Settles O32: the quotient and the remainder are those of `qdiv`, in the rounding of the state the source left. -/
theorem divByItsThreeCases : Obligations.DivByItsThreeCases := by
  intro r src s t x hx a b
  rw [exec_div_of_source hx]
  refine ⟨fun hb => ?_, fun hb => ?_⟩
  · rw [divide, if_pos hb]
    rfl
  · obtain ⟨hsum, htrunc, hfloor⟩ := qdiv_spec t.cfg.divRounding a hb
    refine ⟨_, _, hsum, htrunc, hfloor, fun hfits => ?_, fun hover => ?_⟩
    · simp only [divide]
      rw [if_neg hb, if_pos (quotientFits_iff.2 hfits)]
      rfl
    · have hnot : ¬quotientFits (qdiv t.cfg.divRounding a b).1 = true := by
        rw [quotientFits_iff]
        omega
      simp only [divide]
      rw [if_neg hb, if_neg hnot]
      exact ⟨_, _, rfl⟩

/-- Settles O33: both are `shiftBy` at their width, with the count the low bits of the source. -/
theorem multipleShifts : Obligations.MultipleShifts := by
  intro r src s t x hx k
  refine ⟨?_, ?_⟩
  · rw [exec_ash_of_source hx, shiftBy_eq (by decide), toNat_shiftCount]
    rfl
  · intro y
    rw [exec_ashc_of_source hx (y := y) rfl, shiftBy_eq (by decide), toNat_shiftCount]
    rfl

end Sys2Proof.Proofs
end

/-! PROOF. The frame of the instructions that store nothing in memory (40_step_and_operands.md R157, R159;
42_register_source.md R200): reads of operands, register writes, and flags. -/
section
namespace Sys2Proof.Machine

/-- Flags and the registers of `touched` apart, nothing but PC, the bus history and the draws changes. -/
def FlagFrame (touched : Reg → Prop) (s v : State) : Prop :=
  registersSame touched s v ∧ systemFieldsSame s v ∧ v.mmu = s.mmu ∧ v.ram = s.ram ∧ controlSame s v ∧
    s.history <+: v.history

theorem EvalEffect.applyFlags {touched : Reg → Prop} {s u : State} (h : EvalEffect touched s u) (f : FlagUpdate) :
    FlagFrame touched s (u.applyFlags f) := by
  obtain ⟨hpsw, hmmu, hram, hcontrol, hregs, hhistory⟩ := h
  exact ⟨registersSame_withPsw _ rfl rfl hregs, systemFieldsSame.of_psw hpsw ⟨rfl, rfl, rfl, rfl, rfl⟩, hmmu, hram,
    hcontrol, hhistory⟩

theorem FlagFrame.mono {p q : Reg → Prop} {s v : State} (hpq : ∀ r, p r → q r) (h : FlagFrame p s v) :
    FlagFrame q s v := by
  obtain ⟨hregs, hrest⟩ := h
  exact ⟨registersSame_mono hpq hregs, hrest⟩

/-! ## Where each instruction ends, once its operands have been read -/

/-- CMP, BIT, CMPB and BITB end with their flags alone written. -/
theorem exec_compare {i : Instr} {a b : Operand} {n : Size} {s t u v : State}
    (hi : (n = .word ∧ (i = .cmp a b ∨ i = .bit a b)) ∨ (n = .byte ∧ (i = .cmpb a b ∨ i = .bitb a b)))
    (ha : sourceRead (some a) n s t) (hb : sourceRead (some b) n t u) (hv : exec i s = .next v) :
    ∃ f, v = u.applyFlags f := by
  rcases hi with ⟨rfl, rfl | rfl⟩ | ⟨rfl, rfl | rfl⟩
  all_goals
    obtain ⟨x, hx⟩ := ha
    obtain ⟨d, hd⟩ := hb
  · rw [exec_cmp_of_source hx, testWord, complete_bind hd] at hv
    cases hv
    exact ⟨_, rfl⟩
  · rw [exec_bit_of_source hx, testWord, complete_bind hd] at hv
    cases hv
    exact ⟨_, rfl⟩
  · rw [exec_cmpb_of_source hx, testByte, complete_bind hd] at hv
    cases hv
    exact ⟨_, rfl⟩
  · rw [exec_bitb_of_source hx, testByte, complete_bind hd] at hv
    cases hv
    exact ⟨_, rfl⟩

theorem exec_test {i : Instr} {a : Operand} {n : Size} {s t v : State}
    (hi : (n = .word ∧ i = .tst a) ∨ (n = .byte ∧ i = .tstb a)) (ha : sourceRead (some a) n s t)
    (hv : exec i s = .next v) : ∃ f, v = t.applyFlags f := by
  rcases hi with ⟨rfl, rfl⟩ | ⟨rfl, rfl⟩
  all_goals
    obtain ⟨x, hx⟩ := ha
    cases (complete_bind hx).symm.trans hv
    exact ⟨_, rfl⟩

theorem evalEffect_writePair (hi lo : Reg) (v : BitVec 32) (s : State) :
    EvalEffect (fun q => q = hi ∨ q = lo) s (writePair hi lo v s) :=
  (evalEffect_writeReg hi _ s).trans (evalEffect_writeReg lo _ _)

theorem evalEffect_drawn (s : State) : EvalEffect (fun _ => False) s s.drawn := (ReadEffect.drawn s).eval

/-- R203: the pair at most, and the flags. -/
theorem divide_frame (r : Reg) (b : Int) (s : State) :
    FlagFrame (fun q => q = pairHigh r ∨ q = pairLow r) s (divide r b s) := by
  unfold divide
  simp only
  split
  · exact (EvalEffect.refl _ s).applyFlags _
  · split
    · exact ((evalEffect_writeReg _ _ s).trans (evalEffect_writeReg _ _ _)).applyFlags _
    · exact ((evalEffect_drawn s).mono nofun).applyFlags _

theorem EvalEffect.flagFrame {p q : Reg → Prop} {s t v : State} (h : EvalEffect p s t) (h' : FlagFrame q t v) :
    FlagFrame (fun r => p r ∨ q r) s v := by
  obtain ⟨hpsw, hmmu, hram, hcontrol, hregs, hhistory⟩ := h
  obtain ⟨hregs', hsystem, hmmu', hram', hcontrol', hhistory'⟩ := h'
  exact ⟨registersSame_trans (by rw [hpsw]) (by rw [hpsw]) hregs hregs', hsystem.of_psw hpsw, hmmu'.trans hmmu,
    hram'.trans hram, hcontrol.trans hcontrol', hhistory.trans hhistory'⟩

/-- R200: the register or pair of MUL, DIV, ASH and ASHC, and the flags. -/
theorem exec_registerSource {i : Instr} {r : Reg} {a : Operand} {s t v : State} {x : Word}
    (hi : i = .mul r a ∨ i = .div r a ∨ i = .ash r a ∨ i = .ashc r a) (hx : sourceWord a s = .ok x t)
    (hv : exec i s = .next v) :
    FlagFrame (fun q => q = r ∨ (¬(i = .ash r a) ∧ (q = pairHigh r ∨ q = pairLow r))) t v := by
  rcases hi with rfl | rfl | rfl | rfl
  · cases (exec_mul_of_source hx).symm.trans hv
    exact ((evalEffect_writePair _ _ _ t).applyFlags _).mono fun q hq => .inr ⟨nofun, hq⟩
  · cases (exec_div_of_source hx).symm.trans hv
    exact (divide_frame r _ t).mono fun q hq => .inr ⟨nofun, hq⟩
  · cases (exec_ash_of_source hx).symm.trans hv
    exact ((evalEffect_writeReg r _ t).applyFlags _).mono fun q hq => .inl hq
  · cases (exec_ashc_of_source hx rfl).symm.trans hv
    exact ((evalEffect_writePair _ _ _ t).applyFlags _).mono fun q hq => hq.imp_right fun h => ⟨nofun, .inr h⟩

end Sys2Proof.Machine

namespace Sys2Proof.Proofs
open Sys2Proof.Machine

/-- Settles O59: the reads of the operands change what an evaluation may, and the rest is flags and named registers. -/
theorem readOnlyFrame : Obligations.ReadOnlyFrame := by
  refine ⟨fun i a b n s t u v hi ha hb hv => ?_, fun i a n s t v hi ha hv => ?_, fun i r a s t v hi ha hv => ?_⟩
  · obtain ⟨f, rfl⟩ := exec_compare hi ha hb hv
    exact ((sourceRead_some_effect ha).trans (sourceRead_some_effect hb)).applyFlags f
  · obtain ⟨f, rfl⟩ := exec_test hi ha hv
    exact (sourceRead_some_effect ha).applyFlags f
  · have hsource := sourceRead_some_effect ha
    obtain ⟨x, hx⟩ := ha
    exact hsource.flagFrame (exec_registerSource hi hx hv)

end Sys2Proof.Proofs
end

/-! PROOF. SOB and the extension branches (43_branches.md R232; 47_extension_profile.md R348 to R351), JMP, JSR, MARK
and the return from a subroutine (44_jumps_subroutines.md R250 to R253; R354). -/
section
namespace Sys2Proof.Machine

/-! ## SOB (R114, R232) -/

/-- R114, R354: the number of bytes of `nn` words. -/
theorem setWidth_double (nn : BitVec 6) : nn.setWidth 16 * 2 = BitVec.ofNat 16 (2 * nn.toNat) := by
  apply BitVec.eq_of_toNat_eq
  have htwo : (2 : Word).toNat = 2 := rfl
  have hnn := nn.isLt
  simp only [BitVec.toNat_mul, BitVec.toNat_setWidth, BitVec.toNat_ofNat, htwo]
  omega

/-- R114: the difference of words is the exact difference truncated. -/
theorem sub_double_eq_ofInt (pc : Word) (nn : BitVec 6) :
    pc - nn.setWidth 16 * 2 = BitVec.ofInt 16 ((pc.toNat : Int) - 2 * nn.toNat) := by
  rw [setWidth_double, ← BitVec.ofInt_natCast, BitVec.sub_eq_add_neg, ← BitVec.ofInt_neg, Int.sub_eq_add_neg,
    BitVec.ofInt_add, BitVec.ofInt_natCast, BitVec.ofNat_toNat, BitVec.setWidth_eq, Nat.cast_mul, Nat.cast_ofNat]

theorem exec_sob (r : Reg) (nn : BitVec 6) (s : State) :
    exec (.sob r nn) s =
      if readReg s r = 1 then .next (writeReg r (readReg s r - 1) s)
      else .next ((writeReg r (readReg s r - 1) s).withPc
        ((writeReg r (readReg s r - 1) s).pcr - nn.setWidth 16 * 2)) := by
  have hone : readReg s r - 1 = 0 ↔ readReg s r = 1 := by bv_omega
  simp only [exec, execSob, readReg_writeReg_same, hone, complete_ok]
  split <;> rfl

/-! ## The target of a jump (R250) -/

section
variable {r : Reg} {s : State} {pa : Nat} (h : ramWordAt s s.curSpace s.pcr pa)
include h

theorem jumpTarget_index_ram : jumpTarget ⟨.index, r⟩ s =
    .ok (readReg (s.withPc (s.pcr + 2)) r + Memory.readWord s.ram pa) (s.withPc (s.pcr + 2)) := by
  simp [jumpTarget, AddrMode.isJumpTarget, resolve_index_ram .word h]

theorem jumpTarget_indexDeferred_ram {qa : Nat}
    (hq : ramWordAt s s.curSpace (readReg (s.withPc (s.pcr + 2)) r + Memory.readWord s.ram pa) qa) :
    jumpTarget ⟨.indexDeferred, r⟩ s = .ok (Memory.readWord s.ram qa) (s.withPc (s.pcr + 2)) := by
  simp [jumpTarget, AddrMode.isJumpTarget, resolve_indexDeferred_ram .word h hq]

end

/-- R250: the mode check comes before anything else. -/
theorem jumpTarget_illegal {dd : Operand} (h : dd.mode.isJumpTarget = false) (s : State) :
    jumpTarget dd s = .fatal (.illegalAddressingMode s.annotation) := by simp [jumpTarget, h]

theorem isJumpTarget_eq_false {m : AddrMode} (h1 : m ≠ .deferred) (h6 : m ≠ .index) (h7 : m ≠ .indexDeferred) :
    m.isJumpTarget = false := by
  cases m with
  | deferred => exact absurd rfl h1
  | index => exact absurd rfl h6
  | indexDeferred => exact absurd rfl h7
  | register | autoInc | autoIncDeferred | autoDec | autoDecDeferred => rfl

/-! ## JSR, MARK and RTS -/

theorem exec_jsr_of_target {r : Reg} {dst : Operand} {s t : State} {ea : Word} (h : jumpTarget dst s = .ok ea t) :
    exec (.jsr r dst) s = complete ((push (readReg t r) t).bind fun _ u => .ok () ((writeReg r u.pcr u).withPc ea)) :=
  complete_bind h

/-- R252: JSR with its stack word in RAM; the push leaves PC alone. -/
theorem exec_jsr_ram {r : Reg} {dst : Operand} {s t : State} {ea : Word} {pa : Nat} (h : jumpTarget dst s = .ok ea t)
    (hram : ramWordAt t t.curSpace (readReg t .sp - 2) pa) :
    exec (.jsr r dst) s = .next ((writeReg r t.pcr ((writeReg .sp (readReg t .sp - 2) t).withRam
      (Memory.writeWord t.ram pa (readReg t r)))).withPc ea) := by
  rw [exec_jsr_of_target h, complete_bind (push_ram _ hram), complete_ok, withRam_pcr, writeReg_pcr (by decide)]

theorem exec_mark (nn : BitVec 6) (s : State) :
    exec (.mark nn) s =
      complete ((pop ((writeReg .sp (s.pcr + BitVec.ofNat 16 (2 * nn.toNat)) s).withPc (readReg s .r5))).bind
        fun v t => .ok () (writeReg .r5 v t)) := by
  simp only [exec, execMark, setWidth_double, readReg_writeReg_other (show Reg.r5 ≠ .sp by decide)]

/-- SP written and put back, around a write of another register. -/
theorem writeReg_sp_restore {r : Reg} (hr : r ≠ .sp) (a w : Word) (s : State) :
    writeReg .sp (readReg s .sp) (writeReg r a (writeReg .sp w s)) = writeReg r a s := by
  rw [writeReg_comm (Ne.symm hr), writeReg_twice, writeReg_readReg]

/-- A link register and PC written and put back; with PC as link register its own write comes last. -/
theorem writeReg_link_restore (r : Reg) (a y : Word) (s : State) (hy : r ≠ .pc → y = s.pcr) :
    writeReg r (readReg s r) ((writeReg r a s).withPc y) = s := by
  by_cases hpc : r = .pc
  · subst hpc
    rfl
  · rw [writeReg_withPc hpc, writeReg_twice, writeReg_readReg, hy hpc]
    rfl

/-- R253: RTS from where JSR leads, with the old link register in the word at the stack pointer, puts back the link
register, SP and PC. -/
theorem exec_rts_restores {r : Reg} (hr : r ≠ .sp) {m : State} {pa : Nat} (y : Word)
    (hram : ramWordAt m m.curSpace (readReg m .sp - 2) pa) (hword : Memory.readWord m.ram pa = readReg m r) :
    exec (.rts r) ((writeReg r m.pcr (writeReg .sp (readReg m .sp - 2) m)).withPc y) = .next m := by
  have hsp : readReg (writeReg r m.pcr (writeReg .sp (readReg m .sp - 2) m)) .sp = readReg m .sp - 2 := by
    rw [readReg_writeReg_other (Ne.symm hr), readReg_writeReg_same]
  have hat : ramWordAt (writeReg r m.pcr (writeReg .sp (readReg m .sp - 2) m))
      (writeReg r m.pcr (writeReg .sp (readReg m .sp - 2) m)).curSpace
      (readReg (writeReg r m.pcr (writeReg .sp (readReg m .sp - 2) m)) .sp) pa := by
    rw [hsp, curSpace_congr (s := m) (by simp)]
    exact ramWordAt_congr (by simp) (by simp) hram
  have hpop := pop_withPc_ram (readReg ((writeReg r m.pcr (writeReg .sp (readReg m .sp - 2) m)).withPc y) r) hat
  rw [hsp, BitVec.sub_add_cancel, writeReg_sp_restore hr, writeReg_ram, writeReg_ram, hword] at hpop
  refine (exec_rts_of_pop hpop).trans ?_
  rw [writeReg_link_restore]
  intro hpc
  rw [readReg_withPc_other hpc, readReg_writeReg_same]

end Sys2Proof.Machine

namespace Sys2Proof.Proofs
open Sys2Proof.Machine

/-- Settles O35: the branches are rows of tier (c), and SOB tests the register it has decremented. -/
theorem extensionBranchesAndSob : Obligations.ExtensionBranchesAndSob := by
  refine ⟨fun o => ⟨branchesWhen_of_branch (fun s => s.psw.z || s.psw.n != s.psw.v) ?_ (fun _ => rfl) (by simp),
    branchesWhen_of_branch (fun s => s.psw.n) ?_ (fun _ => rfl) (by simp),
    branchesWhen_of_branch (fun s => !s.psw.v) ?_ (fun _ => rfl) (by simp),
    branchesWhen_of_branch (fun s => s.psw.v) ?_ (fun _ => rfl) (by simp)⟩, fun r nn s => ⟨fun h => ?_, fun h => ?_⟩⟩
  case refine_5 => rw [exec_sob, if_pos h]
  case refine_6 => rw [exec_sob, if_neg h, sub_double_eq_ofInt]
  all_goals simp [decodeTierC]

/-- Settles O36: the target by its mode, and the stop of the illegal modes before any access. -/
theorem jmpJumps : Obligations.JmpJumps := by
  refine ⟨fun r dst s t pa qa ea => ⟨rfl, fun h => ⟨jumpTarget_index_ram h, jumpTarget_indexDeferred_ram h⟩,
    endsAs_bind _ _, fun h => complete_bind h⟩, fun m r link s h1 h6 h7 => ?_⟩
  have htarget := jumpTarget_illegal (dd := ⟨m, r⟩) (isJumpTarget_eq_false h1 h6 h7) s
  refine ⟨(endsAs_bind _ _).2 _ htarget, (endsAs_bind _ _).2 _ htarget⟩

/-- Settles O37: JSR pushes once its target is known; MARK pops with SP and PC already moved. -/
theorem jsrAndMark : Obligations.JsrAndMark := by
  refine ⟨fun r dst s => ⟨endsAs_bind _ _, fun t ea htarget => ?_⟩, fun nn s => ?_⟩
  · refine ⟨?_, fun pa hram => exec_jsr_ram htarget hram⟩
    rw [exec_jsr_of_target htarget]
    exact endsAs_bind _ _
  · rw [exec_mark]
    intro sp
    refine ⟨endsAs_bind _ _, fun pa hram => ?_⟩
    have hsp : readReg (writeReg .sp sp s) .sp = sp := readReg_writeReg_same _ _ _
    have hat : ramWordAt (writeReg .sp sp s) (writeReg .sp sp s).curSpace (readReg (writeReg .sp sp s) .sp) pa := by
      rw [hsp, curSpace_congr (writeReg_psw .sp sp s)]
      exact ramWordAt_congr (by simp) (by simp) hram
    rw [complete_bind (pop_withPc_ram _ hat), complete_ok, hsp, writeReg_twice, writeReg_ram]

/-- Settles O39: RTS pops the word JSR pushed, and each register written is put back. -/
theorem rtsUndoesJsr : Obligations.RtsUndoesJsr := by
  intro r q s pa hr hwf hram
  refine ⟨_, exec_jsr_ram (ea := readReg s q) rfl hram, rfl, ?_⟩
  have hlink : readReg (s.withRam (Memory.writeWord s.ram pa (readReg s r))) r = readReg s r :=
    readReg_congr rfl rfl rfl rfl rfl rfl rfl rfl r
  rw [← writeReg_withRam]
  exact exec_rts_restores hr _ (ramWordAt_congr rfl rfl hram)
    ((Memory.readWord_writeWord_same hwf _ _).trans hlink.symm)

end Sys2Proof.Proofs
end

/-! PROOF. The system instructions (46_system.md R300 to R308; 47_extension_profile.md R355 to R359, R364). -/
section
namespace Sys2Proof.Machine

/-! ## The control instructions -/

/-- One flag of CCC: cleared when its mask bit is set. -/
theorem getD_mask_false (m f : Bool) : (if m then some false else none).getD f = (f && !m) := by
  cases m <;> simp

/-- One flag of SCC: set when its mask bit is set. -/
theorem getD_mask_true (m f : Bool) : (if m then some true else none).getD f = (f || m) := by
  cases m <;> simp

theorem exec_ccc (m : BitVec 4) (s : State) :
    exec (.ccc m) s = .next (s.withFlags (s.psw.n && !m.getLsbD 3) (s.psw.z && !m.getLsbD 2)
      (s.psw.v && !m.getLsbD 1) (s.psw.c && !m.getLsbD 0)) := by
  simp only [exec, execCcc, complete_ok, applyFlags_eq, flagsMask, getD_mask_false]

theorem exec_scc (m : BitVec 4) (s : State) :
    exec (.scc m) s = .next (s.withFlags (s.psw.n || m.getLsbD 3) (s.psw.z || m.getLsbD 2)
      (s.psw.v || m.getLsbD 1) (s.psw.c || m.getLsbD 0)) := by
  simp only [exec, execScc, complete_ok, applyFlags_eq, flagsMask, getD_mask_true]

theorem exec_spl (n : BitVec 3) (s : State) :
    exec (.spl n) s = .next (if s.psw.cm = .kernel then s.withPsw { s.psw with pri := n } else s) := rfl

/-- R303: without `RESET_CLEARS_MMU` the enable bit is written with its own value. -/
theorem exec_reset (s : State) :
    exec .reset s = .next ((s.withHistory (s.history ++ [.busInit])).withMmu
      { s.mmu with enabled := s.mmu.enabled && !s.cfg.resetClearsMmu }) := by
  have hexec : exec .reset s = .next (if s.cfg.resetClearsMmu then
    (s.record .busInit).withMmu { s.mmu with enabled := false } else s.record .busInit) := rfl
  rw [hexec]
  by_cases h : s.cfg.resetClearsMmu = true
  · rw [if_pos h, h, Bool.not_true, Bool.and_false]
    rfl
  · rw [if_neg h, Bool.eq_false_of_not_eq_true h, Bool.not_false, Bool.and_true]
    rfl

/-! ## Returning from a trap (R304, R364) -/

theorem exec_return {i : Instr} (hi : i ∈ [Instr.rtt, Instr.rti]) (s : State) :
    exec i s = complete (returnFromTrap s) := by
  obtain rfl | rfl : i = .rtt ∨ i = .rti := by simpa using hi
  · rfl
  · rfl

/-- Both pops use the old mode's stack pointer, which ends four bytes on. -/
theorem returnFromTrap_ram {s : State} {pa1 pa2 : Nat} (h1 : ramWordAt s s.curSpace (readReg s .sp) pa1)
    (h2 : ramWordAt s s.curSpace (readReg s .sp + 2) pa2) :
    returnFromTrap s = loadPsw (Memory.readWord s.ram pa2)
      ((writeReg .sp (readReg s .sp + 4) s).withPc (Memory.readWord s.ram pa1)) := by
  have hsp : readReg (writeReg .sp (readReg s .sp + 2) s) .sp = readReg s .sp + 2 := readReg_writeReg_same _ _ _
  have hat : ramWordAt (writeReg .sp (readReg s .sp + 2) s) (writeReg .sp (readReg s .sp + 2) s).curSpace
      (readReg (writeReg .sp (readReg s .sp + 2) s) .sp) pa2 := by
    rw [hsp, curSpace_congr (s := s) (by simp)]
    exact ramWordAt_congr (by simp) (by simp) h2
  have hfour : readReg s .sp + 2 + 2 = readReg s .sp + 4 := by rw [BitVec.add_assoc]; rfl
  rw [returnFromTrap, pop_ram h1, Res.bind_ok, pop_withPc_ram _ hat, Res.bind_ok, hsp, hfour, writeReg_twice,
    writeReg_ram]

theorem loadPsw_of_unpack {w : Word} {p : Psw} (h : Psw.unpack w = some p) (s : State) :
    loadPsw w s = .ok () (s.withPsw p) := loadPsw_eq_ok.2 ⟨p, h, rfl⟩

theorem loadPsw_of_unpack_none {w : Word} (h : Psw.unpack w = none) (s : State) :
    loadPsw w s = .fatal (.invalidMode s.annotation) := by simp only [loadPsw, h]

/-! ## The previous space (R29, R305, R306) -/

theorem exec_moveFrom {i : Instr} {o : Operand} (hi : i ∈ [Instr.mfpi o, Instr.mfpd o]) (s : State) :
    exec i s = complete (moveFromPrevious o s) := by
  obtain rfl | rfl : i = .mfpi o ∨ i = .mfpd o := by simpa using hi
  · rfl
  · rfl

theorem exec_moveTo {i : Instr} {o : Operand} (hi : i ∈ [Instr.mtpi o, Instr.mtpd o]) (s : State) :
    exec i s = complete (moveToPrevious o s) := by
  obtain rfl | rfl : i = .mtpi o ∨ i = .mtpd o := by simpa using hi
  · rfl
  · rfl

theorem loadPrev_psw {l : Loc} {s t : State} {x : Word} (h : loadPrev l s = .ok x t) : t.psw = s.psw :=
  ((loadPrev_effect l s).of_ok h).eval.psw

theorem pop_psw {s t : State} {x : Word} (h : pop s = .ok x t) : t.psw = s.psw := ((pop_effect s).of_ok h).psw

theorem prevSpace_of_pm {s : State} {m : Mode} (h : m.toBits = s.psw.pm) : s.prevSpace = m.space := by
  simp only [State.prevSpace, ← h, Mode.ofBits_toBits]

/-- R305: the word of the previous space, from the reads and writes of that space. -/
theorem prev_ram {s : State} {va : Word} {pa : Nat} (h : ramWordAt s s.prevSpace va pa) (x : Word) :
    loadPrev (.mem va) s = .ok (Memory.readWord s.ram pa) s ∧
      storePrev (.mem va) x s = .ok false (s.withRam (Memory.writeWord s.ram pa x)) :=
  ⟨memReadWord_ram h, memWriteWord_ram h x⟩

theorem prev_without_space {s : State} {va : Word} (ho : isOdd va = false) (h : s.prevSpace = none) (x : Word) :
    loadPrev (.mem va) s = .fatal (.invalidMode ⟨s.ir, s.currentPc⟩) ∧
      storePrev (.mem va) x s = .fatal (.invalidMode ⟨s.ir, s.currentPc⟩) := by
  simp [loadPrev, storePrev, memReadWord, memWriteWord, ho, h, annotation_eq]

/-- R306: R6 is the previous mode's stack pointer. -/
theorem prev_sp {s : State} {m : Mode} (h : m.toBits = s.psw.pm) (x : Word) :
    loadPrev (.reg .sp) s = .ok (s.spOf m) s ∧ storePrev (.reg .sp) x s = .ok false (s.withSpOf m x) := by
  simp [loadPrev, storePrev, readPrevReg, writePrevReg, ← h]

/-- R306: every other register is the one of the current bank. -/
theorem prev_reg {s : State} {m : Mode} (h : m.toBits = s.psw.pm) {r : Reg} (hr : r ≠ .sp) (x : Word) :
    loadPrev (.reg r) s = .ok (readReg s r) s ∧ storePrev (.reg r) x s = .ok false (writeReg r x s) := by
  cases r with
  | sp => exact absurd rfl hr
  | r0 | r1 | r2 | r3 | r4 | r5 | pc => simp [loadPrev, storePrev, readPrevReg, writePrevReg, ← h]

theorem prev_illegal {s : State} (h : s.psw.pm = 0b10#2) (r : Reg) (x : Word) :
    loadPrev (.reg r) s = .fatal (.invalidMode ⟨s.ir, s.currentPc⟩) ∧
      storePrev (.reg r) x s = .fatal (.invalidMode ⟨s.ir, s.currentPc⟩) := by
  simp [loadPrev, storePrev, readPrevReg, writePrevReg, Mode.ofBits_eq_none.2 h, annotation_eq]

end Sys2Proof.Machine

namespace Sys2Proof.Proofs
open Sys2Proof.Machine

/-- Settles O43: each is one write of the state, CCC and SCC flag by flag. -/
theorem controlInstructions : Obligations.ControlInstructions := fun s =>
  ⟨rfl, rfl, exec_reset s,
    fun n => ⟨fun h => (exec_spl n s).trans (by rw [if_pos h]), fun h => (exec_spl n s).trans (by rw [if_neg h])⟩,
    fun m => ⟨exec_ccc m s, exec_scc m s⟩⟩

/-- Settles O44: two pops and a load of the PSW, which stops just when the word does not unpack. -/
theorem returnFromTrap : Obligations.ReturnFromTrap := by
  refine ⟨fun s i hi => ?_, fun s pa1 pa2 h1 h2 i hi => ?_⟩
  · rw [exec_return hi]
    refine ⟨endsAs_bind _ _, fun x t hx => ?_⟩
    rw [Machine.returnFromTrap, complete_bind hx]
    exact endsAs_bind _ _
  · rw [exec_return hi, returnFromTrap_ram h1 h2]
    refine ⟨fun p hp => by rw [loadPsw_of_unpack hp, complete_ok], fun hp => ?_⟩
    rw [loadPsw_of_unpack_none hp, complete_fatal, annotation_eq]
    simp

/-- Settles O45: the accesses in their order, no one of them changing the PSW the flags start from; the previous space
and its registers by the mode that pm names. -/
theorem movesWithThePreviousSpace : Obligations.MovesWithThePreviousSpace := by
  refine ⟨fun o s => ⟨fun i hi => ?_, fun i hi => ?_⟩, fun s x va pa => ⟨⟨?_, ?_, ?_⟩, fun h => prev_ram h x,
    fun ho h => prev_without_space ho h x, fun m h => ⟨(prev_sp h x).1, (prev_sp h x).2, fun r hr => prev_reg h hr x⟩,
    fun h r => prev_illegal h r x⟩⟩
  · rw [exec_moveFrom hi]
    refine ⟨endsAs_bind _ _, fun l t hl => ?_⟩
    rw [moveFromPrevious, complete_bind hl]
    refine ⟨endsAs_bind _ _, fun x u hx => ?_⟩
    rw [complete_bind hx]
    refine ⟨endsAs_bind _ _, fun wrote v hv => ?_⟩
    rw [complete_bind hv, complete_ok, finishFlags_after (p := s.psw)]
    · rfl
    · rintro rfl
      rw [push_psw hv, loadPrev_psw hx, resolve_psw hl]
  · rw [exec_moveTo hi]
    refine ⟨endsAs_bind _ _, fun x t hx => ?_⟩
    rw [moveToPrevious, complete_bind hx]
    refine ⟨endsAs_bind _ _, fun l u hl => ?_⟩
    rw [complete_bind hl]
    refine ⟨endsAs_bind _ _, fun wrote v hv => ?_⟩
    rw [complete_bind hv, complete_ok, finishFlags_after (p := s.psw)]
    · rfl
    · rintro rfl
      rw [storePrev_psw hv, resolve_psw hl, pop_psw hx]
  · exact fun h => prevSpace_of_pm (m := .kernel) h.symm
  · exact fun h => prevSpace_of_pm (m := .user) h.symm
  · rintro (h | h)
    · exact prevSpace_of_pm (m := .supervisor) h.symm
    · simp only [State.prevSpace, Mode.ofBits_eq_none.2 h]

end Sys2Proof.Proofs
end

/-! PROOF. Traps (60_exceptions.md R403 to R408; 47_extension_profile.md R360 to R365) and the step
(40_step_and_operands.md R140 to R143). -/
section
namespace Sys2Proof.Machine

/-! ## The vector, and two words on one stack -/

theorem isOdd_add_two (va : Word) : isOdd (va + 2) = isOdd va := by
  have hparity (x : Word) : isOdd x = decide (x.toNat % 2 = 1) := Nat.testBit_zero x.toNat
  have htwo : (2 : Word).toNat = 2 := rfl
  rw [hparity, hparity, BitVec.toNat_add, htwo]
  congr 1
  apply propext
  omega

/-- R404: the vector words are read in the Direct space. -/
theorem ramWordAt_direct {s : State} {va : Word} (ho : isOdd va = false) (h : va.toNat < s.cfg.ramSize) :
    ramWordAt s (some .direct) va va.toNat := ⟨ho, .direct, rfl, rfl, h⟩

/-- R156: a push where the stack pointer has already been moved one word and RAM replaced. -/
theorem push_again_ram {s : State} {pa : Nat} (v : Word) (m : List Host.Cell)
    (h : ramWordAt s s.curSpace (readReg s .sp - 4) pa) :
    push v ((writeReg .sp (readReg s .sp - 2) s).withRam m) =
      .ok false ((writeReg .sp (readReg s .sp - 4) s).withRam (Memory.writeWord m pa v)) := by
  have hsp := readReg_writeReg_same .sp (readReg s .sp - 2) (s.withRam m)
  have hfour : readReg s .sp - 2 - 2 = readReg s .sp - 4 := by bv_omega
  have hspace := curSpace_congr (writeReg_psw .sp (readReg s .sp - 2) (s.withRam m))
  have hat : ramWordAt (writeReg .sp (readReg s .sp - 2) (s.withRam m)) s.curSpace (readReg s .sp - 4) pa :=
    ramWordAt_congr (by simp) (by simp) h
  rw [← writeReg_withRam, push_ram (pa := pa) v (by rw [hsp, hfour, hspace]; exact hat), hsp, hfour, writeReg_twice,
    writeReg_withRam, writeReg_withRam, withRam_ram]
  rfl

/-! ## A trap entry whose words are in RAM (R404) -/

/-- The PSW a trap entry loads (R404). -/
def trapPsw (s : State) (p : Psw) : Psw := { p with pm := s.psw.cm.toBits }

/-- With the new PSW in place the stack is the new mode's. -/
theorem readReg_sp_trapPsw (s : State) (p : Psw) : readReg (s.withPsw (trapPsw s p)) .sp = s.spOf p.cm :=
  withPsw_spOf _ s p.cm

theorem writeReg_sp_trapPsw (s : State) (p : Psw) (v : Word) :
    writeReg .sp v (s.withPsw (trapPsw s p)) = (s.withSpOf p.cm v).withPsw (trapPsw s p) := by
  obtain ⟨cm, pm, rs, pri, t, n, z, vf, c⟩ := p
  cases cm <;> rfl

section
variable {s : State} {vec newPc : Word} {p : Psw} {pa1 pa0 : Nat} (h : TrapReady s vec newPc p pa1 pa0)
include h

/-- R404: the two vector words. -/
theorem TrapReady.vector :
    memReadWord vec (some .direct) s = .ok newPc s ∧
      memReadWord (vec + 2) (some .direct) s = .ok (Memory.readWord s.ram (vec.toNat + 2)) s := by
  obtain ⟨heven, hspace, hram, hpc, -, -, -⟩ := h
  have htwo : (vec + 2).toNat = vec.toNat + 2 := by
    have h2 : (2 : Word).toNat = 2 := rfl
    rw [BitVec.toNat_add, h2]
    omega
  refine ⟨by rw [memReadWord_ram (ramWordAt_direct heven (by omega)), hpc], ?_⟩
  rw [memReadWord_ram (ramWordAt_direct (by rw [isOdd_add_two, heven]) (by omega)), htwo]

theorem trapSequence_ready : trapSequence vec s = .ok () (afterTrap s newPc p pa1 pa0) := by
  obtain ⟨hread, hread'⟩ := h.vector
  obtain ⟨-, -, -, -, hpsw, hfirst, hsecond⟩ := h
  have hsp := readReg_sp_trapPsw s p
  have h1 : ramWordAt (s.withPsw (trapPsw s p)) (s.withPsw (trapPsw s p)).curSpace
      (readReg (s.withPsw (trapPsw s p)) .sp - 2) pa1 := by
    rw [hsp]
    exact ramWordAt_congr rfl rfl hfirst
  have h0 : ramWordAt (s.withPsw (trapPsw s p)) (s.withPsw (trapPsw s p)).curSpace
      (readReg (s.withPsw (trapPsw s p)) .sp - 4) pa0 := by
    rw [hsp]
    exact ramWordAt_congr rfl rfl hsecond
  calc trapSequence vec s
    _ = (push s.psw.pack (s.withPsw (trapPsw s p))).bind fun _ t => (push s.pcr t).bind fun _ u =>
          .ok () (u.withPc newPc) := by
      rw [trapSequence, hread, Res.bind_ok, hread', Res.bind_ok, loadPsw_of_unpack hpsw, Res.bind_ok]
      rfl
    _ = .ok () (((writeReg .sp (s.spOf p.cm - 4) (s.withPsw (trapPsw s p))).withRam
          (Memory.writeWord (Memory.writeWord s.ram pa1 s.psw.pack) pa0 s.pcr)).withPc newPc) := by
      rw [push_ram _ h1, Res.bind_ok, push_again_ram _ _ h0, Res.bind_ok, hsp]
      rfl
    _ = .ok () (afterTrap s newPc p pa1 pa0) := by
      rw [writeReg_sp_trapPsw]
      rfl

theorem trapEntry_ready : trapEntry vec s = .ok () (afterTrap s newPc p pa1 pa0) :=
  trapEntry_eq_ok.2 (trapSequence_ready h)

theorem complete_trapEntry_ready : complete (trapEntry vec s) = .next (afterTrap s newPc p pa1 pa0) := by
  rw [trapEntry_ready h, complete_ok]

end

/-- What a return writes over a state whose stack pointer, PSW, RAM and PC were replaced. -/
theorem writeReg_sp_restores (s : State) (q : Psw) (w x : Word) (m : List Host.Cell) :
    ((writeReg .sp (s.spOf q.cm) ((((s.withSpOf q.cm w).withPsw q).withRam m).withPc x)).withPc s.pcr).withPsw s.psw =
      s.withRam m := by
  obtain ⟨cm, pm, rs, pri, t, n, z, v, c⟩ := q
  obtain ⟨_, _, _, _, _, _, _, _, _, _, _, _, _, _, _, _⟩ := s
  cases cm <;> rfl

/-- The stack pointer of such a state is the one written. -/
theorem readReg_sp_replaced (s : State) (q : Psw) (w x : Word) (m : List Host.Cell) :
    readReg ((((s.withSpOf q.cm w).withPsw q).withRam m).withPc x) .sp = w := by
  obtain ⟨cm, pm, rs, pri, t, n, z, v, c⟩ := q
  cases cm <;> rfl

/-- R408: a return puts back what the entry replaced, apart from RAM. -/
theorem return_afterTrap (s : State) (newPc : Word) (p : Psw) (pa1 pa0 : Nat) :
    ((writeReg .sp (s.spOf p.cm) (afterTrap s newPc p pa1 pa0)).withPc s.pcr).withPsw s.psw =
      s.withRam (afterTrap s newPc p pa1 pa0).ram := writeReg_sp_restores s (trapPsw s p) _ _ _

theorem readReg_sp_afterTrap (s : State) (newPc : Word) (p : Psw) (pa1 pa0 : Nat) :
    readReg (afterTrap s newPc p pa1 pa0) .sp = s.spOf p.cm - 4 := readReg_sp_replaced s (trapPsw s p) _ _ _

theorem ramWordAt_even {s : State} {m : Option Space} {va : Word} {pa : Nat} (h : ramWordAt s m va pa) :
    pa % 2 = 0 := by
  obtain ⟨ho, sp, -, rfl, -⟩ := h
  exact translate_even ho

/-- R408: the two words of the entry come off the new mode's stack in the opposite order. -/
theorem exec_rtt_afterTrap {s : State} {vec newPc : Word} {p : Psw} {pa1 pa0 : Nat} (hne : pa1 ≠ pa0)
    (hwf : Memory.wf s.ram = true) (h : TrapReady s vec newPc p pa1 pa0) :
    exec .rtt (afterTrap s newPc p pa1 pa0) = .next (s.withRam (afterTrap s newPc p pa1 pa0).ram) := by
  have heven1 := ramWordAt_even h.first
  have heven0 := ramWordAt_even h.second
  have hsp := readReg_sp_afterTrap s newPc p pa1 pa0
  have hone : s.spOf p.cm - 4 + 2 = s.spOf p.cm - 2 := by bv_omega
  have hnone : s.spOf p.cm - 4 + 4 = s.spOf p.cm := BitVec.sub_add_cancel _ _
  have h0 : ramWordAt (afterTrap s newPc p pa1 pa0) (afterTrap s newPc p pa1 pa0).curSpace
      (readReg (afterTrap s newPc p pa1 pa0) .sp) pa0 := by
    rw [hsp]
    exact ramWordAt_congr (by simp [afterTrap]) (by simp [afterTrap]) h.second
  have h1 : ramWordAt (afterTrap s newPc p pa1 pa0) (afterTrap s newPc p pa1 pa0).curSpace
      (readReg (afterTrap s newPc p pa1 pa0) .sp + 2) pa1 := by
    rw [hsp, hone]
    exact ramWordAt_congr (by simp [afterTrap]) (by simp [afterTrap]) h.first
  have hpc : Memory.readWord (afterTrap s newPc p pa1 pa0).ram pa0 = s.pcr :=
    Memory.readWord_writeWord_same (Memory.writeWord_wf hwf pa1 s.psw.pack) pa0 s.pcr
  have hpsw : Memory.readWord (afterTrap s newPc p pa1 pa0).ram pa1 = s.psw.pack :=
    (Memory.readWord_writeWord_other _ _ (by omega)).trans (Memory.readWord_writeWord_same hwf pa1 s.psw.pack)
  rw [exec_return (by simp), returnFromTrap_ram h0 h1, hpc, hpsw, loadPsw_of_unpack (unpack_pack s.psw), complete_ok,
    hsp, hnone, return_afterTrap]

/-! ## A bus timeout (R69, R403, R406) -/

theorem complete_abort_ready {t : State} {newPc : Word} {p : Psw} {pa1 pa0 : Nat}
    (h : TrapReady t 0o4 newPc p pa1 pa0) : complete (.abort t) = .next (afterTrap t newPc p pa1 pa0) := by
  have hentry : trapEntry busTimeoutVector t = .ok () (afterTrap t newPc p pa1 pa0) := trapEntry_ready h
  simp only [complete, hentry]

/-- R406: a timeout inside the entry is a double fault. -/
theorem complete_abort_of_abort {t u : State} (h : trapSequence 0o4 t = .abort u) :
    complete (.abort t) = .fault (.doubleFault ⟨t.ir, t.currentPc⟩) := by
  have hsequence : trapSequence busTimeoutVector t = .abort u := h
  have hentry : trapEntry busTimeoutVector t = .fatal (.doubleFault t.annotation) := by
    simp only [trapEntry, hsequence]
  simp only [complete, hentry, annotation_eq]

section
variable {t : State} {va : Word} {sp : Space} (hsp : t.curSpace = some sp) (ho : isOdd va = false)
  (hpa : unclaimed t (t.translate sp va)) (hlow : t.translate sp va < 0o760000)
include hsp ho hpa hlow

theorem memReadWord_timeout : memReadWord va t.curSpace t = .abort t := by
  obtain ⟨hread, -⟩ := bus_unclaimed hpa 0
  simp only [memReadWord, ho, hsp]
  exact hread.trans (busFault_low hlow t)

theorem memWriteWord_timeout (x : Word) : memWriteWord va x t.curSpace t = .abort t := by
  obtain ⟨-, hwrite⟩ := bus_unclaimed hpa x
  simp only [memWriteWord, ho, hsp]
  exact hwrite.trans (busFault_low hlow t)

theorem exec_mov_source_timeout {src dst : Operand} {s : State} (h : resolve src .word s = .ok (.mem va) t) :
    exec (.mov src dst) s = complete (.abort t) := by
  have hsource : sourceWord src s = .abort t := by
    rw [sourceWord, h, Res.bind_ok]
    exact memReadWord_timeout hsp ho hpa hlow
  exact (endsAs_bind _ _).1 t hsource

theorem exec_mov_destination_timeout {src dst : Operand} {s u : State} {x : Word} (hx : sourceWord src s = .ok x u)
    (h : resolve dst .word u = .ok (.mem va) t) : exec (.mov src dst) s = complete (.abort t) := by
  obtain ⟨-, hstore⟩ := putWord_spec dst x (flagsLogic x) u
  obtain ⟨⟨habort, -⟩, -⟩ := hstore _ _ h
  rw [exec_mov_of_source hx]
  exact habort t (memWriteWord_timeout hsp ho hpa hlow x)

end

/-! ## The step -/

/-- R140: the work of a step that reaches its fetch. -/
theorem step_of_decode {s t : State} {w : Word} {i : Instr} (hs : willFetch s)
    (hfetch : fetchInstr s.beginStep = .ok w t) (hdecode : decode t.cfg.profile w = .ok i) : step s = exec i t := by
  obtain ⟨hrun, hoffer, htrace⟩ := hs
  simp [step, hrun, hoffer, htrace, hfetch, hdecode]

theorem step_of_fetch_abort {s t : State} (hs : willFetch s) (hfetch : fetchInstr s.beginStep = .abort t) :
    step s = complete (.abort t) := by
  obtain ⟨hrun, hoffer, htrace⟩ := hs
  simp [step, hrun, hoffer, htrace, hfetch]

theorem step_of_fetch_fatal {s : State} {f : Fault} (hs : willFetch s) (hfetch : fetchInstr s.beginStep = .fatal f) :
    step s = .fault f := by
  obtain ⟨hrun, hoffer, htrace⟩ := hs
  simp [step, hrun, hoffer, htrace, hfetch]

/-- R140: the fetch is the read of the word at PC, in the state where `currentPc` is PC. -/
theorem fetchInstr_beginStep (s : State) :
    fetchInstr s.beginStep =
      ((memReadWord s.pcr (s.beginStep.withCurrentPc s.pcr).curSpace (s.beginStep.withCurrentPc s.pcr)).bind
        fun w t => .ok w (t.withPc (t.pcr + 2))).bind fun w t => .ok w (t.withIr (some w)) := rfl

/-- R82, R77: the fetches that stop, annotated with no word and with PC. -/
theorem fetchInstr_odd {s : State} (ho : isOdd s.pcr = true) :
    fetchInstr s.beginStep = .fatal (.oddAddress ⟨none, s.pcr⟩) := by
  rw [fetchInstr_beginStep]
  simp only [memReadWord, ho]
  rfl

theorem fetchInstr_supervisor {s : State} (hcm : s.psw.cm = .supervisor) (ho : isOdd s.pcr = false) :
    fetchInstr s.beginStep = .fatal (.invalidMode ⟨none, s.pcr⟩) := by
  have hspace : (s.beginStep.withCurrentPc s.pcr).curSpace = none := congrArg Mode.space hcm
  rw [fetchInstr_beginStep]
  simp only [memReadWord, ho, hspace]
  rfl

/-- R110: two bytes decode as the word they join to. -/
theorem decode_of_decodeBytes {p : Profile} {lo hi : Byte} {i : Instr} (h : decodeBytes p [lo, hi] = .ok (i, [])) :
    decode p (joinBytes hi lo) = .ok i := by
  have hbytes : decodeBytes p [lo, hi] = match decode p (joinBytes hi lo) with
    | .ok j => .ok (j, [])
    | .error e => .error e := rfl
  rw [hbytes] at h
  split at h
  · next hj =>
    cases h
    exact hj
  · cases h

/-! ## The boundary's offer (R140, R411) -/

theorem accepts_iff (s : State) (o : Offer) : accepts s o = true ↔ s.psw.pri.toNat < o.level.toNat := by
  simp [accepts, BitVec.ult]

theorem acceptedOffer_of_higher {s : State} {o : Offer} {rest : List (Option Offer)} (h : s.offers = some o :: rest)
    (hlevel : s.psw.pri.toNat < o.level.toNat) : s.acceptedOffer = some o := by
  have hoffer : s.offer = some o := by simp [State.offer, h]
  simp only [State.acceptedOffer, hoffer, if_pos ((accepts_iff s o).2 hlevel)]

theorem acceptedOffer_of_not_higher {s : State}
    (h : ∀ o, s.offers.head? = some (some o) → o.level.toNat ≤ s.psw.pri.toNat) : s.acceptedOffer = none := by
  unfold State.acceptedOffer
  split
  · next o ho =>
    have hhead : s.offers.head? = some (some o) := by
      rw [State.offer] at ho
      cases hs : s.offers.head? with
      | none => simp [hs] at ho
      | some x => simpa [hs] using ho
    exact if_neg fun ha => absurd ((accepts_iff s o).1 ha) (Nat.not_lt.2 (h o hhead))
  · rfl

theorem step_of_accepted {s : State} {o : Offer} (hrun : s.run ≠ .halted) (ho : s.acceptedOffer = some o) :
    step s = complete (trapEntry o.vector (s.beginStep.withRun .running)) := by
  simp [step, hrun, ho, interruptEntry]

end Sys2Proof.Machine

namespace Sys2Proof.Proofs
open Sys2Proof.Machine

/-- Settles O46: each is the trap entry through its vector. -/
theorem trapInstructionsTrap : Obligations.TrapInstructionsTrap := by
  intro i vec hi s newPc p pa1 pa0 h
  rcases hi with ⟨k, rfl, rfl⟩ | ⟨k, rfl, rfl⟩ | ⟨rfl, rfl⟩ | ⟨rfl, rfl⟩
  all_goals exact complete_trapEntry_ready h

/-- Settles O47: an access to the unclaimed word aborts in the state it was made in, and the abort takes the trap. -/
theorem busTimeoutTraps : Obligations.BusTimeoutTraps := by
  refine ⟨fun t newPc p pa1 pa0 => complete_abort_ready, fun t u => complete_abort_of_abort,
    fun src dst s t va sp hsp ho hpa hlow => ⟨exec_mov_source_timeout hsp ho hpa hlow,
      fun x u hx h => exec_mov_destination_timeout hsp ho hpa hlow hx h, ?_⟩⟩
  rintro hs rfl rfl
  refine step_of_fetch_abort hs ?_
  rw [fetchInstr_beginStep, memReadWord_timeout hsp ho hpa hlow]
  rfl

/-- Settles O48: the return reads back the two words the entry stored, and they are the only bytes that differ. -/
theorem returnUndoesTheTrap : Obligations.ReturnUndoesTheTrap := by
  intro s vec newPc p pa1 pa0 hne hwf h
  refine ⟨trapEntry_ready h, exec_rtt_afterTrap hne hwf h, fun a h1 h1' h0 h0' => ?_⟩
  exact (Memory.read_writeWord_other _ _ h0 h0').trans (Memory.read_writeWord_other _ _ h1 h1')

/-- Settles O49: the fetch leads to the state in which the decoded instruction runs. -/
theorem stepRunsTheDecodedInstruction : Obligations.StepRunsTheDecodedInstruction :=
  fun _ _ _ hs hram hdecode => step_of_decode hs (fetchInstr_ram hram) (decode_of_decodeBytes hdecode)

/-- Settles O51: the checks in their order, with the entry's effect from its words in RAM. -/
theorem stepOrder : Obligations.StepOrder := by
  refine fun s => ⟨fun h => by simp [step, h], fun o rest ho hlevel hrun newPc p pa1 pa0 h => ?_, fun h => ?_⟩
  · rw [step_of_accepted hrun (acceptedOffer_of_higher ho hlevel), complete_trapEntry_ready h]
  · have hnone := acceptedOffer_of_not_higher h
    refine ⟨hnone, fun hrun => by simp [step, hrun, hnone], fun hrun ht => by simp [step, hrun, hnone, ht],
      fun hrun ht => ?_⟩
    have hs : willFetch s := ⟨hrun, hnone, ht⟩
    exact ⟨fun ho => step_of_fetch_fatal hs (fetchInstr_odd ho),
      fun hcm ho => step_of_fetch_fatal hs (fetchInstr_supervisor hcm ho)⟩

end Sys2Proof.Proofs
end

/-! PROOF. The frame of the instructions that work through the stack (40_step_and_operands.md R156;
44_jumps_subroutines.md R252, R253; 46_system.md R304, R307, R308; 47_extension_profile.md R354). -/
section
namespace Sys2Proof.Machine

/-! ## What an evaluation and one store change together -/

theorem EvalEffect.frame {p : Reg → Prop} {s v : State} (h : EvalEffect p s v) :
    registersSame p s v ∧ v.psw = s.psw ∧ v.mmu = s.mmu ∧ v.ram = s.ram ∧ controlSame s v ∧ s.history <+: v.history :=
  ⟨h.regs, h.psw, h.mmu, h.ram, h.control, h.history⟩

/-- What work with one store in it may change: the registers it touches, the bytes stored to, and the MMU unless
something keeps it. -/
structure StoreEffect (touched : Reg → Prop) (bytes : Nat → Prop) (mmuKept : Prop) (s t : State) : Prop where
  psw : t.psw = s.psw
  mmu : mmuKept → t.mmu = s.mmu
  ram : ramSameOutside bytes s t
  control : controlSame s t
  regs : registersSame touched s t
  history : s.history <+: t.history

section
variable {p q : Reg → Prop} {bytes : Nat → Prop} {mmuKept : Prop} {s t u : State}

theorem EvalEffect.thenStore (h : EvalEffect p s t) (h' : StoreEffect q bytes mmuKept t u) :
    StoreEffect (fun r => p r ∨ q r) bytes mmuKept s u :=
  ⟨h'.psw.trans h.psw, fun hm => (h'.mmu hm).trans h.mmu, fun a ha => (h'.ram a ha).trans (by rw [h.ram]),
    h.control.trans h'.control, registersSame_trans (by rw [h.psw]) (by rw [h.psw]) h.regs h'.regs,
    h.history.trans h'.history⟩

theorem StoreEffect.thenEval (h : StoreEffect p bytes mmuKept s t) (h' : EvalEffect q t u) :
    StoreEffect (fun r => p r ∨ q r) bytes mmuKept s u :=
  ⟨h'.psw.trans h.psw, fun hm => h'.mmu.trans (h.mmu hm), fun a ha => (by rw [h'.ram, h.ram a ha]),
    h.control.trans h'.control, registersSame_trans (by rw [h.psw]) (by rw [h.psw]) h.regs h'.regs,
    h.history.trans h'.history⟩

/-- The frame of work that ends with the store and register writes. -/
theorem StoreEffect.frame (hpq : ∀ r, p r → q r) (h : StoreEffect p bytes mmuKept s t) :
    registersSame q s t ∧ t.psw = s.psw ∧ (mmuKept → t.mmu = s.mmu) ∧ ramSameOutside bytes s t ∧ controlSame s t ∧
      s.history <+: t.history :=
  ⟨registersSame_mono hpq h.regs, h.psw, h.mmu, h.ram, h.control, h.history⟩

/-- The frame of work that ends with flags. -/
theorem StoreEffect.frame_applyFlags (hpq : ∀ r, p r → q r) (h : StoreEffect p bytes mmuKept s t) (f : FlagUpdate) :
    registersSame q s (t.applyFlags f) ∧ systemFieldsSame s (t.applyFlags f) ∧
      (mmuKept → (t.applyFlags f).mmu = s.mmu) ∧ ramSameOutside bytes s (t.applyFlags f) ∧
      controlSame s (t.applyFlags f) ∧ s.history <+: (t.applyFlags f).history :=
  ⟨registersSame_withPsw _ rfl rfl (registersSame_mono hpq h.regs),
    systemFieldsSame.of_psw h.psw ⟨rfl, rfl, rfl, rfl, rfl⟩, h.mmu, h.ram, h.control, h.history⟩

end

/-! ## The stack (R156) -/

/-- A push is a store below SP, made once SP has moved. -/
theorem push_eq_storeWord (v : Word) (s : State) :
    push v s = storeWord (.mem (readReg s .sp - 2)) v (writeReg .sp (readReg s .sp - 2) s) := by
  simp only [push, readReg_writeReg_same, storeWord_mem]

/-- A push to anything but the mapped PSW. -/
theorem push_storeEffect {v : Word} {s t : State} {wrote : Bool} (h : push v s = .ok wrote t)
    (hpsw : ¬storesPsw (.mem (readReg s .sp - 2)) .word (writeReg .sp (readReg s .sp - 2) s)) :
    wrote = false ∧ StoreEffect (· = .sp)
      (storedBytes (.mem (readReg s .sp - 2)) .word (writeReg .sp (readReg s .sp - 2) s))
      (¬storesMmu (.mem (readReg s .sp - 2)) .word (writeReg .sp (readReg s .sp - 2) s)) s t := by
  rw [push_eq_storeWord] at h
  have hstored := storeWord_stored h
  have hwrote : wrote = false := by
    cases wrote with
    | false => rfl
    | true => exact absurd (hstored.atPsw.1 rfl) hpsw
  subst hwrote
  have hstore : StoreEffect (fun _ => False) (storedBytes (.mem (readReg s .sp - 2)) .word
      (writeReg .sp (readReg s .sp - 2) s)) (¬storesMmu (.mem (readReg s .sp - 2)) .word
      (writeReg .sp (readReg s .sp - 2) s)) (writeReg .sp (readReg s .sp - 2) s) t :=
    ⟨hstored.psw rfl, hstored.mmu, hstored.ram, hstored.control, registersSame_mono nofun hstored.registersSame,
      hstored.history⟩
  obtain ⟨hsame, hmmu, hram, hcontrol, hregs, hhistory⟩ := (evalEffect_writeReg .sp _ s).thenStore hstore
  exact ⟨rfl, hsame, hmmu, hram, hcontrol, registersSame_mono (by simp) hregs, hhistory⟩

theorem push_ne_abort {v : Word} {s : State}
    (h : answered (.mem (readReg s .sp - 2)) .word (writeReg .sp (readReg s .sp - 2) s)) (t : State) :
    push v s ≠ .abort t := by
  rw [push_eq_storeWord]
  exact storeWord_ne_abort h v t

/-- A pop changes no bank. -/
theorem pop_banks {s t : State} {x : Word} (h : pop s = .ok x t) : t.bank0 = s.bank0 ∧ t.bank1 = s.bank1 := by
  obtain ⟨h0, h1, -⟩ := ((memReadWord_effect _ _ _).of_ok h).slotsSame
  exact ⟨h0.trans (by simp [writeReg]), h1.trans (by simp [writeReg])⟩

/-- R250: a jump's target steps no register. -/
theorem jumpTarget_effect {dd : Operand} {s t : State} {ea : Word} (h : jumpTarget dd s = .ok ea t) :
    EvalEffect (fun _ => False) s t := by
  unfold jumpTarget at h
  split at h
  · next hmode =>
    obtain ⟨l, u, hl, hu⟩ := Res.bind_eq_ok.1 h
    have hut : u = t := by
      cases l with
      | mem va =>
        cases hu
        rfl
      | reg r => cases hu
    subst hut
    refine ((resolve_effect dd .word s).of_ok hl).mono ?_
    rintro r ⟨-, hm | hm | hm | hm⟩ <;> simp [hm, AddrMode.isJumpTarget] at hmode
  · cases h

/-! ## A store to the previous space (R306, R308) -/

/-- What the store of MTPI changes, by its location. -/
structure PrevStored (l : Loc) (u w : State) : Prop where
  psw : w.psw = u.psw
  control : controlSame u w
  history : u.history <+: w.history
  regs : ∀ q, q ≠ .pc → q ≠ .sp → l ≠ .reg q → readReg w q = readReg u q
  bank : if u.psw.rs then w.bank0 = u.bank0 else w.bank1 = u.bank1
  pointers : ∀ m, m ≠ u.psw.cm → ¬(l = .reg .sp ∧ m.toBits = u.psw.pm) → w.spOf m = u.spOf m
  register : ∀ r, l = .reg r → w.ram = u.ram ∧ w.mmu = u.mmu
  memory : ∀ va, l = .mem va → ramSameOutside (storedAt u u.prevSpace va .word) u w ∧
    ((∀ sp, u.prevSpace = some sp → mmuRegAt (u.translate sp va) = none) → w.mmu = u.mmu)

theorem prevStored_writeReg (r : Reg) (x : Word) (u : State) : PrevStored (.reg r) u (writeReg r x u) := by
  obtain ⟨hbank, hsp⟩ := hiddenSlotsSame_writeReg r x u
  exact ⟨by simp, ⟨by simp, by simp, by simp, by simp, by simp⟩, by simp,
    fun q _ _ hq => readReg_writeReg_other (fun h => hq (by rw [h])) x u, hbank, fun m hm _ => hsp m hm,
    fun _ _ => ⟨by simp, by simp⟩, nofun⟩

theorem prevStored_withSpOf {u : State} {m : Mode} (hm : m.toBits = u.psw.pm) (x : Word) :
    PrevStored (.reg .sp) u (u.withSpOf m x) := by
  refine ⟨by simp, ⟨by simp, by simp, by simp, by simp, by simp⟩, by simp, fun q _ hsp _ => ?_, by simp,
    fun k _ hk => ?_, fun _ _ => ⟨by simp, by simp⟩, nofun⟩
  · cases q with
    | sp => exact absurd rfl hsp
    | r0 | r1 | r2 | r3 | r4 | r5 | pc => simp [readReg, State.bank]
  · exact withSpOf_spOf_other (fun h => hk ⟨rfl, by rw [h, hm]⟩) x u

theorem prevStored_memory {u w : State} {va x : Word} (h : memWriteWord va x u.prevSpace u = .ok false w) :
    PrevStored (.mem va) u w := by
  have hw := memWriteWord_written h
  have hpsw := hw.psw rfl
  obtain ⟨hregs, hbank, hsp⟩ := hw.slots.registersSame hpsw (fun _ => False)
  refine ⟨hpsw, hw.control, hw.history, fun q hpc _ _ => hregs q hpc (by simp), hbank, fun m hm _ => hsp m hm, nofun,
    fun a ha => ?_⟩
  cases ha
  refine ⟨hw.ram, fun hnone => hw.mmu fun sp r hspace _ hr => ?_⟩
  exact absurd ((hnone sp hspace).symm.trans hr) (by simp)

theorem storePrev_prevStored {l : Loc} {x : Word} {u w : State} (h : storePrev l x u = .ok false w) :
    PrevStored l u w := by
  cases l with
  | mem va => exact prevStored_memory h
  | reg r =>
    cases hm : Mode.ofBits u.psw.pm with
    | none => simp [storePrev, writePrevReg, hm] at h
    | some m =>
      have hbits := Mode.toBits_of_ofBits hm
      by_cases hr : r = .sp
      · subst hr
        cases (prev_sp hbits x).2.symm.trans h
        exact prevStored_withSpOf hbits x
      · cases (prev_reg hbits hr x).2.symm.trans h
        exact prevStored_writeReg r x u

/-! ## The frame of each instruction -/

theorem exec_rts_frame {r : Reg} {s t v : State} {x : Word} (h : pop (s.withPc (readReg s r)) = .ok x t)
    (hv : exec (.rts r) s = .next v) : EvalEffect (fun q => q = .sp ∨ q = r) s v := by
  cases (exec_rts_of_pop h).symm.trans hv
  exact (((evalEffect_withPc _ s).trans ((pop_effect _).of_ok h)).trans (evalEffect_writeReg r x t)).mono (by simp)

theorem exec_mark_frame {nn : BitVec 6} {s t v : State} {x : Word}
    (h : pop ((writeReg .sp (s.pcr + BitVec.ofNat 16 (2 * nn.toNat)) s).withPc (readReg s .r5)) = .ok x t)
    (hv : exec (.mark nn) s = .next v) : EvalEffect (fun q => q = .sp ∨ q = .r5) s v := by
  rw [exec_mark, complete_bind h] at hv
  cases hv
  have hstart := (evalEffect_writeReg .sp (s.pcr + BitVec.ofNat 16 (2 * nn.toNat)) s).trans
    (evalEffect_withPc (readReg s .r5) _)
  exact ((hstart.trans ((pop_effect _).of_ok h)).trans (evalEffect_writeReg .r5 x t)).mono (by simp)

/-- R304: two pops, and the load of a PSW. -/
theorem exec_return_frame {i : Instr} {s t u v : State} {x y : Word} (hi : i = .rtt ∨ i = .rti)
    (hx : pop s = .ok x t) (hy : pop (t.withPc x) = .ok y u) (hv : exec i s = .next v) :
    EvalEffect (· = .sp) s u ∧ u.bank0 = s.bank0 ∧ u.bank1 = s.bank1 ∧ ∃ p, v = u.withPsw p := by
  obtain ⟨h0, h1⟩ := pop_banks hx
  obtain ⟨h0', h1'⟩ := pop_banks hy
  have heval := (((pop_effect s).of_ok hx).trans (evalEffect_withPc x t)).trans ((pop_effect _).of_ok hy)
  refine ⟨heval.mono (by simp), h0'.trans h0, h1'.trans h1, ?_⟩
  rw [exec_return (by simpa using hi), returnFromTrap, complete_bind hx, hy, Res.bind_ok] at hv
  have hload := eq_ok_of_complete hv fun w hw => by
    unfold loadPsw at hw
    split at hw <;> cases hw
  obtain ⟨p, -, rfl⟩ := loadPsw_eq_ok.1 hload
  exact ⟨p, rfl⟩

theorem exec_jsr_frame {r : Reg} {dst : Operand} {s t v : State} {ea : Word} (h : jumpTarget dst s = .ok ea t)
    (ha : answered (.mem (readReg t .sp - 2)) .word (writeReg .sp (readReg t .sp - 2) t))
    (hpsw : ¬storesPsw (.mem (readReg t .sp - 2)) .word (writeReg .sp (readReg t .sp - 2) t))
    (hv : exec (.jsr r dst) s = .next v) :
    ∃ p : Reg → Prop, (∀ q, p q → q = .sp ∨ q = r) ∧ StoreEffect p
      (storedBytes (.mem (readReg t .sp - 2)) .word (writeReg .sp (readReg t .sp - 2) t))
      (¬storesMmu (.mem (readReg t .sp - 2)) .word (writeReg .sp (readReg t .sp - 2) t)) s v := by
  rw [exec_jsr_of_target h] at hv
  obtain ⟨wrote, u, hu⟩ := exists_ok_of_complete_bind hv (push_ne_abort ha)
  rw [complete_bind hu] at hv
  cases hv
  obtain ⟨-, hstore⟩ := push_storeEffect hu hpsw
  exact ⟨_, by simp, (((jumpTarget_effect h).thenStore hstore).thenEval (evalEffect_writeReg r u.pcr u)).thenEval
    (evalEffect_withPc ea _)⟩

theorem exec_moveFrom_frame {i : Instr} {src : Operand} {s t u v : State} {k : Loc} {x : Word}
    (hi : i = .mfpi src ∨ i = .mfpd src) (hk : resolve src .word s = .ok k t) (hx : loadPrev k t = .ok x u)
    (ha : answered (.mem (readReg u .sp - 2)) .word (writeReg .sp (readReg u .sp - 2) u))
    (hpsw : ¬storesPsw (.mem (readReg u .sp - 2)) .word (writeReg .sp (readReg u .sp - 2) u))
    (hv : exec i s = .next v) :
    ∃ (p : Reg → Prop) (w : State) (f : FlagUpdate), (∀ q, p q → q = .sp ∨ steps src q) ∧ StoreEffect p
      (storedBytes (.mem (readReg u .sp - 2)) .word (writeReg .sp (readReg u .sp - 2) u))
      (¬storesMmu (.mem (readReg u .sp - 2)) .word (writeReg .sp (readReg u .sp - 2) u)) s w ∧ v = w.applyFlags f := by
  rw [exec_moveFrom (by simpa using hi), moveFromPrevious, complete_bind hk, complete_bind hx] at hv
  obtain ⟨wrote, w, hw⟩ := exists_ok_of_complete_bind hv (push_ne_abort ha)
  rw [complete_bind hw] at hv
  cases hv
  obtain ⟨rfl, hstore⟩ := push_storeEffect hw hpsw
  have heval := ((resolve_effect src .word s).of_ok hk).trans ((loadPrev_effect k t).of_ok hx).eval
  exact ⟨_, w, _, by simp [or_comm], heval.thenStore hstore, rfl⟩

/-- The pop and the resolution, then the store of MTPI, then its flags. -/
theorem exec_moveTo_frame {i : Instr} {dst : Operand} {s t u w v : State} {l : Loc} {x : Word}
    (hi : i = .mtpi dst ∨ i = .mtpd dst) (hx : pop s = .ok x t) (hl : resolve dst .word t = .ok l u)
    (hw : storePrev l x u = .ok false w) (hv : exec i s = .next v) :
    EvalEffect (fun q => q = .sp ∨ steps dst q) s u ∧ PrevStored l u w ∧ ∃ f, v = w.applyFlags f := by
  refine ⟨((pop_effect s).of_ok hx).trans ((resolve_effect dst .word t).of_ok hl), storePrev_prevStored hw, ?_⟩
  rw [exec_moveTo (by simpa using hi), moveToPrevious, complete_bind hx, complete_bind hl, complete_bind hw] at hv
  cases hv
  exact ⟨_, rfl⟩

end Sys2Proof.Machine

namespace Sys2Proof.Proofs
open Sys2Proof.Machine

/-- Settles O60: what pops and evaluations change, and one store of a push or to the previous space. -/
theorem stackFrame : Obligations.StackFrame := by
  refine ⟨fun r s t v x h hv => (exec_rts_frame h hv).frame, fun nn s t v x h hv => (exec_mark_frame h hv).frame,
    fun i s t u v x y hi hx hy hv => ?_, fun r dst s t v ea h => ?_, fun i src s t u v k x hi hk hx => ?_,
    fun i dst s t u w v l x hi hx hl hw hv => ?_⟩
  · obtain ⟨heval, h0, h1, p, rfl⟩ := exec_return_frame hi hx hy hv
    obtain ⟨-, hmmu, hram, hcontrol, ⟨-, -, hsp⟩, hhistory⟩ := heval
    exact ⟨h0, h1, fun m hm => (withPsw_spOf p u m).trans (hsp m hm), hmmu, hram, hcontrol, hhistory⟩
  · intro w l ha hpsw hv
    obtain ⟨p, hp, hstore⟩ := exec_jsr_frame h ha hpsw hv
    exact hstore.frame hp
  · intro w l ha hpsw hv
    obtain ⟨p, y, f, hp, hstore, rfl⟩ := exec_moveFrom_frame hi hk hx ha hpsw hv
    exact hstore.frame_applyFlags hp f
  · obtain ⟨⟨hpsw, hmmu, hram, hcontrol, ⟨hregs, hbank, hsp⟩, hhistory⟩, hstore, f, rfl⟩ :=
      exec_moveTo_frame hi hx hl hw hv
    have hcm : u.psw.cm = s.psw.cm := by rw [hpsw]
    have hregister : ∀ q, l = .reg q → names dst q := by
      rintro q rfl
      exact names_of_resolve hl
    refine ⟨fun q hpc hqsp hsteps hnames => ?_, ?_, fun m hm hprev => ?_, ?_, hcontrol.trans hstore.control,
      hhistory.trans hstore.history, fun r hr => ?_, fun va hva => ?_⟩
    · have hq : readReg (w.applyFlags f) q = readReg w q := readReg_congr rfl rfl rfl rfl rfl rfl rfl rfl q
      rw [hq, hstore.regs q hpc hqsp (mt (hregister q) hnames), hregs q hpc (by simp [hqsp, hsteps])]
    · have hbank' := hstore.bank
      rw [hpsw] at hbank'
      split
      · next hrs =>
        rw [if_pos hrs] at hbank hbank'
        exact hbank'.trans hbank
      · next hrs =>
        rw [if_neg hrs] at hbank hbank'
        exact hbank'.trans hbank
    · have hkeep := hstore.pointers m (hcm ▸ hm) fun ⟨hlsp, hpm⟩ => hprev ⟨hregister .sp hlsp, by rw [hpm, hpsw]⟩
      exact (withPsw_spOf _ w m).trans (hkeep.trans (hsp m hm))
    · exact systemFieldsSame.of_psw (hstore.psw.trans hpsw) ⟨rfl, rfl, rfl, rfl, rfl⟩
    · obtain ⟨hram', hmmu'⟩ := hstore.register r hr
      exact ⟨hram'.trans hram, hmmu'.trans hmmu⟩
    · obtain ⟨hram', hmmu'⟩ := hstore.memory va hva
      exact ⟨fun a ha => (hram' a ha).trans (by rw [hram]), fun h => (hmmu' h).trans hmmu⟩

end Sys2Proof.Proofs
end
